-- ==== Sys2Proof/Word.lean ====
section
/-!
DEFINITION. The word of the block: 32 bits, carried by packets and held by the three memories (rules R9, R10, R50).
-/

namespace Sys2Proof

/-- A 32-bit word of a packet or of a memory (rules R50, R70). -/
abbrev Word := BitVec 32

/-- A word read as an IEEE-754 binary32 value: its bit pattern (rules R9, R10). -/
abbrev F32 := BitVec 32

end Sys2Proof
end

