-- ==== Sys2Proof/Syntax.lean ====
section
/-!
DEFINITION. The 27 operations of rule R73 with their operands, as a command packet gives them.
-/

namespace Sys2Proof

/-- One parameter tuple, DOC0's ParameterSample (rule R9). `bypass` is the raw word: a value other than 0 or 1 is a fault
of execution, not of decoding (rule R71). -/
structure ParamSample where
  rate : F32
  depth : F32
  mix : F32
  bypass : Word
  deriving DecidableEq, Repr

/-- One sample of an `FX.PROCESS` block: its parameter tuple and its input, "aligned 1:1" (rule R9). -/
structure FxSample where
  params : ParamSample
  x : F32
  deriving DecidableEq, Repr

/-- The operations of rule R74. A counted operation's `n` is the length of its list. -/
inductive Instr where
  | lfoNew (min max : F32)
  | lfoStep (incr depth : F32)
  | lfoReset
  | hbNew (lookBehind maxBlock : Word)
  | hbProcess (samples : List F32)
  | hbView
  | hbRead (start count : Word)
  | hbRelease
  | hbReset
  | pkLpf (length : Word) (increment : F32)
  | pkLoadk (taps : List F32)
  | pkSplit (numPhases : Word)
  | dlRead (i : Word) (delay : F32)
  | cmpNew (fs : F32)
  | cmpDetect (x : F32)
  | cmpReset
  | cmpCompress (signal level : F32)
  | cmpExpand (signal level : F32)
  | nlShape (x : F32)
  | aafNew (k : BitVec 8) (fs : F32)
  | aafStep (k : BitVec 8) (x : F32)
  | aafReset (k : BitVec 8)
  | fxNew (fs : F32) (maxBlock : Word)
  | fxSetproc (on : Word)
  | fxParams (params : List ParamSample)
  | fxProcess (block : List FxSample)
  | fxReset
  deriving DecidableEq, Repr

end Sys2Proof
end

