-- ==== Sys2Proof/WellFormed.lean ====
section
/-!
DEFINITION. Which operations a packet can carry: the count `n` has 16 bits (rule R72).
-/

namespace Sys2Proof

/-- The greatest count a header holds: `n` is `header[15:0]` (rule R72). -/
def maxCount : Nat := 65535

/-- An operation whose count fits the header. -/
def Instr.WellFormed : Instr → Bool
  | .hbProcess samples => samples.length ≤ maxCount
  | .pkLoadk taps => taps.length ≤ maxCount
  | .fxParams params => params.length ≤ maxCount
  | .fxProcess block => block.length ≤ maxCount
  | .lfoNew .. | .lfoStep .. | .lfoReset | .hbNew .. | .hbView | .hbRead .. | .hbRelease | .hbReset
  | .pkLpf .. | .pkSplit .. | .dlRead .. | .cmpNew .. | .cmpDetect .. | .cmpReset | .cmpCompress ..
  | .cmpExpand .. | .nlShape .. | .aafNew .. | .aafStep .. | .aafReset .. | .fxNew .. | .fxSetproc ..
  | .fxReset => true

end Sys2Proof
end

