-- ==== Sys2Proof/Decode.lean ====
section
/-!
DEFINITION. Command packets: the header (rule R72), the packet lengths (rule R73), the opcode map (rule R74), what is
illegal (rule R75), and the encoder from the same tables.
-/

namespace Sys2Proof

/-- The operations as the opcode map names them (rule R74). -/
inductive Opcode where
  | lfoNew | lfoStep | lfoReset
  | hbNew | hbProcess | hbView | hbRead | hbRelease | hbReset
  | pkLpf | pkLoadk | pkSplit
  | dlRead
  | cmpNew | cmpDetect | cmpReset | cmpCompress | cmpExpand
  | nlShape
  | aafNew | aafStep | aafReset
  | fxNew | fxSetproc | fxParams | fxProcess | fxReset
  deriving DecidableEq, Repr

/-- Why the front of the command port is no operation. -/
inductive DecodeError where
  /-- The port does not hold a whole packet yet: the block waits (rules R21, R70). -/
  | incomplete
  /-- Illegal: `unit` is 0 or 9..15 (rule R75). -/
  | reservedUnit
  /-- Illegal: the unit does not define `func` (rule R75). -/
  | undefinedFunc
  /-- Illegal: a non-zero `inst` or `n` in an operation that has none (rule R75). -/
  | mustBeZero
  deriving DecidableEq, Repr

/-- A row of the opcode map: it is selected when `header & mask = pattern` (rule R74). -/
structure OpcodeRow where
  op : Opcode
  pattern : Word
  mask : Word
  deriving DecidableEq, Repr

/-- The opcode map, row by row as rule R74 prints it. -/
def opcodeMap : List OpcodeRow :=
  [⟨.lfoNew,      0x10000000#32, 0xFFFFFFFF#32⟩,
   ⟨.lfoStep,     0x11000000#32, 0xFFFFFFFF#32⟩,
   ⟨.lfoReset,    0x12000000#32, 0xFFFFFFFF#32⟩,
   ⟨.hbNew,       0x20000000#32, 0xFFFFFFFF#32⟩,
   ⟨.hbProcess,   0x21000000#32, 0xFFFF0000#32⟩,
   ⟨.hbView,      0x22000000#32, 0xFFFFFFFF#32⟩,
   ⟨.hbRead,      0x23000000#32, 0xFFFFFFFF#32⟩,
   ⟨.hbRelease,   0x24000000#32, 0xFFFFFFFF#32⟩,
   ⟨.hbReset,     0x25000000#32, 0xFFFFFFFF#32⟩] ++
  [⟨.pkLpf,       0x30000000#32, 0xFFFFFFFF#32⟩,
   ⟨.pkLoadk,     0x31000000#32, 0xFFFF0000#32⟩,
   ⟨.pkSplit,     0x32000000#32, 0xFFFFFFFF#32⟩,
   ⟨.dlRead,      0x40000000#32, 0xFFFFFFFF#32⟩,
   ⟨.cmpNew,      0x50000000#32, 0xFFFFFFFF#32⟩,
   ⟨.cmpDetect,   0x51000000#32, 0xFFFFFFFF#32⟩,
   ⟨.cmpReset,    0x52000000#32, 0xFFFFFFFF#32⟩,
   ⟨.cmpCompress, 0x53000000#32, 0xFFFFFFFF#32⟩,
   ⟨.cmpExpand,   0x54000000#32, 0xFFFFFFFF#32⟩] ++
  [⟨.nlShape,     0x60000000#32, 0xFFFFFFFF#32⟩,
   ⟨.aafNew,      0x70000000#32, 0xFF00FFFF#32⟩,
   ⟨.aafStep,     0x71000000#32, 0xFF00FFFF#32⟩,
   ⟨.aafReset,    0x72000000#32, 0xFF00FFFF#32⟩,
   ⟨.fxNew,       0x80000000#32, 0xFFFFFFFF#32⟩,
   ⟨.fxSetproc,   0x81000000#32, 0xFFFFFFFF#32⟩,
   ⟨.fxParams,    0x82000000#32, 0xFFFF0000#32⟩,
   ⟨.fxProcess,   0x83000000#32, 0xFFFF0000#32⟩,
   ⟨.fxReset,     0x84000000#32, 0xFFFFFFFF#32⟩]

/-- `header[31:24]`, the field `opcode` (rule R72). -/
def headerOpcode (h : Word) : BitVec 8 := h.extractLsb' 24 8

/-- `header[23:16]`, the field `inst` (rule R72). -/
def headerInst (h : Word) : BitVec 8 := h.extractLsb' 16 8

/-- `header[15:0]`, the field `n` (rule R72). -/
def headerCount (h : Word) : BitVec 16 := h.extractLsb' 0 16

/-- The operation a header selects (rule R74). -/
def selectOpcode (h : Word) : Option Opcode :=
  (opcodeMap.find? fun r => h &&& r.mask == r.pattern).map OpcodeRow.op

/-- Why a header that selects no operation is illegal (rule R75). -/
def illegalReason (h : Word) : DecodeError :=
  let unit := (headerOpcode h).toNat / 16
  if unit = 0 ∨ 9 ≤ unit then .reservedUnit
  else if opcodeMap.any fun r => headerOpcode r.pattern == headerOpcode h then .mustBeZero
  else .undefinedFunc

/-- The number of operand words that follow the header (rule R73). -/
def Opcode.operandWords (op : Opcode) (n : Nat) : Nat :=
  match op with
  | .lfoReset | .hbView | .hbRelease | .hbReset | .cmpReset | .aafReset | .fxReset => 0
  | .pkSplit | .cmpNew | .cmpDetect | .nlShape | .aafNew | .aafStep | .fxSetproc => 1
  | .lfoNew | .lfoStep | .hbNew | .hbRead | .pkLpf | .dlRead | .cmpCompress | .cmpExpand | .fxNew => 2
  | .hbProcess | .pkLoadk => n
  | .fxParams => 4 * n
  | .fxProcess => 5 * n

/-- Consecutive words as parameter tuples, in packet order (rule R73). -/
def paramSamplesOf : List Word → List ParamSample
  | rate :: depth :: mix :: bypass :: rest => ⟨rate, depth, mix, bypass⟩ :: paramSamplesOf rest
  | _ => []

/-- The words of parameter tuples, in packet order (rule R73). -/
def paramSampleWords : List ParamSample → List Word
  | [] => []
  | p :: ps => p.rate :: p.depth :: p.mix :: p.bypass :: paramSampleWords ps

/-- One operand word, then the rest of the port. -/
def takeOne (ws : List Word) (k : Word → Instr) : Except DecodeError (Instr × List Word) :=
  match ws with
  | a :: rest => .ok (k a, rest)
  | [] => .error .incomplete

/-- Two operand words, then the rest of the port. -/
def takeTwo (ws : List Word) (k : Word → Word → Instr) : Except DecodeError (Instr × List Word) :=
  match ws with
  | a :: b :: rest => .ok (k a b, rest)
  | _ => .error .incomplete

/-- `count` operand words, then the rest of the port. -/
def takeMany (count : Nat) (ws : List Word) (k : List Word → Instr) : Except DecodeError (Instr × List Word) :=
  if count ≤ ws.length then .ok (k (ws.take count), ws.drop count) else .error .incomplete

/-- The operands of a selected operation: `inst`, `n` and the words after the header (rule R73). -/
def readOperands (op : Opcode) (inst : BitVec 8) (n : Nat) (ws : List Word) :
    Except DecodeError (Instr × List Word) :=
  match op with
  | .lfoNew => takeTwo ws .lfoNew
  | .lfoStep => takeTwo ws .lfoStep
  | .lfoReset => .ok (.lfoReset, ws)
  | .hbNew => takeTwo ws .hbNew
  | .hbProcess => takeMany n ws .hbProcess
  | .hbView => .ok (.hbView, ws)
  | .hbRead => takeTwo ws .hbRead
  | .hbRelease => .ok (.hbRelease, ws)
  | .hbReset => .ok (.hbReset, ws)
  | .pkLpf => takeTwo ws .pkLpf
  | .pkLoadk => takeMany n ws .pkLoadk
  | .pkSplit => takeOne ws .pkSplit
  | .dlRead => takeTwo ws .dlRead
  | .cmpNew => takeOne ws .cmpNew
  | .cmpDetect => takeOne ws .cmpDetect
  | .cmpReset => .ok (.cmpReset, ws)
  | .cmpCompress => takeTwo ws .cmpCompress
  | .cmpExpand => takeTwo ws .cmpExpand
  | .nlShape => takeOne ws .nlShape
  | .aafNew => takeOne ws (.aafNew inst)
  | .aafStep => takeOne ws (.aafStep inst)
  | .aafReset => .ok (.aafReset inst, ws)
  | .fxNew => takeTwo ws .fxNew
  | .fxSetproc => takeOne ws .fxSetproc
  | .fxParams => takeMany (4 * n) ws fun us => .fxParams (paramSamplesOf us)
  | .fxProcess => takeMany (5 * n) ws fun us =>
      .fxProcess (List.zipWith FxSample.mk (paramSamplesOf (us.take (4 * n))) (us.drop (4 * n)))
  | .fxReset => .ok (.fxReset, ws)

/-- The packet at the front of the command port: the operation and the words after it, or why there is none. -/
def decode (ws : List Word) : Except DecodeError (Instr × List Word) :=
  match ws with
  | [] => .error .incomplete
  | h :: rest =>
    match selectOpcode h with
    | some op => readOperands op (headerInst h) (headerCount h).toNat rest
    | none => .error (illegalReason h)

/-! ## The encoder -/

/-- The column `opcode` of rule R73. -/
def Opcode.byte : Opcode → BitVec 8
  | .lfoNew => 0x10#8 | .lfoStep => 0x11#8 | .lfoReset => 0x12#8
  | .hbNew => 0x20#8 | .hbProcess => 0x21#8 | .hbView => 0x22#8
  | .hbRead => 0x23#8 | .hbRelease => 0x24#8 | .hbReset => 0x25#8
  | .pkLpf => 0x30#8 | .pkLoadk => 0x31#8 | .pkSplit => 0x32#8
  | .dlRead => 0x40#8
  | .cmpNew => 0x50#8 | .cmpDetect => 0x51#8 | .cmpReset => 0x52#8
  | .cmpCompress => 0x53#8 | .cmpExpand => 0x54#8
  | .nlShape => 0x60#8
  | .aafNew => 0x70#8 | .aafStep => 0x71#8 | .aafReset => 0x72#8
  | .fxNew => 0x80#8 | .fxSetproc => 0x81#8 | .fxParams => 0x82#8
  | .fxProcess => 0x83#8 | .fxReset => 0x84#8

/-- `unit ++ func ++ inst ++ n` (rule R72). -/
def header (op : Opcode) (inst : BitVec 8) (n : Nat) : Word :=
  (op.byte ++ inst : BitVec 16) ++ BitVec.ofNat 16 n

/-- The command packet of an operation (rule R73). -/
def encode : Instr → List Word
  | .lfoNew lo hi => [header .lfoNew 0 0, lo, hi]
  | .lfoStep incr depth => [header .lfoStep 0 0, incr, depth]
  | .lfoReset => [header .lfoReset 0 0]
  | .hbNew lookBehind maxBlock => [header .hbNew 0 0, lookBehind, maxBlock]
  | .hbProcess samples => header .hbProcess 0 samples.length :: samples
  | .hbView => [header .hbView 0 0]
  | .hbRead start count => [header .hbRead 0 0, start, count]
  | .hbRelease => [header .hbRelease 0 0]
  | .hbReset => [header .hbReset 0 0]
  | .pkLpf length increment => [header .pkLpf 0 0, length, increment]
  | .pkLoadk taps => header .pkLoadk 0 taps.length :: taps
  | .pkSplit numPhases => [header .pkSplit 0 0, numPhases]
  | .dlRead i delay => [header .dlRead 0 0, i, delay]
  | .cmpNew fs => [header .cmpNew 0 0, fs]
  | .cmpDetect x => [header .cmpDetect 0 0, x]
  | .cmpReset => [header .cmpReset 0 0]
  | .cmpCompress signal level => [header .cmpCompress 0 0, signal, level]
  | .cmpExpand signal level => [header .cmpExpand 0 0, signal, level]
  | .nlShape x => [header .nlShape 0 0, x]
  | .aafNew k fs => [header .aafNew k 0, fs]
  | .aafStep k x => [header .aafStep k 0, x]
  | .aafReset k => [header .aafReset k 0]
  | .fxNew fs maxBlock => [header .fxNew 0 0, fs, maxBlock]
  | .fxSetproc on => [header .fxSetproc 0 0, on]
  | .fxParams params => header .fxParams 0 params.length :: paramSampleWords params
  | .fxProcess block =>
      header .fxProcess 0 block.length ::
        (paramSampleWords (block.map FxSample.params) ++ block.map FxSample.x)
  | .fxReset => [header .fxReset 0 0]

/-! ## The opcode table's numbering -/

/-- The 32-bit words of a number whose bit 0 is the least significant bit of the first word. -/
def tableWords (nbits w : Nat) : List Word :=
  (List.range ((nbits + 31) / 32)).map fun i => BitVec.ofNat 32 (w / 2 ^ (32 * i) % 2 ^ 32)

/-- The number of operand words a header calls for, 0 for an illegal one (rules R73, R75). -/
def operandWordsOf (h : Word) : Nat :=
  match selectOpcode h with
  | some op => op.operandWords (headerCount h).toNat
  | none => 0

/-- The words of a packet given by its table bits, with the operand words the header calls for beyond them zero. -/
def tablePacket (nbits w : Nat) : List Word :=
  match tableWords nbits w with
  | [] => []
  | h :: given => h :: (given ++ List.replicate (operandWordsOf h - given.length) 0#32)

/-- The operation the decoder reads from a packet given by its table bits. -/
def decodeTableWord (nbits w : Nat) : Option Instr :=
  match decode (tablePacket nbits w) with
  | .ok (i, _) => some i
  | .error _ => none

end Sys2Proof
end

