-- ==== Sys2Proof/Config.lean ====
section
/-!
DEFINITION. What an implementation fixes and what the spec leaves open (rule R7, 92 section 6, 93 part 1).
Functions the spec leaves open are opaque constants without a body, so that a theorem holds for every such function.
Parameters that are data are the record `Params`, which `Machine.State` carries and no step changes.
-/

namespace Sys2Proof

/-- The four rounded operations of rule R11, to name the one that made a NaN. -/
inductive FloatOp where
  | add | sub | mul | div
  deriving DecidableEq, Repr

/-- Whether a machine instantiates an OPEN function with the default this spec decides, or with another one
(93 X8: "parameter"). -/
inductive Law where
  /-- The default of the spec's own decision (D15, D21, D23 or D29). -/
  | specDefault
  /-- A replacement, of which only the opaque constants below are known. -/
  | replaced
  deriving DecidableEq, Repr

/-- `LFO_MIN` and `LFO_MAX`, the delay bounds `FX.NEW` constructs the LFO with (rule R155, D33). -/
inductive LfoBounds where
  | constant (min max : F32)
  /-- "`LFO_MIN` and `LFO_MAX` may be functions of `fs`" (rule R155). -/
  | ofRate
  deriving DecidableEq, Repr

/-- The OPEN parameters that are data (rule R7, 92 section 6). They are fixed for a machine. -/
structure Params where
  /-- `HBUF_WORDS`, the physical size of HBUF (D13). -/
  hbufWords : Nat
  /-- `KRAM_WORDS`, the physical size of KRAM and of PRAM (D13). -/
  kramWords : Nat
  /-- `N_AAF`, the number of filter instances, at most 4 (rule R23, D30). -/
  nAaf : Fin 5
  /-- `EPS`, the compander's ε (D27). -/
  eps : F32
  /-- `K_LEN`, the kernel length of `FX.NEW` (D33). -/
  kLen : Nat
  /-- `K_INC`, the cutoff of `FX.NEW` (D33). -/
  kInc : F32
  /-- `N_PHASES`, the number of phases of `FX.NEW` (D33). -/
  nPhases : Nat
  /-- `LFO_MIN`, `LFO_MAX` of `FX.NEW` (D33). -/
  lfoBounds : LfoBounds
  /-- `LFO_POINT_FN`, `LFO_SCALE_FN` (D15). -/
  lfoLaw : Law
  /-- `LPF_FN` (D21). -/
  lpf : Law
  /-- `PHASE_SEL` (D23). -/
  phaseSel : Law
  /-- `SVF_FN` with `G_FN` (D29). -/
  svf : Law
  deriving DecidableEq, Repr

/-! The elementary functions, "deterministic, total" and nothing more (D9, 93 X7; log 5). -/

opaque Config.exp : F32 → F32
opaque Config.sin : F32 → F32
opaque Config.cos : F32 → F32
opaque Config.tan : F32 → F32

/-- Payload and sign of the NaN an operation makes (93 X6; log 8). The quiet bit and the exponent are not read. -/
opaque Config.nanBits : FloatOp → F32 → F32 → F32

/-- `floor` of a value that is not finite, which rule R11 does not define (log 23). -/
opaque Config.floorOfNonFinite : F32 → Int

/-! Replacements of the OPEN functions (93 X8; logs 6 and 7). -/

/-- `LFO_POINT_FN` of a machine that replaces it. -/
opaque Config.lfoPoint : F32 → F32 → F32
/-- `LFO_SCALE_FN` of a machine that replaces it. -/
opaque Config.lfoScale : F32 → F32 → F32
/-- Tap `i` of `LPF_FN(length, increment)` of a machine that replaces it. -/
opaque Config.lpfTap (length : Nat) (increment : F32) (i : Nat) : F32
/-- The window offset of a replaced `PHASE_SEL(delay, N, M)`. -/
opaque Config.phaseBack (delay : F32) (n m : Nat) : Int
/-- The phase of a replaced `PHASE_SEL(delay, N, M)`, taken modulo `N`. -/
opaque Config.phaseIndex (delay : F32) (n m : Nat) : Nat
/-- `(s0', s1', y)` of a replaced `SVF_FN(g, k, s0, s1, x)`. -/
opaque Config.svf (g k s0 s1 x : F32) : F32 × F32 × F32
/-- A replaced `G_FN(fc, fs)`. -/
opaque Config.svfG (fc fs : F32) : F32
/-- `LFO_MIN` as a function of `fs`. -/
opaque Config.lfoMinOf : F32 → F32
/-- `LFO_MAX` as a function of `fs`. -/
opaque Config.lfoMaxOf : F32 → F32

/-! Values after a fault raised part-way through a chain operation (93 X3; log 12): the first argument counts the
faults, so that each draw is fresh. -/

/-- A datapath register, by a slot number. -/
opaque Config.unspecReg (draw slot : Nat) : F32
/-- The word of HBUF at an index. -/
opaque Config.unspecHbuf (draw addr : Nat) : Word
/-- `HB.len` before its bound is taken. -/
opaque Config.unspecLen (draw : Nat) : Nat

end Sys2Proof
end

