-- ==== Sys2Proof/Machine/State.lean ====
section
/-!
DEFINITION. The architectural state (10_state.md), its value at power-on (rule R190), and the two ways the model stops.
-/

namespace Sys2Proof.Machine

/-- The three address spaces (rule R50). -/
inductive Space where
  | hbuf | kram | pram
  deriving DecidableEq, Repr

/-- A fault of the MODEL, not of the block: the block's own faults are next states (rule R172). -/
inductive Fault where
  /-- Raised by `memRead` and `memWrite` for a word above a memory's physical size, which does not exist (rule R50).
  Safe: the run stops, and no state that meets `State.Inv` gets here (log 15). -/
  | noSuchWord (space : Space) (addr : Nat)
  deriving DecidableEq, Repr

/-- A refusal of the model. -/
inductive Refusal where
  /-- Raised by an arm of `exec` whose instruction has no meaning yet. Safe: the run stops. No arm raises it. -/
  | notModelled (mnemonic : String)
  deriving DecidableEq, Repr

/-- The fault causes with their 4-bit codes (rule R171). -/
inductive Cause where
  | illegalCmd | notConstructed | badConfig | badLength | viewState | range | badParam | badMode | badInstance
  deriving DecidableEq, Repr

/-- One memory: the words that are not +0.0, as (word index, word), indices strictly rising. A word not listed
reads +0.0 (logs 1 and 2). -/
abbrev Mem := List (Nat × Word)

/-- The LFO's registers (rules R22, R24, R25). `LFO.ov` is `output.isSome` (log 17). -/
structure Lfo where
  c : Bool
  point : F32
  scale : F32
  alpha : F32
  phase : F32
  output : Option F32
  deriving DecidableEq, Repr

/-- The history buffer's registers (rules R22, R24, R26). The counts are u32: below 2^32 in every reached state
(`State.Inv.counts`; log 16). -/
structure Hb where
  c : Bool
  view : Bool
  lookBehind : Nat
  maxBlock : Nat
  len : Nat
  deriving DecidableEq, Repr

/-- The kernel store's registers (rules R22, R24, R27). The counts are u32, as those of `Hb` are. -/
structure Pk where
  kv : Bool
  sv : Bool
  kLen : Nat
  nPhases : Nat
  m : Nat
  deriving DecidableEq, Repr

/-- The envelope follower's registers (rules R22, R24, R29). -/
structure Cmp where
  c : Bool
  attack : F32
  release : F32
  env : F32
  deriving DecidableEq, Repr

/-- The two state variables of one filter stage (rule R30). -/
structure Stage where
  s0 : F32
  s1 : F32
  deriving DecidableEq, Repr

/-- One anti-aliasing filter instance (rules R22, R24, R30). `gv` is `g.isSome` (log 17). -/
structure Aaf where
  c : Bool
  g : Option F32
  stage0 : Stage
  stage1 : Stage
  deriving DecidableEq, Repr

/-- The filter instances k = 0..3, as many as STATUS displays (rule R23). -/
structure AafBank where
  f0 : Aaf
  f1 : Aaf
  f2 : Aaf
  f3 : Aaf
  deriving DecidableEq, Repr

/-- The chain controller's registers (rules R22, R24, R32). -/
structure Fx where
  c : Bool
  run : Bool
  fs : F32
  deriving DecidableEq, Repr

/-- The state of one lane (rule R33), with the command port and the last response packet (rule R70). -/
structure State where
  /-- The machine's OPEN parameters: the model's own field, which no step changes (log 4). -/
  cfg : Params
  /-- The command words the host has presented and the block has not yet taken (rule R70; log 9). -/
  port : List Word
  /-- The response packet of the last command (rule R70; log 10). -/
  resp : List Word
  /-- `FAULT` (rule R22). -/
  fault : Bool
  /-- `CAUSE` (rule R23). -/
  cause : BitVec 4
  lfo : Lfo
  hb : Hb
  hbuf : Mem
  pk : Pk
  kram : Mem
  pram : Mem
  cmp : Cmp
  aaf : AafBank
  fx : Fx
  /-- How often unspecified values were drawn: the model's own field (log 12). -/
  freed : Nat
  deriving DecidableEq, Repr

/-- A filter instance nothing has constructed. The variables' values are the model's (log 3). -/
def Aaf.atPowerOn : Aaf := ⟨false, none, ⟨0, 0⟩, ⟨0, 0⟩⟩

/-- Power-on of a machine with these parameters: every flag 0, `CAUSE` 0, `LFO.output` `None` (rule R190). The spec
leaves every other register and word unspecified; the values here are the model's (logs 2 and 3). -/
def State.powerOn (cfg : Params) : State where
  cfg := cfg
  port := []
  resp := []
  fault := false
  cause := 0
  lfo := ⟨false, 0, 0, 0, 0, none⟩
  hb := ⟨false, false, 0, 0, 0⟩
  hbuf := []
  pk := ⟨false, false, 0, 0, 0⟩
  kram := []
  pram := []
  cmp := ⟨false, 0, 0, 0⟩
  aaf := ⟨.atPowerOn, .atPowerOn, .atPowerOn, .atPowerOn⟩
  fx := ⟨false, false, 0⟩
  freed := 0

/-- The parameters of the machine that `State.reset` describes (log 4): the values the spec's own vectors use where
it has any, and its defaults for the OPEN functions. No statement rests on them. -/
def paramsOfVectors : Params where
  hbufWords := 1048576
  kramWords := 65536
  nAaf := 3
  eps := 0x3A800000#32
  kLen := 8
  kInc := 0x3E800000#32
  nPhases := 4
  lfoBounds := .constant 0x40000000#32 0x40C00000#32
  lfoLaw := .specDefault
  lpf := .specDefault
  phaseSel := .specDefault
  svf := .specDefault

/-- The machine right after power-on (rule R190). -/
def State.reset : State := .powerOn paramsOfVectors

end Sys2Proof.Machine
end

