-- ==== Sys2Proof/Machine/Flags.lean ====
section
/-!
DEFINITION. The one-bit flags of rule R22 and the STATUS word that displays them (rule R23).
-/

namespace Sys2Proof.Machine

/-- The 4-bit code of a cause (rule R171). -/
def causeCode : Cause → BitVec 4
  | .illegalCmd => 1
  | .notConstructed => 2
  | .badConfig => 3
  | .badLength => 4
  | .viewState => 5
  | .range => 6
  | .badParam => 7
  | .badMode => 8
  | .badInstance => 9

/-- `LFO.ov`: `LFO.output` is `Some` (rule R22). -/
def State.lfoOv (s : State) : Bool := s.lfo.output.isSome

/-- Filter instance `k`; only k = 0..3 exist (rule R23). -/
def AafBank.get (b : AafBank) : Nat → Aaf
  | 0 => b.f0
  | 1 => b.f1
  | 2 => b.f2
  | _ => b.f3

/-- The bank with instance `k` replaced. -/
def AafBank.set (b : AafBank) (k : Nat) (f : Aaf) : AafBank :=
  match k with
  | 0 => { b with f0 := f }
  | 1 => { b with f1 := f }
  | 2 => { b with f2 := f }
  | _ => { b with f3 := f }

/-- `AAF[k].gv`: `AAF[k].g` is `Some` (rule R22). -/
def State.aafGv (s : State) (k : Nat) : Bool := (s.aaf.get k).g.isSome

/-- A flag at a bit position of STATUS. -/
def statusBit (b : Bool) (position : Nat) : Word := if b then BitVec.ofNat 32 (2 ^ position) else 0#32

/-- The STATUS word (rule R23): a display of the flags, with bits 7:5 and 31:25 zero. -/
def State.status (s : State) : Word :=
  statusBit s.fault 0 ||| (s.cause.setWidth 32 <<< 1) |||
  statusBit s.lfo.c 8 ||| statusBit s.lfoOv 9 |||
  statusBit s.hb.c 10 ||| statusBit s.hb.view 11 |||
  statusBit s.pk.kv 12 ||| statusBit s.pk.sv 13 |||
  statusBit s.cmp.c 14 ||| statusBit s.fx.c 15 ||| statusBit s.fx.run 16 |||
  statusBit s.aaf.f0.c 17 ||| statusBit s.aaf.f1.c 18 ||| statusBit s.aaf.f2.c 19 ||| statusBit s.aaf.f3.c 20 |||
  statusBit (s.aafGv 0) 21 ||| statusBit (s.aafGv 1) 22 ||| statusBit (s.aafGv 2) 23 ||| statusBit (s.aafGv 3) 24

end Sys2Proof.Machine
end

