-- ==== Sys2Proof/Machine/Float.lean ====
section
/-!
DEFINITION. IEEE-754 binary32 as rule R11 and decisions D8 to D10 use it: each operation one rounding to nearest, ties to
even, subnormals kept, comparisons false on NaN (log 14 says what is IEEE-754's and not the spec's own words).
A finite value is held exactly, as an integer number of units of 2^-149, the least positive binary32 value.
-/

namespace Sys2Proof

/-! ## Fields and classes -/

/-- The sign bit, bit 31 (rule R10). -/
def F32.neg? (w : F32) : Bool := w.msb

/-- Exponent and fraction, bits 30:0 (rule R10): they order the magnitudes. -/
def F32.mag (w : F32) : Nat := w.toNat % 2 ^ 31

/-- The magnitude field of +∞. -/
def F32.infMag : Nat := 0x7F800000

def F32.isNaN (w : F32) : Bool := F32.infMag < F32.mag w

def F32.isInf (w : F32) : Bool := F32.mag w == F32.infMag

def F32.isFinite (w : F32) : Bool := F32.mag w < F32.infMag

/-- The value with this sign and magnitude field. -/
def F32.pack (neg : Bool) (mag : Nat) : F32 := BitVec.ofNat 32 ((if neg then 2 ^ 31 else 0) + mag)

/-! ## Exact values -/

/-- One in units of 2^-149. -/
def F32.unit : Nat := 2 ^ 149

/-- The magnitude a magnitude field stands for, in units of 2^-149 (exponent bits 30:23, fraction bits 22:0). -/
def F32.unitsOfMag (mag : Nat) : Nat :=
  if mag < 2 ^ 23 then mag else (2 ^ 23 + mag % 2 ^ 23) * 2 ^ (mag / 2 ^ 23 - 1)

/-- |w| in units of 2^-149, for a finite `w`. -/
def F32.units (w : F32) : Nat := F32.unitsOfMag (F32.mag w)

/-- The value of a finite `w` in units of 2^-149. -/
def F32.value (w : F32) : Int := if F32.neg? w then -(F32.units w : Int) else F32.units w

/-- The greatest integer not above a finite `w` ≥ 0 (`floor`, rule R11). -/
def F32.floorNat (w : F32) : Nat := F32.units w / F32.unit

/-- The greatest integer not above a finite `w` of either sign (`floor`, rule R11). Rule R11 defines none for another
`w`: there it is a free value (log 23). -/
def F32.floor (w : F32) : Int :=
  if F32.isFinite w then F32.value w / F32.unit else Config.floorOfNonFinite w

/-! ## Rounding -/

/-- The magnitude field of `num/den` units rounded to nearest, ties to even (D8); overflow gives infinity. -/
def F32.roundMag (num den : Nat) : Nat :=
  let shift := Nat.log2 (num / den) - 23
  let step := den * 2 ^ shift
  let q := num / step
  let r := num % step
  let up := if step < 2 * r ∨ (2 * r = step ∧ q % 2 = 1) then 1 else 0
  min (shift * 2 ^ 23 + q + up) F32.infMag

/-- The nearest binary32 of the rational `num/den` ≥ 0 (`f32(c)`, rule R11). -/
def F32.ofRat (num den : Nat) : F32 := F32.pack false (F32.roundMag (num * F32.unit) den)

/-- `i2f(n)` (rule R11). -/
def F32.ofNat (n : Nat) : F32 := F32.ofRat n 1

/-- An integer number of units, rounded; `zeroNeg` is the sign of an exact zero. -/
def F32.ofUnits (v : Int) (zeroNeg : Bool) : F32 :=
  if v = 0 then F32.pack zeroNeg 0 else F32.pack (decide (v < 0)) (F32.roundMag v.natAbs 1)

/-! ## Operations -/

/-- The NaN an operation makes: a quiet NaN whose sign and payload are a free value (93 X6; log 8). -/
def F32.madeNaN (op : FloatOp) (a b : F32) : F32 :=
  (Config.nanBits op a b &&& 0x803FFFFF#32) ||| 0x7FC00000#32

/-- `-a`: the sign bit inverted. -/
def F32.neg (a : F32) : F32 := a ^^^ 0x80000000#32

/-- `abs(a)`: the sign bit cleared. -/
def F32.abs (a : F32) : F32 := a &&& 0x7FFFFFFF#32

/-- The sum of two values that are not NaN; `nan` is the answer for ∞ + (-∞). -/
def F32.addCore (a b nan : F32) : F32 :=
  if F32.isInf a then if F32.isInf b ∧ F32.neg? a ≠ F32.neg? b then nan else a
  else if F32.isInf b then b
  else F32.ofUnits (F32.value a + F32.value b) (F32.neg? a && F32.neg? b)

/-- `a + b`. -/
def F32.add (a b : F32) : F32 :=
  if F32.isNaN a ∨ F32.isNaN b then F32.madeNaN .add a b else F32.addCore a b (F32.madeNaN .add a b)

/-- `a - b`, the sum of `a` and `-b`. -/
def F32.sub (a b : F32) : F32 :=
  if F32.isNaN a ∨ F32.isNaN b then F32.madeNaN .sub a b else F32.addCore a (F32.neg b) (F32.madeNaN .sub a b)

/-- `a * b`. -/
def F32.mul (a b : F32) : F32 :=
  let sign := F32.neg? a ^^ F32.neg? b
  if F32.isNaN a ∨ F32.isNaN b then F32.madeNaN .mul a b
  else if F32.isInf a ∨ F32.isInf b then
    if F32.mag a = 0 ∨ F32.mag b = 0 then F32.madeNaN .mul a b else F32.pack sign F32.infMag
  else F32.pack sign (F32.roundMag (F32.units a * F32.units b) F32.unit)

/-- `a / b`. Division of a non-zero value by zero gives infinity (rule R175). -/
def F32.div (a b : F32) : F32 :=
  let sign := F32.neg? a ^^ F32.neg? b
  if F32.isNaN a ∨ F32.isNaN b then F32.madeNaN .div a b
  else if F32.isInf a then if F32.isInf b then F32.madeNaN .div a b else F32.pack sign F32.infMag
  else if F32.isInf b then F32.pack sign 0
  else if F32.mag b = 0 then
    if F32.mag a = 0 then F32.madeNaN .div a b else F32.pack sign F32.infMag
  else F32.pack sign (F32.roundMag (F32.units a * F32.unit) (F32.units b))

/-! ## Comparisons, false on NaN (D8) -/

/-- The signed magnitude field: it orders all values but NaN, infinities included, with -0 equal to +0. -/
def F32.order (w : F32) : Int := if F32.neg? w then -(F32.mag w : Int) else F32.mag w

/-- `a < b`. -/
def F32.lt (a b : F32) : Bool := !F32.isNaN a && !F32.isNaN b && decide (F32.order a < F32.order b)

/-- `a ≤ b`. -/
def F32.le (a b : F32) : Bool := !F32.isNaN a && !F32.isNaN b && decide (F32.order a ≤ F32.order b)

/-- `a = b` as numbers. -/
def F32.eq (a b : F32) : Bool := !F32.isNaN a && !F32.isNaN b && decide (F32.order a = F32.order b)

/-! ## Constants (rules R7, R11; D9) -/

def F32.zero : F32 := 0x00000000#32
def F32.one : F32 := 0x3F800000#32
def F32.half : F32 := 0x3F000000#32
def F32.quarter : F32 := 0x3E800000#32
def F32.two : F32 := 0x40000000#32
def F32.hundred : F32 := 0x42C80000#32

/-- `-1.0`. -/
def F32.minusOne : F32 := 0xBF800000#32

/-- `PI` (rule R11). -/
def F32.pi : F32 := 0x40490FDB#32

end Sys2Proof
end

