-- ==== Sys2Proof/Machine/Operands.lean ====
section
/-!
DEFINITION. The operand forms of rule R71 and the ranges their rules check.
-/

namespace Sys2Proof.Machine

/-- A u32 count or index, a mathematical integer (rules R11, R57). -/
def countOf (w : Word) : Nat := w.toNat

/-- A count fits its u32 register: it "is at most 2^32 - 1" (rules R24, R57). Every operand word does; a machine's
parameter, or a sum of them, may not (log 16). -/
def isCount (n : Nat) : Bool := decide (n < 2 ^ 32)

/-- A bool word is 0 or 1 (rule R71). -/
def isBoolWord (w : Word) : Bool := w == 0#32 || w == 1#32

/-- Finite and > 0: `fs` and `increment` (rules R110, R130, R145, R155). -/
def isPositive (w : F32) : Bool := F32.isFinite w && F32.lt F32.zero w

/-- Finite and ≥ 0: `incr` and `delay` (rules R91, R120). -/
def isNonNegative (w : F32) : Bool := F32.isFinite w && F32.le F32.zero w

/-- Finite and in [0, 100]: `depth` and `mix` (rules R91, R160). -/
def isPercent (w : F32) : Bool := F32.isFinite w && F32.le F32.zero w && F32.le w F32.hundred

/-- `RATE_MIN` = f32(0.08) (rules R7, R160). -/
def rateMin : F32 := F32.ofRat 8 100

/-- `RATE_MAX` = f32(10.1) (rules R7, R160). -/
def rateMax : F32 := F32.ofRat 101 10

/-- Finite and in [0.08, 10.1]: `rate` (rule R160). -/
def isRate (w : F32) : Bool := F32.isFinite w && F32.le rateMin w && F32.le w rateMax

/-- The delay bounds of `LFO.NEW`: finite, `min ≥ 0`, `min < max` (rule R90). -/
def isDelayBounds (lo hi : F32) : Bool :=
  F32.isFinite lo && F32.isFinite hi && F32.le F32.zero lo && F32.lt lo hi

/-- `max_block` is 1..65535 (rules R100, R155). -/
def isBlockLength (n : Nat) : Bool := decide (1 ≤ n) && decide (n ≤ 65535)

/-- A parameter tuple is in range (rule R160). -/
def isInRange (p : ParamSample) : Bool :=
  isRate p.rate && isPercent p.depth && isPercent p.mix && isBoolWord p.bypass

end Sys2Proof.Machine
end

