-- ==== Sys2Proof/Machine/Ops.lean ====
section
/-!
DEFINITION. The shared operations: the three memories (rules R50 to R57), the course of an operation, taking a fault
(rule R172), and running one command.
-/

namespace Sys2Proof.Machine

/-! ## One memory -/

/-- The word at an index. A word not listed reads +0.0 (log 2). -/
def Mem.read : Mem → Nat → Word
  | [], _ => 0#32
  | (b, w) :: rest, a => if a = b then w else Mem.read rest a

/-- Writing one word keeps the indices rising and lists no +0.0. -/
def Mem.write : Mem → Nat → Word → Mem
  | [], a, v => if v = 0#32 then [] else [(a, v)]
  | (b, w) :: rest, a, v =>
    if a < b then (if v = 0#32 then (b, w) :: rest else (a, v) :: (b, w) :: rest)
    else if a = b then (if v = 0#32 then rest else (a, v) :: rest)
    else (b, w) :: Mem.write rest a v

/-- The words of a list written at `a`, `a+1`, ... (`MemWrite`, rule R11). -/
def Mem.writeList : Mem → Nat → List Word → Mem
  | m, _, [] => m
  | m, a, v :: vs => Mem.writeList (Mem.write m a v) (a + 1) vs

/-- The words at `a .. a+n-1` (`MemRead`, rule R11). -/
def Mem.readList (m : Mem) (a n : Nat) : List Word := (List.range' a n).map (Mem.read m)

/-- +0.0 written to the words 0 .. n-1. -/
def Mem.zeroFill (m : Mem) (n : Nat) : Mem := m.filter fun cell => n ≤ cell.1

/-- `for t in 0 .. n-1 (ascending): m[t] <- m[t + len]` (rule R104). -/
def Mem.copyDown (m : Mem) (len : Nat) : Nat → Mem
  | 0 => m
  | t + 1 =>
    let before := Mem.copyDown m len t
    Mem.write before t (Mem.read before (t + len))

/-- The canonical form: indices strictly rising, no +0.0 listed. -/
def Mem.wf : Mem → Bool
  | [] => true
  | (a, w) :: rest => decide (w ≠ 0#32) && rest.all (fun cell => decide (a < cell.1)) && Mem.wf rest

/-! ## The course of an operation -/

/-- How an operation goes on: it completes with a result, it raises a fault with the state it leaves, or the model
stops. -/
inductive Res (α : Type) where
  | ok (result : α) (s : State)
  | trap (c : Cause) (s : State)
  | stop (f : Fault)
  deriving DecidableEq, Repr

/-- One operation after another. -/
def Res.bind {α β : Type} (r : Res α) (k : α → State → Res β) : Res β :=
  match r with
  | .ok a s => k a s
  | .trap c s => .trap c s
  | .stop f => .stop f

/-- `MemRead` of a space: `n` words at word index `a`. A word above the physical size does not exist (rule R50). -/
def memRead (space : Space) (a n : Nat) (s : State) : Res (List Word) :=
  match space with
  | .hbuf => if a + n ≤ s.cfg.hbufWords then .ok (s.hbuf.readList a n) s else .stop (.noSuchWord .hbuf (a + n - 1))
  | .kram => if a + n ≤ s.cfg.kramWords then .ok (s.kram.readList a n) s else .stop (.noSuchWord .kram (a + n - 1))
  | .pram => if a + n ≤ s.cfg.kramWords then .ok (s.pram.readList a n) s else .stop (.noSuchWord .pram (a + n - 1))

/-- `MemWrite` of a space: the words `ws` at word index `a`. -/
def memWrite (space : Space) (a : Nat) (ws : List Word) (s : State) : Res Unit :=
  match space with
  | .hbuf =>
    if a + ws.length ≤ s.cfg.hbufWords then .ok () { s with hbuf := s.hbuf.writeList a ws }
    else .stop (.noSuchWord .hbuf (a + ws.length - 1))
  | .kram =>
    if a + ws.length ≤ s.cfg.kramWords then .ok () { s with kram := s.kram.writeList a ws }
    else .stop (.noSuchWord .kram (a + ws.length - 1))
  | .pram =>
    if a + ws.length ≤ s.cfg.kramWords then .ok () { s with pram := s.pram.writeList a ws }
    else .stop (.noSuchWord .pram (a + ws.length - 1))

/-! ## Faults -/

/-- The response packet of a command (rule R70). -/
def State.respond (s : State) (ws : List Word) : State := { s with resp := ws }

/-- Taking a fault: `FAULT` and `CAUSE` record it unless one is recorded already, and there are no result words
(rule R172 items 1 and 2). -/
def State.raise (s : State) (c : Cause) : State :=
  if s.fault then s.respond []
  else { s with fault := true, cause := causeCode c, resp := [] }

/-- A free value for `LFO.phase`: any value in [0, 1) (rule R25). -/
def phaseOrZero (w : F32) : F32 := if F32.le F32.zero w && F32.lt w F32.one then w else F32.zero

/-- Free values for the state variables of an instance. -/
def unspecAaf (draw slot : Nat) (f : Aaf) : Aaf :=
  { f with
    stage0 := ⟨Config.unspecReg draw slot, Config.unspecReg draw (slot + 1)⟩
    stage1 := ⟨Config.unspecReg draw (slot + 2), Config.unspecReg draw (slot + 3)⟩ }

/-- The datapath registers and HBUF unspecified: after a constituent's fault part-way through a chain operation they
hold free values (rules R158, R172 item 3; 93 X3; log 12). Flags, configuration registers, KRAM and PRAM keep what
the earlier constituents wrote. -/
def State.unspecified (s : State) : State :=
  { s with
    lfo := { s.lfo with
      phase := phaseOrZero (Config.unspecReg s.freed 0)
      output := s.lfo.output.map fun _ => Config.unspecReg s.freed 1 }
    hb := { s.hb with len := Config.unspecLen s.freed % (s.hb.maxBlock + 1) }
    hbuf := s.hbuf.writeList 0
      ((List.range (min (s.hb.lookBehind + s.hb.maxBlock) s.cfg.hbufWords)).map (Config.unspecHbuf s.freed))
    cmp := { s.cmp with env := Config.unspecReg s.freed 2 }
    aaf := ⟨unspecAaf s.freed 4 s.aaf.f0, unspecAaf s.freed 8 s.aaf.f1,
            unspecAaf s.freed 12 s.aaf.f2, unspecAaf s.freed 16 s.aaf.f3⟩
    freed := s.freed + 1 }

/-- A chain operation's constituents: `whole` runs them all, `first` is the first of them run alone. A fault of the
first is precise; after it, a fault leaves unspecified state (rule R170, rule R172 item 3). -/
def chain {α β : Type} (first : Res α) (whole : Res β) : Res β :=
  match first, whole with
  | .trap _ _, r => r
  | _, .trap c s => .trap c s.unspecified
  | _, r => r

/-! ## One command -/

/-- Running one command: a faulted block refuses it, which changes nothing and answers nothing (rule R172 item 4);
otherwise its result words are the response, or its fault is taken. -/
def command {α : Type} (words : α → List Word) (op : State → Res α) (s : State) : Host.Outcome State Fault Refusal :=
  if s.fault then .next (s.respond [])
  else
    match op s with
    | .ok a t => .next (t.respond (words a))
    | .trap c t => .next (t.raise c)
    | .stop f => .fault f

/-- No result words. -/
def noWords : Unit → List Word := fun _ => []

/-- One result word. -/
def oneWord : Word → List Word := fun w => [w]

/-- The command of an illegal header: `Fault(ILLEGAL_CMD)` (rule R75). -/
def illegalCommand (s : State) : Host.Outcome State Fault Refusal :=
  command noWords (fun t => .trap .illegalCmd t) s

end Sys2Proof.Machine
end

