-- ==== Sys2Proof/Machine/AntiAliasing.lean ====
section
/-!
DEFINITION. AAF.NEW, AAF.STEP, AAF.RESET: the cascaded state-variable filter pairs (46_antialiasing.md).
-/

namespace Sys2Proof.Machine

/-- `AAF_CUTOFF` = 10000 Hz (rule R7). -/
def aafCutoff : F32 := F32.ofNat 10000

/-- The disable threshold `2.2 * 10000.0` (rules R7, R145). -/
def aafThreshold : F32 := F32.mul (F32.ofRat 22 10) aafCutoff

/-- `AAF_K0` = f32(2·cos(3π/8)), the damping of stage 0 (rules R7, R146). -/
def aafK0 : F32 := 0x3F43EF15#32

/-- `AAF_K1` = f32(2·cos(π/8)), the damping of stage 1 (rules R7, R146). -/
def aafK1 : F32 := 0x3FEC835E#32

/-- `G_FN(fc, fs)`, by default `TAN((PI * fc) / fs)` (rule R148). -/
def svfCoefficient (law : Law) (fc fs : F32) : F32 :=
  match law with
  | .specDefault => Config.tan (F32.div (F32.mul F32.pi fc) fs)
  | .replaced => Config.svfG fc fs

/-- The default recursion: the trapezoidal state-variable form (rule R148). -/
def defaultSvf (g k s0 s1 x : F32) : F32 × F32 × F32 :=
  let gk := F32.add g k
  let d := F32.div F32.one (F32.add F32.one (F32.mul g gk))
  let hp := F32.mul (F32.sub (F32.sub x (F32.mul gk s0)) s1) d
  let v1 := F32.mul g hp
  let bp := F32.add v1 s0
  let v2 := F32.mul g bp
  let lp := F32.add v2 s1
  (F32.add bp v1, F32.add lp v2, lp)

/-- `SVF_FN(g, k, s0, s1, x)` = `(s0', s1', y)`; every replacement has `SVF_FN(0, k, 0, 0, 0) = (0, 0, 0)`
(rule R148; log 7). -/
def svf (law : Law) (g k s0 s1 x : F32) : F32 × F32 × F32 :=
  match law with
  | .specDefault => defaultSvf g k s0 s1 x
  | .replaced =>
    if g = F32.zero ∧ s0 = F32.zero ∧ s1 = F32.zero ∧ x = F32.zero then (F32.zero, F32.zero, F32.zero)
    else Config.svf g k s0 s1 x

/-- A stage with both state variables +0.0. -/
def zeroStage : Stage := ⟨F32.zero, F32.zero⟩

/-- One stage: its state afterwards and its lowpass output; without `g` the input is forced to +0.0 and the
coefficient to 0.0 (rule R146). -/
def stageStep (law : Law) (g : Option F32) (damping : F32) (st : Stage) (input : F32) : Stage × F32 :=
  let x := if g.isNone then F32.zero else input
  let r := svf law (g.getD F32.zero) damping st.s0 st.s1 x
  (⟨r.1, r.2.1⟩, r.2.2)

/-- The two stages of an instance in cascade (rule R146). -/
def aafFilter (law : Law) (f : Aaf) (x : F32) : Aaf × F32 :=
  let first := stageStep law f.g aafK0 f.stage0 x
  let second := stageStep law f.g aafK1 f.stage1 first.2
  ({ f with stage0 := first.1, stage1 := second.1 }, second.2)

/-- The operation AAF.NEW.k (rule R145). -/
def aafNew (k : Nat) (fs : F32) (s : State) : Res Unit :=
  if s.cfg.nAaf.val ≤ k then .trap .badInstance s
  else if !isPositive fs then .trap .badConfig s
  else
    let g := if F32.le fs aafThreshold then none else some (svfCoefficient s.cfg.svf aafCutoff fs)
    .ok () { s with aaf := s.aaf.set k { c := true, g := g, stage0 := zeroStage, stage1 := zeroStage } }

/-- The operation AAF.STEP.k (rule R146). -/
def aafStep (k : Nat) (x : F32) (s : State) : Res F32 :=
  if s.cfg.nAaf.val ≤ k then .trap .badInstance s
  else if !(s.aaf.get k).c then .trap .notConstructed s
  else
    let r := aafFilter s.cfg.svf (s.aaf.get k) x
    .ok r.2 { s with aaf := s.aaf.set k r.1 }

/-- The operation AAF.RESET.k (rule R147). -/
def aafReset (k : Nat) (s : State) : Res Unit :=
  if s.cfg.nAaf.val ≤ k then .trap .badInstance s
  else if !(s.aaf.get k).c then .trap .notConstructed s
  else .ok () { s with aaf := s.aaf.set k { s.aaf.get k with stage0 := zeroStage, stage1 := zeroStage } }

/-- AAF.NEW.k (rule R145). -/
def execAafNew (k : BitVec 8) (fs : F32) (s : State) : Host.Outcome State Fault Refusal :=
  command noWords (aafNew k.toNat fs) s

/-- AAF.STEP.k (rule R146). -/
def execAafStep (k : BitVec 8) (x : F32) (s : State) : Host.Outcome State Fault Refusal :=
  command oneWord (aafStep k.toNat x) s

/-- AAF.RESET.k (rule R147). -/
def execAafReset (k : BitVec 8) (s : State) : Host.Outcome State Fault Refusal :=
  command noWords (aafReset k.toNat) s

end Sys2Proof.Machine
end

