-- ==== Sys2Proof/Machine/Compander.lean ====
section
/-!
DEFINITION. CMP.NEW, CMP.DETECT, CMP.RESET, CMP.COMPRESS, CMP.EXPAND: the envelope follower and the compander
(44_compander.md).
-/

namespace Sys2Proof.Machine

/-- `TAU_REL` = f32(0.010) seconds (rules R7, R130). -/
def tauRelease : F32 := F32.ofRat 10 1000

/-- `TAU_ATT` = `TAU_REL / 20.0` (rules R7, R130). -/
def tauAttack : F32 := F32.div tauRelease (F32.ofNat 20)

/-- The coefficient of a time constant: `1.0 - EXP((-1.0) / (tau * fs))` (rule R130, D25). -/
def onePole (tau fs : F32) : F32 :=
  F32.sub F32.one (Config.exp (F32.div F32.minusOne (F32.mul tau fs)))

/-- The operation CMP.NEW (rule R130). -/
def cmpNew (fs : F32) (s : State) : Res Unit :=
  if !isPositive fs then .trap .badConfig s
  else .ok () { s with
    cmp := { c := true, attack := onePole tauAttack fs, release := onePole tauRelease fs, env := F32.one } }

/-- The envelope after a sample: it moves toward `|x|`, by the attack coefficient when rising (rule R131). -/
def envelopeAfter (cmp : Cmp) (x : F32) : F32 :=
  let r := F32.abs x
  let c := if F32.lt cmp.env r then cmp.attack else cmp.release
  F32.add cmp.env (F32.mul c (F32.sub r cmp.env))

/-- The operation CMP.DETECT (rule R131). -/
def cmpDetect (x : F32) (s : State) : Res F32 :=
  if !s.cmp.c then .trap .notConstructed s
  else .ok (envelopeAfter s.cmp x) { s with cmp := { s.cmp with env := envelopeAfter s.cmp x } }

/-- The operation CMP.RESET (rule R132). -/
def cmpReset (s : State) : Res Unit :=
  if !s.cmp.c then .trap .notConstructed s
  else .ok () { s with cmp := { s.cmp with env := F32.one } }

/-- The operation CMP.COMPRESS: `(signal + EPS) / (level + EPS)` (rule R133). -/
def cmpCompress (signal level : F32) (s : State) : Res F32 :=
  .ok (F32.div (F32.add signal s.cfg.eps) (F32.add level s.cfg.eps)) s

/-- The operation CMP.EXPAND: `signal * level` (rule R134). -/
def cmpExpand (signal level : F32) (s : State) : Res F32 :=
  .ok (F32.mul signal level) s

/-- CMP.NEW (rule R130). -/
def execCmpNew (fs : F32) (s : State) : Host.Outcome State Fault Refusal :=
  command noWords (cmpNew fs) s

/-- CMP.DETECT (rule R131). -/
def execCmpDetect (x : F32) (s : State) : Host.Outcome State Fault Refusal :=
  command oneWord (cmpDetect x) s

/-- CMP.RESET (rule R132). -/
def execCmpReset (s : State) : Host.Outcome State Fault Refusal :=
  command noWords cmpReset s

/-- CMP.COMPRESS (rule R133). -/
def execCmpCompress (signal level : F32) (s : State) : Host.Outcome State Fault Refusal :=
  command oneWord (cmpCompress signal level) s

/-- CMP.EXPAND (rule R134). -/
def execCmpExpand (signal level : F32) (s : State) : Host.Outcome State Fault Refusal :=
  command oneWord (cmpExpand signal level) s

end Sys2Proof.Machine
end

