-- ==== Sys2Proof/Machine/DelayLine.lean ====
section
/-!
DEFINITION. DL.READ: the phase selector and the fractional-delay read (43_delay_line.md).
-/

namespace Sys2Proof.Machine

/-- The default `PHASE_SEL`: window offset `back` and phase `p` (rule R121). -/
def defaultPhaseSel (delay : F32) (n m : Nat) : Int × Nat :=
  let whole := F32.floorNat delay
  let f := F32.sub delay (F32.ofNat whole)
  let r := min (F32.floorNat (F32.mul f (F32.ofNat n))) (n - 1)
  let h := m / 2
  if r = 0 then ((whole : Int) - h, 0) else ((whole : Int) + 1 - h, n - r)

/-- `PHASE_SEL(delay, N, M)`; a replacement's phase is taken in 0..N-1 (rules R120, R121; log 7). -/
def phaseSel (law : Law) (delay : F32) (n m : Nat) : Int × Nat :=
  match law with
  | .specDefault => defaultPhaseSel delay n m
  | .replaced => (Config.phaseBack delay n m, Config.phaseIndex delay n m % n)

/-- The dot product: from +0.0, ascending, one multiply and one add per tap (rule R120, D24). -/
def dotProduct (taps window : List F32) : F32 :=
  (List.zip taps window).foldl (fun acc tx => F32.add acc (F32.mul tx.1 tx.2)) F32.zero

/-- The operation DL.READ (rule R120). -/
def dlRead (i : Nat) (delay : F32) (s : State) : Res F32 :=
  if !(s.hb.c && s.pk.sv) then .trap .notConstructed s
  else if !s.hb.view then .trap .viewState s
  else if s.hb.len ≤ i then .trap .range s
  else if !isNonNegative delay then .trap .badParam s
  else
    let sel := phaseSel s.cfg.phaseSel delay s.pk.nPhases s.pk.m
    let a : Int := (s.hb.lookBehind : Int) + i - sel.1
    let start : Int := a - s.pk.m + 1
    if start < 0 ∨ a > (s.hb.lookBehind : Int) + s.hb.len - 1 then .trap .range s
    else
      (memRead .pram (sel.2 * s.pk.m) s.pk.m s).bind fun taps t =>
      (memRead .hbuf start.toNat s.pk.m t).bind fun window u =>
        .ok (dotProduct taps window) u

/-- DL.READ (rule R120). -/
def execDlRead (i : Word) (delay : F32) (s : State) : Host.Outcome State Fault Refusal :=
  command oneWord (dlRead (countOf i) delay) s

end Sys2Proof.Machine
end

