-- ==== Sys2Proof/Machine/HistoryBuffer.lean ====
section
/-!
DEFINITION. HB.NEW, HB.PROCESS, HB.VIEW, HB.READ, HB.RELEASE, HB.RESET: the history buffer (41_history_buffer.md).
-/

namespace Sys2Proof.Machine

/-- +0.0 in the words 0 .. n-1 of HBUF. -/
def hbufZero (n : Nat) (s : State) : Res Unit :=
  if n ≤ s.cfg.hbufWords then .ok () { s with hbuf := s.hbuf.zeroFill n }
  else .stop (.noSuchWord .hbuf (n - 1))

/-- The operation HB.NEW (rule R100); its look-behind is a u32 (rules R24, R57). -/
def hbNew (lookBehind maxBlock : Nat) (s : State) : Res Unit :=
  if !(isCount lookBehind && isBlockLength maxBlock && decide (lookBehind + maxBlock ≤ s.cfg.hbufWords)) then .trap .badConfig s
  else
    .ok () { s with
      hb := { c := true, view := false, lookBehind := lookBehind, maxBlock := maxBlock, len := 0 }
      hbuf := s.hbuf.zeroFill (lookBehind + maxBlock) }

/-- The operation HB.PROCESS (rule R101). -/
def hbProcess (samples : List F32) (s : State) : Res Unit :=
  if !s.hb.c then .trap .notConstructed s
  else if s.hb.maxBlock < samples.length then .trap .badLength s
  else if s.hb.view then .trap .viewState s
  else (memWrite .hbuf s.hb.lookBehind samples s).bind fun _ t =>
    .ok () { t with hb := { t.hb with len := samples.length, view := true } }

/-- The operation HB.VIEW (rule R102). -/
def hbView (s : State) : Res (List F32) :=
  if !s.hb.c then .trap .notConstructed s
  else if !s.hb.view then .trap .viewState s
  else memRead .hbuf 0 (s.hb.lookBehind + s.hb.len) s

/-- The operation HB.READ (rule R103). -/
def hbRead (start count : Nat) (s : State) : Res (List F32) :=
  if !s.hb.c then .trap .notConstructed s
  else if !s.hb.view then .trap .viewState s
  else if s.hb.lookBehind + s.hb.len < start + count then .trap .range s
  else memRead .hbuf start count s

/-- The operation HB.RELEASE: the ascending copy-back, then the view is closed (rule R104). -/
def hbRelease (s : State) : Res Unit :=
  if !s.hb.c then .trap .notConstructed s
  else if !s.hb.view then .trap .viewState s
  else if s.hb.lookBehind + s.hb.len ≤ s.cfg.hbufWords then
    .ok () { s with
      hbuf := s.hbuf.copyDown s.hb.len s.hb.lookBehind
      hb := { s.hb with view := false } }
  else .stop (.noSuchWord .hbuf (s.hb.lookBehind + s.hb.len - 1))

/-- The operation HB.RESET (rule R105). -/
def hbReset (s : State) : Res Unit :=
  if !s.hb.c then .trap .notConstructed s
  else if s.hb.view then .trap .viewState s
  else hbufZero (s.hb.lookBehind + s.hb.maxBlock) s

/-- HB.NEW (rule R100). -/
def execHbNew (lookBehind maxBlock : Word) (s : State) : Host.Outcome State Fault Refusal :=
  command noWords (hbNew (countOf lookBehind) (countOf maxBlock)) s

/-- HB.PROCESS (rule R101). -/
def execHbProcess (samples : List F32) (s : State) : Host.Outcome State Fault Refusal :=
  command noWords (hbProcess samples) s

/-- HB.VIEW (rule R102). -/
def execHbView (s : State) : Host.Outcome State Fault Refusal :=
  command id hbView s

/-- HB.READ (rule R103). -/
def execHbRead (start count : Word) (s : State) : Host.Outcome State Fault Refusal :=
  command id (hbRead (countOf start) (countOf count)) s

/-- HB.RELEASE (rule R104). -/
def execHbRelease (s : State) : Host.Outcome State Fault Refusal :=
  command noWords hbRelease s

/-- HB.RESET (rule R105). -/
def execHbReset (s : State) : Host.Outcome State Fault Refusal :=
  command noWords hbReset s

end Sys2Proof.Machine
end

