-- ==== Sys2Proof/Machine/Kernel.lean ====
section
/-!
DEFINITION. PK.LPF, PK.LOADK, PK.SPLIT: the window kernel and the polyphase store (42_kernel.md).
-/

namespace Sys2Proof.Machine

/-- The default kernel's sinc at argument `x` (rule R115). -/
def sincAt (x : F32) : F32 :=
  if F32.eq x F32.zero then F32.one else F32.div (Config.sin (F32.mul F32.pi x)) (F32.mul F32.pi x)

/-- `c * COS((a * PI) * u)`, one term of the window (rule R115). -/
def windowTerm (c a u : F32) : F32 := F32.mul c (Config.cos (F32.mul (F32.mul a F32.pi) u))

/-- The four-term Blackman–Harris window at position `u` (rule R115). -/
def windowAt (u : F32) : F32 :=
  F32.sub
    (F32.add
      (F32.sub (F32.ofRat 35875 100000) (windowTerm (F32.ofRat 48829 100000) F32.two u))
      (windowTerm (F32.ofRat 14128 100000) (F32.ofNat 4) u))
    (windowTerm (F32.ofRat 1168 100000) (F32.ofNat 6) u)

/-- Tap `i` of the default `LPF_FN` (rule R115). -/
def defaultTap (length : Nat) (increment : F32) (i : Nat) : F32 :=
  let t := F32.sub (F32.ofNat i) (F32.mul (F32.ofNat length) F32.half)
  F32.mul (sincAt (F32.mul increment t)) (windowAt (F32.div (F32.ofNat i) (F32.ofNat length)))

/-- `LPF_FN(length, increment)`, a list of `length` taps (rules R110, R115). -/
def lpfTaps (law : Law) (length : Nat) (increment : F32) : List F32 :=
  match law with
  | .specDefault => (List.range length).map (defaultTap length increment)
  | .replaced => (List.range length).map (Config.lpfTap length increment)

/-- A kernel written to KRAM: the split no longer matches it (rules R110 to R112). -/
def loadKernel (taps : List F32) (s : State) : Res Unit :=
  (memWrite .kram 0 taps s).bind fun _ t =>
    .ok () { t with pk := { t.pk with kLen := taps.length, kv := true, sv := false } }

/-- A kernel length is 1..`KRAM_WORDS` and a u32 (rules R24, R110, R111). -/
def isKernelLength (s : State) (n : Nat) : Bool := isCount n && decide (1 ≤ n) && decide (n ≤ s.cfg.kramWords)

/-- The operation PK.LPF (rule R110). -/
def pkLpf (length : Nat) (increment : F32) (s : State) : Res Unit :=
  if !(isKernelLength s length && isPositive increment) then .trap .badConfig s
  else loadKernel (lpfTaps s.cfg.lpf length increment) s

/-- The operation PK.LOADK (rule R111). -/
def pkLoadk (taps : List F32) (s : State) : Res Unit :=
  if !isKernelLength s taps.length then .trap .badConfig s
  else loadKernel taps s

/-- The phases back to back: for p in 0..N-1, for j in 0..M-1, the tap `(M-1-j)*N + p` (rules R52, R113). -/
def splitTaps (kernel : List F32) (n m : Nat) : List F32 :=
  (List.range n).flatMap fun p => (List.range m).map fun j => kernel.getD ((m - 1 - j) * n + p) 0#32

/-- The operation PK.SPLIT (rule R113). -/
def pkSplit (n : Nat) (s : State) : Res Unit :=
  if !s.pk.kv then .trap .notConstructed s
  else if !(decide (1 ≤ n) && s.pk.kLen % n == 0) then .trap .badConfig s
  else
    let m := s.pk.kLen / n
    (memRead .kram 0 s.pk.kLen s).bind fun kernel t =>
    (memWrite .pram 0 (splitTaps kernel n m) t).bind fun _ u =>
      .ok () { u with pk := { u.pk with nPhases := n, m := m, sv := true } }

/-- PK.LPF (rule R110). -/
def execPkLpf (length : Word) (increment : F32) (s : State) : Host.Outcome State Fault Refusal :=
  command noWords (pkLpf (countOf length) increment) s

/-- PK.LOADK (rule R111). -/
def execPkLoadk (taps : List F32) (s : State) : Host.Outcome State Fault Refusal :=
  command noWords (pkLoadk taps) s

/-- PK.SPLIT (rule R113). -/
def execPkSplit (numPhases : Word) (s : State) : Host.Outcome State Fault Refusal :=
  command noWords (pkSplit (countOf numPhases)) s

end Sys2Proof.Machine
end

