-- ==== Sys2Proof/Machine/Lfo.lean ====
section
/-!
DEFINITION. LFO.NEW, LFO.STEP, LFO.RESET: the LFO envelope generator (40_lfo.md).
-/

namespace Sys2Proof.Machine

/-- `LFO_POINT_FN`, by default the midpoint `(min + max) * 0.5` (rule R90, D15). -/
def lfoPointOf (law : Law) (lo hi : F32) : F32 :=
  match law with
  | .specDefault => F32.mul (F32.add lo hi) F32.half
  | .replaced => Config.lfoPoint lo hi

/-- `LFO_SCALE_FN`, by default `(max - min) / 50.0` (rule R90, D15). -/
def lfoScaleOf (law : Law) (lo hi : F32) : F32 :=
  match law with
  | .specDefault => F32.div (F32.sub hi lo) (F32.ofNat 50)
  | .replaced => Config.lfoScale lo hi

/-- `alpha = 1.0 - EXP((-1.0) / (2.0 * point))` (rule R90). -/
def lfoAlphaOf (point : F32) : F32 :=
  F32.sub F32.one (Config.exp (F32.div F32.minusOne (F32.mul F32.two point)))

/-- The operation LFO.NEW (rule R90). -/
def lfoNew (lo hi : F32) (s : State) : Res Unit :=
  if !isDelayBounds lo hi then .trap .badConfig s
  else
    let point := lfoPointOf s.cfg.lfoLaw lo hi
    .ok () { s with
      lfo := {
        c := true, point := point, scale := lfoScaleOf s.cfg.lfoLaw lo hi, alpha := lfoAlphaOf point
        phase := F32.zero, output := none } }

/-- `triangle(phase)`: `1 - phase` if `phase > 0.5`, else `phase` (rule R91). -/
def triangle (phase : F32) : F32 := if F32.lt F32.half phase then F32.sub F32.one phase else phase

/-- `instant = (depth * scale) * (triangle(phase) - 0.25)` (rule R91). -/
def lfoInstant (depth scale phase : F32) : F32 :=
  F32.mul (F32.mul depth scale) (F32.sub (triangle phase) F32.quarter)

/-- One-pole smoothing; without an earlier output the instantaneous value itself (rule R91). -/
def lfoSmoothed (output : Option F32) (alpha instant : F32) : F32 :=
  match output with
  | none => instant
  | some o => F32.add o (F32.mul alpha (F32.sub instant o))

/-- The phase after a sample: it advances only while `incr < 0.5`, and wraps at 1 (rule R91). -/
def lfoAdvance (phase incr : F32) : F32 :=
  if F32.lt incr F32.half then
    let ph := F32.add phase incr
    if F32.le F32.one ph then F32.sub ph F32.one else ph
  else phase

/-- The operation LFO.STEP, answering `forward` and `reverse` (rule R91). -/
def lfoStep (incr depth : F32) (s : State) : Res (F32 × F32) :=
  if !s.lfo.c then .trap .notConstructed s
  else if !(isNonNegative incr && isPercent depth) then .trap .badParam s
  else
    let smoothed := lfoSmoothed s.lfo.output s.lfo.alpha (lfoInstant depth s.lfo.scale s.lfo.phase)
    .ok (F32.add s.lfo.point smoothed, F32.sub s.lfo.point smoothed)
      { s with lfo := { s.lfo with phase := lfoAdvance s.lfo.phase incr, output := some smoothed } }

/-- The operation LFO.RESET (rule R92). -/
def lfoReset (s : State) : Res Unit :=
  if !s.lfo.c then .trap .notConstructed s
  else .ok () { s with lfo := { s.lfo with phase := F32.zero, output := none } }

/-- LFO.NEW (rule R90). -/
def execLfoNew (lo hi : F32) (s : State) : Host.Outcome State Fault Refusal :=
  command noWords (lfoNew lo hi) s

/-- LFO.STEP (rule R91). -/
def execLfoStep (incr depth : F32) (s : State) : Host.Outcome State Fault Refusal :=
  command (fun r => [r.1, r.2]) (lfoStep incr depth) s

/-- LFO.RESET (rule R92). -/
def execLfoReset (s : State) : Host.Outcome State Fault Refusal :=
  command noWords lfoReset s

end Sys2Proof.Machine
end

