-- ==== Sys2Proof/Machine/Waveshaper.lean ====
section
/-!
DEFINITION. NL.SHAPE: the stateless cubic waveshaper (45_nonlinearity.md).
-/

namespace Sys2Proof.Machine

/-- `NL_A` = f32(1/256) (rules R7, R140). -/
def nlA : F32 := F32.ofRat 1 256

/-- `NL_B` = f32(1/576) (rules R7, R140). -/
def nlB : F32 := F32.ofRat 1 576

/-- The waveshaper: linear with an offset where `|x| > 1`, else `(x - A*x2) - B*(x2*x)` (rule R140). -/
def shape (x : F32) : F32 :=
  if F32.lt F32.one (F32.abs x) then
    if F32.lt F32.zero x then F32.sub x (F32.add nlA nlB) else F32.add x (F32.add nlA nlB)
  else
    let x2 := F32.mul x x
    F32.sub (F32.sub x (F32.mul nlA x2)) (F32.mul nlB (F32.mul x2 x))

/-- The operation NL.SHAPE (rule R140). -/
def nlShape (x : F32) (s : State) : Res F32 := .ok (shape x) s

/-- NL.SHAPE (rule R140). -/
def execNlShape (x : F32) (s : State) : Host.Outcome State Fault Refusal :=
  command oneWord (nlShape x) s

end Sys2Proof.Machine
end

