-- ==== Sys2Proof/Machine/Effect.lean ====
section
/-!
DEFINITION. FX.NEW, FX.SETPROC, FX.PARAMS, FX.PROCESS, FX.RESET: the chain controller, as if the named unit operations
were issued (47_effect.md).
-/

namespace Sys2Proof.Machine

/-! ## Construction -/

/-- `LFO_MIN` and `LFO_MAX` for a sampling rate (rule R155). -/
def fxLfoBounds (cfg : Params) (fs : F32) : F32 × F32 :=
  match cfg.lfoBounds with
  | .constant lo hi => (lo, hi)
  | .ofRate => (Config.lfoMinOf fs, Config.lfoMaxOf fs)

/-- `LOOK_BEHIND_FX` = `floor(LFO_MAX) + ceil(M/2)` with M = `K_LEN / N_PHASES`, an integer (rules R11, R155, D33). It is
taken before `LFO.NEW` checks `LFO_MAX`: where that is not finite, the sum is a free value (log 23). -/
def fxLookBehind (cfg : Params) (fs : F32) : Int :=
  F32.floor (fxLfoBounds cfg fs).2 + ((cfg.kLen / cfg.nPhases + 1) / 2 : Nat)

/-- `HB.NEW LOOK_BEHIND_FX, max_block` (rule R155). A look-behind below 0 or, by HB.NEW's own check, above 2^32 - 1
is no u32 operand and never wraps (rules R11, R57): the construction argument is illegal (rule R171; logs 16 and 23). -/
def fxHbNew (fs : F32) (maxBlock : Nat) (s : State) : Res Unit :=
  if fxLookBehind s.cfg fs < 0 then .trap .badConfig s
  else hbNew (fxLookBehind s.cfg fs).toNat maxBlock s

/-- The constituents of FX.NEW, then the controller's own registers (rule R155). -/
def fxConstruct (fs : F32) (maxBlock : Nat) (s : State) : Res Unit :=
  (pkLpf s.cfg.kLen s.cfg.kInc s).bind fun _ s =>
  (pkSplit s.cfg.nPhases s).bind fun _ s =>
  (fxHbNew fs maxBlock s).bind fun _ s =>
  (lfoNew (fxLfoBounds s.cfg fs).1 (fxLfoBounds s.cfg fs).2 s).bind fun _ s =>
  (cmpNew fs s).bind fun _ s =>
  (aafNew 0 fs s).bind fun _ s =>
  (aafNew 1 fs s).bind fun _ s =>
  (aafNew 2 fs s).bind fun _ s =>
  .ok () { s with fx := { c := true, run := false, fs := fs } }

/-- The operation FX.NEW (rule R155). -/
def fxNew (fs : F32) (maxBlock : Nat) (s : State) : Res Unit :=
  if !(isPositive fs && isBlockLength maxBlock) then .trap .badConfig s
  else chain (pkLpf s.cfg.kLen s.cfg.kInc s) (fxConstruct fs maxBlock s)

/-! ## Resets -/

/-- LFO.RESET, HB.RESET, CMP.RESET, AAF.RESET.0 to .2 (rules R156, R159). -/
def resetStages (s : State) : Res Unit :=
  (lfoReset s).bind fun _ s =>
  (hbReset s).bind fun _ s =>
  (cmpReset s).bind fun _ s =>
  (aafReset 0 s).bind fun _ s =>
  (aafReset 1 s).bind fun _ s =>
  aafReset 2 s

/-- The operation FX.SETPROC (rule R156). -/
def fxSetproc (on : Word) (s : State) : Res Unit :=
  if !s.fx.c then .trap .notConstructed s
  else if !isBoolWord on then .trap .badParam s
  else if on = 1#32 then
    if s.hb.view then .trap .viewState s
    else (chain (lfoReset s) (resetStages s)).bind fun _ t => .ok () { t with fx := { t.fx with run := true } }
  else .ok () { s with fx := { s.fx with run := false } }

/-- The operation FX.RESET (rule R159). -/
def fxReset (s : State) : Res Unit :=
  if !s.fx.c then .trap .notConstructed s
  else if s.hb.view then .trap .viewState s
  else chain (lfoReset s) (resetStages s)

/-! ## Parameters -/

/-- The operation FX.PARAMS: the ranges are checked and nothing changes (rule R157). -/
def fxParams (params : List ParamSample) (s : State) : Res Unit :=
  if !s.fx.c then .trap .notConstructed s
  else if !params.all isInRange then .trap .badParam s
  else .ok () s

/-- `MIX(dry, wet, mix, bypass)` (rule R161). -/
def mixSample (dry wet mix : F32) (bypass : Word) : F32 :=
  if bypass = 1#32 then dry
  else
    let m := F32.div mix F32.hundred
    F32.add (F32.mul dry (F32.sub F32.one m)) (F32.mul wet m)

/-! ## The chain -/

/-- What the front half keeps of a sample for the back half (rules R32, R158). -/
structure FrontSample where
  sample : FxSample
  level : F32
  compressed : F32
  forward : F32
  reverse : F32
  deriving DecidableEq, Repr

/-- The front half for one sample (rule R158); the LFO increment is `rate / fs` (rule R160). -/
def frontSample (p : FxSample) (s : State) : Res FrontSample :=
  (aafStep 0 p.x s).bind fun a s =>
  (cmpDetect a s).bind fun level s =>
  (cmpCompress a level s).bind fun compressed s =>
  (lfoStep (F32.div p.params.rate s.fx.fs) p.params.depth s).bind fun delays s =>
  .ok ⟨p, level, compressed, delays.1, delays.2⟩ s

/-- The front half for the block, in sample order (rule R158). -/
def frontBlock : List FxSample → State → Res (List FrontSample)
  | [], s => .ok [] s
  | p :: ps, s =>
    (frontSample p s).bind fun f s =>
    (frontBlock ps s).bind fun fs s => .ok (f :: fs) s

/-- One tap of the back half: delay read, waveshaper, expander with the same level, reconstruction filter, mix
(rule R158). -/
def backTap (t tap : Nat) (delay : F32) (f : FrontSample) (s : State) : Res F32 :=
  (dlRead t delay s).bind fun r s =>
  (nlShape r s).bind fun shaped s =>
  (cmpExpand shaped f.level s).bind fun e s =>
  (aafStep (1 + tap) e s).bind fun wet s =>
  .ok (mixSample f.sample.x wet f.sample.params.mix f.sample.params.bypass) s

/-- The back half from sample `t` on: per sample tap 0 with `forward`, then tap 1 with `reverse` (rule R158). -/
def backBlock : Nat → List FrontSample → State → Res (List (F32 × F32))
  | _, [], s => .ok [] s
  | t, f :: fs, s =>
    (backTap t 0 f.forward f s).bind fun out0 s =>
    (backTap t 1 f.reverse f s).bind fun out1 s =>
    (backBlock (t + 1) fs s).bind fun outs s => .ok ((out0, out1) :: outs) s

/-- The constituents of FX.PROCESS; the outputs of tap 0, then those of tap 1 (rule R158). -/
def processBlock (block : List FxSample) (s : State) : Res (List F32) :=
  (frontBlock block s).bind fun front s =>
  (hbProcess (front.map FrontSample.compressed) s).bind fun _ s =>
  (backBlock 0 front s).bind fun outs s =>
  (hbRelease s).bind fun _ s =>
  .ok (outs.map Prod.fst ++ outs.map Prod.snd) s

/-- Whether the first constituent of FX.PROCESS faults: AAF.STEP.0 of the first sample, or HB.PROCESS of an empty
block (rule R158). -/
def firstOfProcess (block : List FxSample) (s : State) : Res Unit :=
  match block with
  | [] => hbProcess [] s
  | p :: _ => (aafStep 0 p.x s).bind fun _ t => .ok () t

/-- The operation FX.PROCESS (rule R158). -/
def fxProcess (block : List FxSample) (s : State) : Res (List F32) :=
  if !s.fx.c then .trap .notConstructed s
  else if !s.fx.run then .trap .badMode s
  else if s.hb.maxBlock < block.length then .trap .badLength s
  else if s.hb.view then .trap .viewState s
  else if !block.all (fun p => isInRange p.params) then .trap .badParam s
  else chain (firstOfProcess block s) (processBlock block s)

/-! ## The meanings -/

/-- FX.NEW (rule R155). -/
def execFxNew (fs : F32) (maxBlock : Word) (s : State) : Host.Outcome State Fault Refusal :=
  command noWords (fxNew fs (countOf maxBlock)) s

/-- FX.SETPROC (rule R156). -/
def execFxSetproc (on : Word) (s : State) : Host.Outcome State Fault Refusal :=
  command noWords (fxSetproc on) s

/-- FX.PARAMS (rule R157). -/
def execFxParams (params : List ParamSample) (s : State) : Host.Outcome State Fault Refusal :=
  command noWords (fxParams params) s

/-- FX.PROCESS (rule R158). -/
def execFxProcess (block : List FxSample) (s : State) : Host.Outcome State Fault Refusal :=
  command id (fxProcess block) s

/-- FX.RESET (rule R159). -/
def execFxReset (s : State) : Host.Outcome State Fault Refusal :=
  command noWords fxReset s

end Sys2Proof.Machine
end

