-- ==== Sys2Proof/Machine/Dispatch.lean ====
section
/-!
DEFINITION. One arm per operation of rule R74.
-/

namespace Sys2Proof.Machine

def exec (i : Instr) (s : State) : Host.Outcome State Fault Refusal :=
  match i with
  | .lfoNew lo hi => Sys2Proof.Machine.execLfoNew lo hi s
  | .lfoStep incr depth => Sys2Proof.Machine.execLfoStep incr depth s
  | .lfoReset => Sys2Proof.Machine.execLfoReset s
  | .hbNew lookBehind maxBlock => Sys2Proof.Machine.execHbNew lookBehind maxBlock s
  | .hbProcess samples => Sys2Proof.Machine.execHbProcess samples s
  | .hbView => Sys2Proof.Machine.execHbView s
  | .hbRead start count => Sys2Proof.Machine.execHbRead start count s
  | .hbRelease => Sys2Proof.Machine.execHbRelease s
  | .hbReset => Sys2Proof.Machine.execHbReset s
  | .pkLpf length increment => Sys2Proof.Machine.execPkLpf length increment s
  | .pkLoadk taps => Sys2Proof.Machine.execPkLoadk taps s
  | .pkSplit numPhases => Sys2Proof.Machine.execPkSplit numPhases s
  | .dlRead k delay => Sys2Proof.Machine.execDlRead k delay s
  | .cmpNew fs => Sys2Proof.Machine.execCmpNew fs s
  | .cmpDetect x => Sys2Proof.Machine.execCmpDetect x s
  | .cmpReset => Sys2Proof.Machine.execCmpReset s
  | .cmpCompress signal level => Sys2Proof.Machine.execCmpCompress signal level s
  | .cmpExpand signal level => Sys2Proof.Machine.execCmpExpand signal level s
  | .nlShape x => Sys2Proof.Machine.execNlShape x s
  | .aafNew k fs => Sys2Proof.Machine.execAafNew k fs s
  | .aafStep k x => Sys2Proof.Machine.execAafStep k x s
  | .aafReset k => Sys2Proof.Machine.execAafReset k s
  | .fxNew fs maxBlock => Sys2Proof.Machine.execFxNew fs maxBlock s
  | .fxSetproc on => Sys2Proof.Machine.execFxSetproc on s
  | .fxParams params => Sys2Proof.Machine.execFxParams params s
  | .fxProcess block => Sys2Proof.Machine.execFxProcess block s
  | .fxReset => Sys2Proof.Machine.execFxReset s

end Sys2Proof.Machine
end

