-- ==== Sys2Proof/Machine/Step.lean ====
section
/-!
DEFINITION. One step: the block takes the packet at the front of the command port and executes it as one atomic step
(rule R70). Where the port holds no whole packet it waits (rule R21; log 9).
-/

namespace Sys2Proof.Machine

/-- One step of the block. An illegal header is a packet of that one word (rule R75). -/
def step (s : State) : Host.Outcome State Fault Refusal :=
  match decode s.port with
  | .ok (i, rest) => exec i { s with port := rest }
  | .error .incomplete => .next s
  | .error _ => illegalCommand { s with port := s.port.drop 1 }

/-- The packet of these table bits, operand words beyond them zero, presented in front of what the port holds
(log 13). -/
def State.withFetchWord (s : State) (nbits w : Nat) : State :=
  { s with port := tablePacket nbits w ++ s.port }

end Sys2Proof.Machine
end

