-- ==== Sys2Proof/Machine/Pseudo.lean ====
section
/-!
DEFINITION. The pseudo-instructions of rule R78: they have no opcode, an assembler expands them into commands.
-/

namespace Sys2Proof.Machine

/-- The pseudo-instructions (rule R78). -/
inductive Pseudo where
  /-- `LFO.RUN`: one `{incr, depth}` pair per sample (rule R93). -/
  | lfoRun (samples : List (F32 × F32))
  /-- `DL.READ2`: the two taps of one sample (rule R123). -/
  | dlRead2 (i : Word) (fwd rev : F32)
  /-- `AAF.RESETALL`. -/
  | aafResetAll
  deriving DecidableEq, Repr

/-- The commands an assembler expands a pseudo-instruction into; `nAaf` is `N_AAF` (rule R78). -/
def Pseudo.expand (nAaf : Nat) : Pseudo → List Instr
  | .lfoRun samples => samples.map fun p => .lfoStep p.1 p.2
  | .dlRead2 i fwd rev => [.dlRead i fwd, .dlRead i rev]
  | .aafResetAll => (List.range nAaf).map fun k => .aafReset (BitVec.ofNat 8 k)

/-- The response to a pseudo-instruction from its commands' responses: `LFO.RUN` gives all `forward` words, then all
`reverse` words (rule R78). -/
def Pseudo.arrange (responses : List (List Word)) : Pseudo → List Word
  | .lfoRun _ => responses.flatMap (List.take 1) ++ responses.flatMap (List.drop 1)
  | .dlRead2 .. | .aafResetAll => responses.flatten

/-- Commands issued one after another: their responses in order, and the state they leave (rule R70). -/
def issueAll : List Instr → State → Host.Outcome (List (List Word) × State) Fault Refusal
  | [], s => .next ([], s)
  | i :: is, s =>
    match exec i s with
    | .next t =>
      match issueAll is t with
      | .next (rs, u) => .next (t.resp :: rs, u)
      | .fault f => .fault f
      | .refused r => .refused r
    | .fault f => .fault f
    | .refused r => .refused r

/-- A pseudo-instruction issued to the block: its response and the state it leaves (rule R78). -/
def issuePseudo (p : Pseudo) (s : State) : Host.Outcome (List Word × State) Fault Refusal :=
  match issueAll (p.expand s.cfg.nAaf.val) s with
  | .next (rs, t) => .next (p.arrange rs, t)
  | .fault f => .fault f
  | .refused r => .refused r

end Sys2Proof.Machine
end

