-- ==== Sys2Proof/Safety.lean ====
section
/-!
DEFINITION. What a safe run is: the invariant of the state, what the host observes, and the host's own program of unit
commands that the chain controller is defined by (47_effect.md, opening paragraph).
-/

namespace Sys2Proof.Machine

/-! ## The invariant -/

/-- Every listed word lies below a memory's physical size (rule R50). -/
def Mem.within (m : Mem) (size : Nat) : Bool := m.all fun cell => decide (cell.1 < size)

/-- What the registers and memories can hold at all, power-on included: it says what a state represents and restricts no
value the spec leaves unspecified (rules R24, R26, R50). -/
structure State.Representable (s : State) : Prop where
  /-- Memories have their canonical form (log 1) ... -/
  hbufCanonical : s.hbuf.wf = true
  kramCanonical : s.kram.wf = true
  pramCanonical : s.pram.wf = true
  /-- ... and their physical size (rule R50). -/
  hbufWithin : s.hbuf.within s.cfg.hbufWords = true
  kramWithin : s.kram.within s.cfg.kramWords = true
  pramWithin : s.pram.within s.cfg.kramWords = true
  /-- The count registers hold u32 values (rules R24, R26, R57; log 16). -/
  counts : s.hb.lookBehind < 2 ^ 32 ∧ s.hb.maxBlock < 2 ^ 32 ∧ s.hb.len < 2 ^ 32 ∧
    s.pk.kLen < 2 ^ 32 ∧ s.pk.nPhases < 2 ^ 32 ∧ s.pk.m < 2 ^ 32

/-- What holds of every state a run reaches. Every clause about a register that power-on leaves unspecified is guarded by
the flag that guards the register (rules R24, R190). -/
structure State.Inv (s : State) : Prop extends State.Representable s where
  /-- `CAUSE` is 0 while `FAULT` is 0, and one of the codes 1..9 otherwise (rules R23, R171). -/
  noCause : s.fault = false → s.cause = 0#4
  legalCause : s.fault = true → 1 ≤ s.cause.toNat ∧ s.cause.toNat ≤ 9
  /-- A constructed history buffer has legal sizes (rule R24). -/
  sized : s.hb.c = true →
    1 ≤ s.hb.maxBlock ∧ s.hb.maxBlock ≤ 65535 ∧ s.hb.lookBehind + s.hb.maxBlock ≤ s.cfg.hbufWords
  /-- `HB.len` ≤ `max_block` in a constructed buffer (rule R26). -/
  blockFits : s.hb.c = true → s.hb.len ≤ s.hb.maxBlock
  /-- Only a constructed buffer has an open view (rule R22). -/
  viewConstructed : s.hb.view = true → s.hb.c = true
  /-- A loaded kernel has a legal length (rule R24). -/
  kernelSized : s.pk.kv = true → 1 ≤ s.pk.kLen ∧ s.pk.kLen ≤ s.cfg.kramWords
  /-- A split kernel has N ≥ 1 phases of M ≥ 1 taps with N·M = L (rules R24, R114). -/
  splitSized : s.pk.sv = true →
    s.pk.kv = true ∧ 1 ≤ s.pk.nPhases ∧ 1 ≤ s.pk.m ∧ s.pk.nPhases * s.pk.m = s.pk.kLen
  /-- A constructed chain has constructed units (rule R155). -/
  chainConstructed : s.fx.c = true →
    s.lfo.c = true ∧ s.hb.c = true ∧ s.cmp.c = true ∧
    s.aaf.f0.c = true ∧ s.aaf.f1.c = true ∧ s.aaf.f2.c = true ∧ 3 ≤ s.cfg.nAaf.val
  /-- Only a constructed chain is Running (rules R22, R162). -/
  running : s.fx.run = true → s.fx.c = true

/-- The range of the phase register: 0 ≤ phase < 1 (rule R25). -/
def State.phaseInRange (s : State) : Prop :=
  F32.le F32.zero s.lfo.phase = true ∧ F32.lt s.lfo.phase F32.one = true

/-- The structural invariant of the polyphase store: while `PK.sv` = 1, L = N·M and `KRAM[k*N + p] = PRAM[p*M + (M-1-k)]`
(rule R114). -/
def State.splitMatches (s : State) : Prop :=
  s.pk.sv = true →
    s.pk.kLen = s.pk.nPhases * s.pk.m ∧
    ∀ k p, k < s.pk.m → p < s.pk.nPhases →
      s.kram.read (k * s.pk.nPhases + p) = s.pram.read (p * s.pk.m + (s.pk.m - 1 - k))

/-- A run goes on: it neither stops nor is refused. -/
def Continues (o : Host.Outcome State Fault Refusal) : Prop := ∃ t, o = .next t

/-- The state with a fault code taken and nothing else changed: `FAULT` 1, `CAUSE` the code, no result words
(rules R171, R172). -/
def State.faulted (s : State) (code : BitVec 4) : State := { s with fault := true, cause := code, resp := [] }

/-- A faulted block refuses this command: it changes nothing and answers nothing (rule R172 item 4). -/
def RefusedWhenFaulted (i : Instr) (s : State) : Prop := s.fault = true → exec i s = .next { s with resp := [] }

/-! ## History -/

/-- The last `n` elements of `S` preceded by infinitely many +0.0 (rule R106). -/
def lastSamples (n : Nat) (S : List F32) : List F32 := (List.replicate n F32.zero ++ S).drop S.length

/-- HBUF holds the samples `S` given since construction or reset: the last `look_behind` of them while no view is open,
the last `look_behind + len` while one is (rule R106). -/
def State.HistoryIs (s : State) (S : List F32) : Prop :=
  s.hb.c = true →
    (s.hb.view = false → s.hbuf.readList 0 s.hb.lookBehind = lastSamples s.hb.lookBehind S) ∧
    (s.hb.view = true →
      s.hbuf.readList 0 (s.hb.lookBehind + s.hb.len) = lastSamples (s.hb.lookBehind + s.hb.len) S)

/-! ## Observation -/

/-- What the host sees after a command: the response words and STATUS (rules R23, R70). -/
def observed (o : Host.Outcome State Fault Refusal) : Option (List Word × Word) :=
  match o with
  | .next t => some (t.resp, t.status)
  | .fault _ => none
  | .refused _ => none

/-- What the host sees of operations issued one after another, up to a stop of the model. -/
def observations : List Instr → State → List (Option (List Word × Word))
  | [], _ => []
  | i :: is, s =>
    observed (exec i s) ::
      match exec i s with
      | .next t => observations is t
      | .fault _ => []
      | .refused _ => []

/-- Two instances constructed alike: everything but the state variables agrees. -/
def Aaf.sameConstruction (f g : Aaf) : Prop := f.c = g.c ∧ f.g = g.g

/-- Two states constructed alike: they may differ only in what a reset restores (the LFO's phase and output, the words
of HBUF in use, the envelope, the state variables of filters 0 to 2), in the mode, the last response and `HB.len`. -/
structure SameConstruction (s t : State) : Prop where
  cfg : s.cfg = t.cfg
  port : s.port = t.port
  fault : s.fault = t.fault
  cause : s.cause = t.cause
  lfo : s.lfo.c = t.lfo.c ∧ s.lfo.point = t.lfo.point ∧ s.lfo.scale = t.lfo.scale ∧ s.lfo.alpha = t.lfo.alpha
  hb : s.hb.c = t.hb.c ∧ s.hb.view = t.hb.view ∧ s.hb.lookBehind = t.hb.lookBehind ∧ s.hb.maxBlock = t.hb.maxBlock
  hbufBeyond : ∀ a, s.hb.lookBehind + s.hb.maxBlock ≤ a → s.hbuf.read a = t.hbuf.read a
  pk : s.pk = t.pk
  kram : s.kram = t.kram
  pram : s.pram = t.pram
  cmp : s.cmp.c = t.cmp.c ∧ s.cmp.attack = t.cmp.attack ∧ s.cmp.release = t.cmp.release
  aaf : s.aaf.f0.sameConstruction t.aaf.f0 ∧ s.aaf.f1.sameConstruction t.aaf.f1 ∧
    s.aaf.f2.sameConstruction t.aaf.f2 ∧ s.aaf.f3 = t.aaf.f3
  fx : s.fx.c = t.fx.c ∧ s.fx.fs = t.fx.fs
  freed : s.freed = t.freed

/-- Two states that agree on every flag and on every register and word that a set flag makes readable (rules R22, R24 to
R30, R32; 93 X1). -/
structure SameObservable (s t : State) : Prop where
  cfg : s.cfg = t.cfg
  port : s.port = t.port
  resp : s.resp = t.resp
  fault : s.fault = t.fault
  cause : s.cause = t.cause
  freed : s.freed = t.freed
  lfoFlags : s.lfo.c = t.lfo.c ∧ s.lfo.output = t.lfo.output
  lfo : s.lfo.c = true → s.lfo = t.lfo
  hbFlags : s.hb.c = t.hb.c ∧ s.hb.view = t.hb.view
  hb : s.hb.c = true → s.hb.lookBehind = t.hb.lookBehind ∧ s.hb.maxBlock = t.hb.maxBlock
  hbLen : s.hb.view = true → s.hb.len = t.hb.len
  hbuf : s.hb.c = true → ∀ a, a < s.hb.lookBehind + s.hb.maxBlock → s.hbuf.read a = t.hbuf.read a
  pkFlags : s.pk.kv = t.pk.kv ∧ s.pk.sv = t.pk.sv
  kLen : s.pk.kv = true → s.pk.kLen = t.pk.kLen
  split : s.pk.sv = true → s.pk.nPhases = t.pk.nPhases ∧ s.pk.m = t.pk.m
  kram : s.pk.kv = true → ∀ a, a < s.pk.kLen → s.kram.read a = t.kram.read a
  pram : s.pk.sv = true → ∀ a, a < s.pk.kLen → s.pram.read a = t.pram.read a
  cmpFlags : s.cmp.c = t.cmp.c
  cmp : s.cmp.c = true → s.cmp = t.cmp
  aafFlags : ∀ k, k < 4 → (s.aaf.get k).c = (t.aaf.get k).c ∧ s.aafGv k = t.aafGv k
  aaf : ∀ k, k < 4 → (s.aaf.get k).c = true → s.aaf.get k = t.aaf.get k
  fxFlags : s.fx.c = t.fx.c ∧ s.fx.run = t.fx.run
  fx : s.fx.c = true → s.fx = t.fx

/-- A block at power-on whatever its unspecified registers and words hold: every flag 0, nothing presented or answered
yet (rule R190). -/
def State.NothingConstructed (s : State) : Prop :=
  s.port = [] ∧ s.resp = [] ∧ s.fault = false ∧ s.cause = 0#4 ∧ s.freed = 0 ∧
  s.lfo.c = false ∧ s.lfo.output = none ∧ s.hb.c = false ∧ s.hb.view = false ∧ s.pk.kv = false ∧ s.pk.sv = false ∧
  s.cmp.c = false ∧ s.fx.c = false ∧ s.fx.run = false ∧ ∀ k, k < 4 → (s.aaf.get k).c = false ∧ s.aafGv k = false

/-! ## Rounding -/

/-- `r` is the binary32 value of the exact quotient `num / den`, rounded to nearest with ties to even, as against the
value `c`: `c` lies no nearer, and where it is another value lying as near, `r` has an even magnitude field (D8). -/
def RoundedTo (r c : F32) (num den : Int) : Prop :=
  (F32.value r * den - num).natAbs ≤ (F32.value c * den - num).natAbs ∧
  ((F32.value r * den - num).natAbs = (F32.value c * den - num).natAbs → F32.value c ≠ F32.value r →
    F32.mag r % 2 = 0)

/-! ## Construction of the chain -/

/-- What a chain operation leaves of filter 3, which it does not use, and of the count of free draws: both as they were,
except where the operation faults part-way, which draws free values for the filter's state variables (rule R172 item 3;
log 12). -/
def ChainFrame (s t : State) : Prop :=
  (t.fault = s.fault → t.aaf.f3 = s.aaf.f3 ∧ t.freed = s.freed) ∧
  (t.fault ≠ s.fault →
    (t.aaf.f3 = s.aaf.f3 ∧ t.freed = s.freed) ∨
    (t.aaf.f3 = unspecAaf s.freed 16 s.aaf.f3 ∧ t.freed = s.freed + 1))

/-- The parameters PK.LPF, the first constituent of `FX.NEW`, checks (rules R110, R155; that `K_LEN` is a u32: log 16). -/
def KernelFits (cfg : Params) : Prop :=
  cfg.kLen < 2 ^ 32 ∧ 1 ≤ cfg.kLen ∧ cfg.kLen ≤ cfg.kramWords ∧ F32.isFinite cfg.kInc = true ∧
  F32.lt F32.zero cfg.kInc = true

/-- The parameters a constituent of `FX.NEW` checks, but for the number of filters: a legal kernel and split, a history
that fits HBUF, delay bounds in order, and counts that are u32
(rules R57, R90, R100, R110, R113, R155; logs 16 and 23). -/
def ConstituentsFit (cfg : Params) (lo hi : F32) (m maxBlock : Nat) : Prop :=
  KernelFits cfg ∧ 1 ≤ cfg.nPhases ∧ cfg.kLen % cfg.nPhases = 0 ∧
  F32.floorNat hi + (m + 1) / 2 < 2 ^ 32 ∧ F32.floorNat hi + (m + 1) / 2 + maxBlock ≤ cfg.hbufWords ∧
  (F32.isFinite lo && F32.isFinite hi && F32.le F32.zero lo && F32.lt lo hi) = true

/-! ## The chain as the host's program of unit commands -/

/-- A command issued by the host: the state it leaves, or the `CAUSE` its fault records (0, which no fault records, where
the model stops). -/
def issue (i : Instr) (s : State) : Except (BitVec 4) State :=
  match exec i s with
  | .next t => if t.fault then .error t.cause else .ok t
  | .fault _ => .error 0#4
  | .refused _ => .error 0#4

/-- A command that answers one word (0 is no cause: no command the host asks answers otherwise). -/
def ask (i : Instr) (s : State) : Except (BitVec 4) (Word × State) :=
  (issue i s).bind fun t =>
    match t.resp with
    | [w] => .ok (w, t)
    | _ => .error 0#4

/-- The front half of a block issued as unit commands (rule R158). -/
def hostFront : List FxSample → State → Except (BitVec 4) (List FrontSample × State)
  | [], s => .ok ([], s)
  | p :: ps, s =>
    (ask (.aafStep 0 p.x) s).bind fun (a, s) =>
    (ask (.cmpDetect a) s).bind fun (level, s) =>
    (ask (.cmpCompress a level) s).bind fun (compressed, s) =>
    (issue (.lfoStep (F32.div p.params.rate s.fx.fs) p.params.depth) s).bind fun s =>
      match s.resp with
      | [forward, reverse] =>
        (hostFront ps s).map fun r => (⟨p, level, compressed, forward, reverse⟩ :: r.1, r.2)
      | _ => .error 0#4

/-- One tap of one sample issued as unit commands (rule R158). -/
def hostTap (t : Nat) (k : BitVec 8) (delay : F32) (f : FrontSample) (s : State) : Except (BitVec 4) (F32 × State) :=
  (ask (.dlRead (BitVec.ofNat 32 t) delay) s).bind fun (r, s) =>
  (ask (.nlShape r) s).bind fun (shaped, s) =>
  (ask (.cmpExpand shaped f.level) s).bind fun (e, s) =>
  (ask (.aafStep k e) s).map fun (wet, s) =>
    (mixSample f.sample.x wet f.sample.params.mix f.sample.params.bypass, s)

/-- The back half from sample `t` on issued as unit commands (rule R158). -/
def hostBack : Nat → List FrontSample → State → Except (BitVec 4) (List (F32 × F32) × State)
  | _, [], s => .ok ([], s)
  | t, f :: fs, s =>
    (hostTap t 1 f.forward f s).bind fun (out0, s) =>
    (hostTap t 2 f.reverse f s).bind fun (out1, s) =>
    (hostBack (t + 1) fs s).map fun r => ((out0, out1) :: r.1, r.2)

/-- The block of rule R158 issued as unit commands: the outputs of tap 0, then of tap 1, and the state left; or the
`CAUSE` of the first command that faults. -/
def hostChain (block : List FxSample) (s : State) : Except (BitVec 4) (List F32 × State) :=
  (hostFront block s).bind fun (front, s) =>
  (issue (.hbProcess (front.map FrontSample.compressed)) s).bind fun s =>
  (hostBack 0 front s).bind fun (outs, s) =>
  (issue .hbRelease s).map fun s => (outs.map Prod.fst ++ outs.map Prod.snd, s)

/-- How an operation changes the sequence of samples given since construction or reset (rules R106, R155 to R159). What
FX.PROCESS gives are the samples `CMP.COMPRESS` answers in the front half of its block (rule R158). -/
def Feeds (i : Instr) (s : State) (S S' : List F32) : Prop :=
  match i with
  | .hbNew .. | .hbReset | .fxNew .. | .fxReset => S' = []
  | .fxSetproc on => S' = if on = 1#32 then [] else S
  | .hbProcess samples => S' = S ++ samples
  | .fxProcess block =>
      ∃ front t, hostFront block s = .ok (front, t) ∧ S' = S ++ front.map FrontSample.compressed
  | _ => S' = S

/-! ## Trajectories -/

/-- The delays the LFO emits over a block, from its registers alone (rules R91, R93). -/
def delaysOver (lfo : Lfo) : List (F32 × F32) → List (F32 × F32)
  | [] => []
  | p :: ps =>
    let smoothed := lfoSmoothed lfo.output lfo.alpha (lfoInstant p.2 lfo.scale lfo.phase)
    (F32.add lfo.point smoothed, F32.sub lfo.point smoothed) ::
      delaysOver { lfo with phase := lfoAdvance lfo.phase p.1, output := some smoothed } ps

/-- One pass of the source's LFO over a block, with its own smoothing state: `combine point smoothed` per sample
(rule R93). -/
def onePass (combine : F32 → F32 → F32) (lfo : Lfo) : List (F32 × F32) → List F32
  | [] => []
  | p :: ps =>
    let smoothed := lfoSmoothed lfo.output lfo.alpha (lfoInstant p.2 lfo.scale lfo.phase)
    combine lfo.point smoothed ::
      onePass combine { lfo with phase := lfoAdvance lfo.phase p.1, output := some smoothed } ps

/-- A delay that sizing makes readable at sample `i`: causal, and not before index 0 (rule R122). -/
def delayFits (s : State) (i : Nat) (delay : F32) : Prop :=
  isNonNegative delay = true ∧ s.pk.m / 2 ≤ F32.floorNat delay ∧
    F32.floorNat delay + (s.pk.m + 1) / 2 ≤ s.hb.lookBehind + i

end Sys2Proof.Machine
end

