-- ==== Sys2Proof/Certificates/Slice0/Obligations.lean ====
section
/-!
DEFINITION. The statements for the provers, from the spec's numbered rules.
-/

open Sys2Proof Sys2Proof.Machine

/-! ## Packets -/

/-- Rules R72 to R74: a decoder reads back every operation a packet can carry, with every operand, and leaves the words
after the packet. -/
def Obligations.DecodeOfEncodeIsIdentity : Prop :=
  ∀ (i : Instr) (rest : List Word), i.WellFormed = true → decode (encode i ++ rest) = .ok (i, rest)

/-- Rules R72 to R75: every packet the decoder accepts is the encoding of the operation it reads, so each word of it has
one meaning. -/
def Obligations.EncodeOfDecodeIsIdentity : Prop :=
  ∀ (ws rest : List Word) (i : Instr), decode ws = .ok (i, rest) → i.WellFormed = true ∧ ws = encode i ++ rest

/-- Rule R74: no header selects two rows of the opcode map. -/
def Obligations.OpcodeRowsAreDisjoint : Prop :=
  ∀ (h : Word) (r q : OpcodeRow), r ∈ opcodeMap → q ∈ opcodeMap →
    h &&& r.mask = r.pattern → h &&& q.mask = q.pattern → r = q

/-- Rules R72 to R74 on words of `95_test_vectors.md` V-ENC-1 and V-ENC-2, one per unit. -/
def Obligations.SpecWordsDecodeToTheirInstructions : Prop :=
  decode [0x11000000#32, 0x3E800000#32, 0x42C80000#32] = .ok (.lfoStep 0x3E800000#32 0x42C80000#32, []) ∧
  decode [0x20000000#32, 0x00000003#32, 0x00000004#32] = .ok (.hbNew 3#32 4#32, []) ∧
  decode [0x32000000#32, 0x00000004#32] = .ok (.pkSplit 4#32, []) ∧
  decode [0x40000000#32, 0x00000003#32, 0x3FA00000#32] = .ok (.dlRead 3#32 0x3FA00000#32, []) ∧
  decode [0x52000000#32] = .ok (.cmpReset, []) ∧
  decode [0x60000000#32, 0x3FF5DA00#32] = .ok (.nlShape 0x3FF5DA00#32, []) ∧
  decode [0x71010000#32, 0x3FFF221A#32] = .ok (.aafStep 1#8 0x3FFF221A#32, []) ∧
  decode [0x83000001#32, 0x3EB33333#32, 0x42C80000#32, 0x42C80000#32, 0x00000000#32, 0x3F000000#32] =
    .ok (.fxProcess [⟨⟨0x3EB33333#32, 0x42C80000#32, 0x42C80000#32, 0#32⟩, 0x3F000000#32⟩], [])

/-- Rule R75: which headers match no row, that each is a packet of one word that raises `ILLEGAL_CMD`, and that an
`AAF.*` header with `inst` ≥ `N_AAF` is legal to decode and faults with `BAD_INSTANCE`. -/
def Obligations.IllegalHeadersRaiseIllegalCmd : Prop :=
  (∀ h : Word,
    (∀ r ∈ opcodeMap, h &&& r.mask ≠ r.pattern) ↔
      let unit := h.toNat / 2 ^ 28
      let func := h.toNat / 2 ^ 24 % 16
      let inst := h.toNat / 2 ^ 16 % 256
      let n := h.toNat % 65536
      unit = 0 ∨ 9 ≤ unit ∨
      (unit = 1 ∧ 3 ≤ func) ∨ (unit = 2 ∧ 6 ≤ func) ∨ (unit = 3 ∧ 3 ≤ func) ∨ (unit = 4 ∧ 1 ≤ func) ∨
      (unit = 5 ∧ 5 ≤ func) ∨ (unit = 6 ∧ 1 ≤ func) ∨ (unit = 7 ∧ 3 ≤ func) ∨ (unit = 8 ∧ 5 ≤ func) ∨
      (inst ≠ 0 ∧ unit ≠ 7) ∨
      (n ≠ 0 ∧ ¬ ((unit = 2 ∧ func = 1) ∨ (unit = 3 ∧ func = 1) ∨ (unit = 8 ∧ (func = 2 ∨ func = 3))))) ∧
  (∀ (s : State) (h : Word) (rest : List Word), s.fault = false → s.port = h :: rest →
    (∀ r ∈ opcodeMap, h &&& r.mask ≠ r.pattern) → step s = .next ({ s with port := rest }.faulted 1#4)) ∧
  (∀ (s : State) (k : BitVec 8) (w : Word), s.fault = false → s.cfg.nAaf.val ≤ k.toNat →
    exec (.aafNew k w) s = .next (s.faulted 9#4) ∧ exec (.aafStep k w) s = .next (s.faulted 9#4) ∧
    exec (.aafReset k) s = .next (s.faulted 9#4))

/-! ## The step -/

/-- Rule R70: a step takes the packet at the front of the port and executes the operation it decodes to. -/
def Obligations.StepRunsTheDecodedInstruction : Prop :=
  ∀ (s : State) (i : Instr) (rest : List Word), decode s.port = .ok (i, rest) →
    step s = exec i { s with port := rest }

/-- Rules R21, R70, and log 9 (the model's choice that waiting is a step): a block without a whole packet waits, and
changes nothing. -/
def Obligations.StepWaitsForAWholePacket : Prop :=
  ∀ s : State, decode s.port = .error .incomplete → step s = .next s

/-- Rule R190: what power-on leaves in the flags, that the block then waits, and that nothing else clears `FAULT`. -/
def Obligations.PowerOnClearsEveryFlag : Prop :=
  (∀ cfg : Params,
    let s := State.powerOn cfg
    s.fault = false ∧ s.cause = 0#4 ∧ s.lfo.c = false ∧ s.lfoOv = false ∧ s.hb.c = false ∧ s.hb.view = false ∧
    s.pk.kv = false ∧ s.pk.sv = false ∧ s.cmp.c = false ∧ s.fx.c = false ∧ s.fx.run = false ∧
    (∀ k, k < 4 → (s.aaf.get k).c = false ∧ s.aafGv k = false) ∧
    s.status = 0x00000000#32 ∧ s.lfo.output = none ∧ step s = .next s) ∧
  (∀ s t : State, s.fault = true → step s = .next t → t.fault = true ∧ t.cause = s.cause)

/-- Rules R190, R24 and 93 X1: what power-on leaves unspecified is never observed. Two blocks that agree on every flag and
on whatever a set flag makes readable go on agreeing, answer the same words and show the same STATUS; a block that powers
on with other values in its guarded registers and words agrees with `State.powerOn`, and meets the invariant whatever
values its registers and memories can hold, so the first clause covers it from its first step on. So no run shows the values that logs 2
and 3 choose. -/
def Obligations.PowerOnValuesAreNeverObserved : Prop :=
  (∀ s t : State, s.Inv → t.Inv → SameObservable s t →
    s.status = t.status ∧
    ∃ u v, step s = .next u ∧ step t = .next v ∧ u.resp = v.resp ∧ u.status = v.status ∧ SameObservable u v) ∧
  (∀ t : State, t.NothingConstructed → SameObservable (State.powerOn t.cfg) t) ∧
  (∀ t : State, t.NothingConstructed → t.Representable → t.Inv)

/-- The invariant holds at power-on, whatever the machine's parameters and whatever its unspecified registers and words
hold (rules R24, R26, R190). -/
def Obligations.InvariantHoldsAtPowerOn : Prop :=
  (∀ cfg : Params, (State.powerOn cfg).Inv) ∧ State.reset.Inv ∧
  (∀ t : State, t.NothingConstructed → t.Representable → t.Inv)

/-- Every step keeps the invariant: canonical memories within their sizes, legal sizes of what is constructed (rules R22
to R26, R114), and no cause without a fault (rule R23). -/
def Obligations.EveryStepKeepsTheInvariant : Prop :=
  ∀ s t : State, s.Inv → step s = .next t → t.Inv

/-- Rules R203 and R205: from a state that meets the invariant a step always completes; the model's own fault is never
reached. -/
def Obligations.EveryStepCompletes : Prop :=
  ∀ s : State, s.Inv → Continues (step s)

/-- The machine's parameters are fixed: no step changes them (rule R7, "not runtime-mutable state"; log 4). -/
def Obligations.NoStepChangesTheParameters : Prop :=
  ∀ s t : State, step s = .next t → t.cfg = s.cfg

/-! ## Faults -/

/-- Rule R172 item 4: a faulted block refuses every command, which changes nothing and answers nothing; and a step of it
changes at most the port and the response. -/
def Obligations.FaultedBlockRefusesEveryCommand : Prop :=
  (∀ (i : Instr) (s : State), s.fault = true → exec i s = .next { s with resp := [] }) ∧
  (∀ s t : State, s.fault = true → step s = .next t → t = { s with port := t.port, resp := t.resp } ∧
    (t = s ∨ t.resp = []))

/-- Rule R172 items 1 and 2, rule R170: an operation other than `FX.NEW`, `FX.SETPROC`, `FX.PROCESS` that raises a fault
writes `FAULT` and `CAUSE` and nothing else. -/
def Obligations.FaultingOperationWritesNothingElse : Prop :=
  ∀ (i : Instr) (s t : State), s.Inv → s.fault = false → exec i s = .next t → t.fault = true →
    (∀ fs mb, i ≠ .fxNew fs mb) → (∀ on, i ≠ .fxSetproc on) → (∀ block, i ≠ .fxProcess block) →
    ∃ c : Cause, t = s.faulted (causeCode c)

/-- Rules R73, R171, R172: any faulting operation, chain operations included, answers no result words and records one of
the nine causes; an operation that completes records none. -/
def Obligations.FaultingOperationAnswersNothing : Prop :=
  ∀ (i : Instr) (s t : State), s.fault = false → exec i s = .next t →
    (t.fault = true → t.resp = [] ∧ ∃ c : Cause, t.cause = causeCode c) ∧
    (t.fault = false → t.cause = s.cause) ∧ t.port = s.port

/-- Rule R174: which flag each operation needs; the constructors and the stateless operations need none. -/
def Obligations.UnconstructedUnitsFault : Prop :=
  ∀ s : State, s.fault = false →
    (s.lfo.c = false → ∀ a b, exec (.lfoStep a b) s = .next (s.faulted 2#4) ∧ exec .lfoReset s = .next (s.faulted 2#4)) ∧
    (s.hb.c = false → ∀ xs a b,
      exec (.hbProcess xs) s = .next (s.faulted 2#4) ∧ exec .hbView s = .next (s.faulted 2#4) ∧
      exec (.hbRead a b) s = .next (s.faulted 2#4) ∧ exec .hbRelease s = .next (s.faulted 2#4) ∧
      exec .hbReset s = .next (s.faulted 2#4)) ∧
    (s.pk.kv = false → ∀ n, exec (.pkSplit n) s = .next (s.faulted 2#4)) ∧
    (s.hb.c = false ∨ s.pk.sv = false → ∀ i d, exec (.dlRead i d) s = .next (s.faulted 2#4)) ∧
    (s.cmp.c = false → ∀ x, exec (.cmpDetect x) s = .next (s.faulted 2#4) ∧ exec .cmpReset s = .next (s.faulted 2#4)) ∧
    (∀ k : BitVec 8, k.toNat < s.cfg.nAaf.val → (s.aaf.get k.toNat).c = false → ∀ x,
      exec (.aafStep k x) s = .next (s.faulted 2#4) ∧ exec (.aafReset k) s = .next (s.faulted 2#4)) ∧
    (s.fx.c = false → ∀ on ps block,
      exec (.fxSetproc on) s = .next (s.faulted 2#4) ∧ exec (.fxParams ps) s = .next (s.faulted 2#4) ∧
      exec (.fxProcess block) s = .next (s.faulted 2#4) ∧ exec .fxReset s = .next (s.faulted 2#4)) ∧
    (∀ (a b : Word) (k : BitVec 8) (xs : List F32) (i : Instr) (t : State),
      i ∈ [.lfoNew a b, .hbNew a b, .pkLpf a b, .pkLoadk xs, .cmpNew a, .aafNew k a, .fxNew a b,
        .cmpCompress a b, .cmpExpand a b, .nlShape a] →
      exec i s = .next t → t.fault = true → t.cause ≠ 2#4)

/-! ## Whole-machine rules -/

/-- Rule R22: no step clears a constructed flag or `PK.kv`; only power-on does. -/
def Obligations.ConstructedFlagsAreNeverCleared : Prop :=
  ∀ s t : State, step s = .next t →
    (s.lfo.c = true → t.lfo.c = true) ∧ (s.hb.c = true → t.hb.c = true) ∧ (s.pk.kv = true → t.pk.kv = true) ∧
    (s.cmp.c = true → t.cmp.c = true) ∧ (s.fx.c = true → t.fx.c = true) ∧
    (∀ k, k < 4 → (s.aaf.get k).c = true → (t.aaf.get k).c = true)

/-- Rule R24: a configuration register changes only by the operations its row names, never by a reset. -/
def Obligations.ConfigurationIsWrittenOnlyByConstructors : Prop :=
  ∀ (i : Instr) (s t : State), exec i s = .next t →
    ((t.hb.lookBehind, t.hb.maxBlock) ≠ (s.hb.lookBehind, s.hb.maxBlock) →
      (∃ a b, i = .hbNew a b) ∨ ∃ a b, i = .fxNew a b) ∧
    (t.pk.kLen ≠ s.pk.kLen → (∃ a b, i = .pkLpf a b) ∨ (∃ xs, i = .pkLoadk xs) ∨ ∃ a b, i = .fxNew a b) ∧
    ((t.pk.nPhases, t.pk.m) ≠ (s.pk.nPhases, s.pk.m) → (∃ n, i = .pkSplit n) ∨ ∃ a b, i = .fxNew a b) ∧
    ((t.lfo.point, t.lfo.scale, t.lfo.alpha) ≠ (s.lfo.point, s.lfo.scale, s.lfo.alpha) →
      (∃ a b, i = .lfoNew a b) ∨ ∃ a b, i = .fxNew a b) ∧
    ((t.cmp.attack, t.cmp.release) ≠ (s.cmp.attack, s.cmp.release) →
      (∃ a, i = .cmpNew a) ∨ ∃ a b, i = .fxNew a b) ∧
    (∀ k, k < 4 → (t.aaf.get k).g ≠ (s.aaf.get k).g →
      (∃ j a, i = .aafNew j a ∧ j.toNat = k) ∨ ∃ a b, i = .fxNew a b) ∧
    (t.fx.fs ≠ s.fx.fs → ∃ a b, i = .fxNew a b)

/-- Rules R22, R162, R178: Running is entered by `FX.SETPROC 1` alone, and left by `FX.SETPROC 0` or `FX.NEW` alone. -/
def Obligations.RunningChangesOnlyByNamedOperations : Prop :=
  ∀ (i : Instr) (s t : State), exec i s = .next t →
    (s.fx.run = false → t.fx.run = true → i = .fxSetproc 1#32) ∧
    (s.fx.run = true → t.fx.run = false → i = .fxSetproc 0#32 ∨ ∃ a b, i = .fxNew a b)

/-- Rule R23: each field of STATUS, with the reserved bits zero. -/
def Obligations.StatusDisplaysTheFlags : Prop :=
  ∀ s : State,
    s.status.getLsbD 0 = s.fault ∧ s.status.extractLsb' 1 4 = s.cause ∧ s.status.extractLsb' 5 3 = 0#3 ∧
    s.status.getLsbD 8 = s.lfo.c ∧ s.status.getLsbD 9 = s.lfo.output.isSome ∧
    s.status.getLsbD 10 = s.hb.c ∧ s.status.getLsbD 11 = s.hb.view ∧
    s.status.getLsbD 12 = s.pk.kv ∧ s.status.getLsbD 13 = s.pk.sv ∧
    s.status.getLsbD 14 = s.cmp.c ∧ s.status.getLsbD 15 = s.fx.c ∧ s.status.getLsbD 16 = s.fx.run ∧
    (∀ k, k < 4 → s.status.getLsbD (17 + k) = (s.aaf.get k).c) ∧
    (∀ k, k < 4 → s.status.getLsbD (21 + k) = (s.aaf.get k).g.isSome) ∧
    s.status.extractLsb' 25 7 = 0#7

/-- Rules R27, R112, R114: while `PK.sv` = 1 the phases de-interleave to the kernel; power-on and every step keep it. -/
def Obligations.PhasesAlwaysMatchTheKernel : Prop :=
  (∀ cfg : Params, (State.powerOn cfg).splitMatches) ∧
  (∀ s t : State, s.Inv → s.splitMatches → step s = .next t → t.splitMatches)

/-- Rule R106: HBUF always holds the last samples given since construction or reset, through every operation; those an
FX.PROCESS gives are the compressed samples of its front half, the answers of `CMP.COMPRESS` (rule R158). -/
def Obligations.HistoryHoldsTheLastSamples : Prop :=
  (∀ cfg : Params, (State.powerOn cfg).HistoryIs []) ∧
  (∀ (i : Instr) (s t : State) (S : List F32), s.Inv → s.fault = false → s.HistoryIs S →
    exec i s = .next t → t.fault = false → ∃ S', Feeds i s S S' ∧ t.HistoryIs S')

/-- Rule R25: 0 ≤ `LFO.phase` < 1 after every step from a state in which it holds, and, whatever the register holds before
construction, while the LFO is constructed. That it holds at power-on, where the spec leaves the register unspecified, is
log 3's choice. -/
def Obligations.PhaseStaysInUnitInterval : Prop :=
  (∀ cfg : Params, (State.powerOn cfg).phaseInRange) ∧
  (∀ s t : State, s.phaseInRange → step s = .next t → t.phaseInRange) ∧
  (∀ s t : State, (s.lfo.c = true → s.phaseInRange) → step s = .next t → t.lfo.c = true → t.phaseInRange)

/-- Rules R24, R27, R58, R162, and every rule's "state written": the frame of each unit's operations, whether they complete
or fault. The chain's resets and FX.PROCESS keep the kernel store; every chain operation keeps filter 3, except where it
faults part-way and leaves free values there (log 12). -/
def Obligations.OperationsChangeOnlyTheirUnit : Prop :=
  ∀ (i : Instr) (s t : State), exec i s = .next t →
    t.cfg = s.cfg ∧ t.port = s.port ∧
    match i with
    | .lfoNew .. | .lfoStep .. | .lfoReset =>
        t = { s with lfo := t.lfo, fault := t.fault, cause := t.cause, resp := t.resp }
    | .hbNew .. | .hbProcess .. | .hbRelease | .hbReset =>
        t = { s with hb := t.hb, hbuf := t.hbuf, fault := t.fault, cause := t.cause, resp := t.resp }
    | .pkLpf .. | .pkLoadk .. =>
        t = { s with pk := t.pk, kram := t.kram, fault := t.fault, cause := t.cause, resp := t.resp }
    | .pkSplit .. =>
        t = { s with pk := t.pk, pram := t.pram, fault := t.fault, cause := t.cause, resp := t.resp }
    | .hbView | .hbRead .. | .dlRead .. | .cmpCompress .. | .cmpExpand .. | .nlShape .. | .fxParams .. =>
        t = { s with fault := t.fault, cause := t.cause, resp := t.resp }
    | .cmpNew .. | .cmpDetect .. | .cmpReset =>
        t = { s with cmp := t.cmp, fault := t.fault, cause := t.cause, resp := t.resp }
    | .aafNew k _ | .aafStep k _ | .aafReset k =>
        t = { s with aaf := t.aaf, fault := t.fault, cause := t.cause, resp := t.resp } ∧
        ∀ j, j < 4 → j ≠ k.toNat → t.aaf.get j = s.aaf.get j
    | .fxNew .. => ChainFrame s t
    | .fxSetproc .. | .fxProcess .. | .fxReset =>
        t.pk = s.pk ∧ t.kram = s.kram ∧ t.pram = s.pram ∧ ChainFrame s t

/-- Rule R195: a unit's reset restores exactly the state its constructor produced, from any later state with the same
configuration registers. -/
def Obligations.ResetRestoresWhatNewProduced : Prop :=
  ∀ (s t u : State), s.fault = false → u.fault = false → u.Inv →
    (∀ lo hi, exec (.lfoNew lo hi) s = .next t → t.fault = false →
      (u.lfo.c, u.lfo.point, u.lfo.scale, u.lfo.alpha) = (true, t.lfo.point, t.lfo.scale, t.lfo.alpha) →
      ∃ v, exec .lfoReset u = .next v ∧ v.lfo = t.lfo) ∧
    (∀ lb mb, exec (.hbNew lb mb) s = .next t → t.fault = false →
      (u.hb.c, u.hb.view, u.hb.lookBehind, u.hb.maxBlock) = (true, false, t.hb.lookBehind, t.hb.maxBlock) →
      ∃ v, exec .hbReset u = .next v ∧ v.hb = { t.hb with len := u.hb.len } ∧
        ∀ a, a < t.hb.lookBehind + t.hb.maxBlock → v.hbuf.read a = t.hbuf.read a) ∧
    (∀ fs, exec (.cmpNew fs) s = .next t → t.fault = false →
      (u.cmp.c, u.cmp.attack, u.cmp.release) = (true, t.cmp.attack, t.cmp.release) →
      ∃ v, exec .cmpReset u = .next v ∧ v.cmp = t.cmp) ∧
    (∀ (k : BitVec 8) fs, exec (.aafNew k fs) s = .next t → t.fault = false → k.toNat < u.cfg.nAaf.val →
      ((u.aaf.get k.toNat).c, (u.aaf.get k.toNat).g) = (true, (t.aaf.get k.toNat).g) →
      ∃ v, exec (.aafReset k) u = .next v ∧ v.aaf.get k.toNat = t.aaf.get k.toNat)

/-- Rules R156, R163, R192: two chains constructed alike, whatever they processed before, answer the same words and show
the same STATUS after `FX.SETPROC 1` for every list of operations, so for every sequence of blocks, bit for bit. -/
def Obligations.SettingRunningReplaysBitForBit : Prop :=
  ∀ s t : State, s.Inv → t.Inv → SameConstruction s t → s.fault = false → s.fx.c = true → s.hb.view = false →
    ∃ u v, exec (.fxSetproc 1#32) s = .next u ∧ exec (.fxSetproc 1#32) t = .next v ∧
      u.fault = false ∧ v.fault = false ∧ u.fx.run = true ∧ v.fx.run = true ∧ SameObservable u v ∧
      ∀ is : List Instr, observations is u = observations is v

/-! ## Arithmetic -/

/-- Rule R11 and D8: each operation on finite values is correctly rounded to nearest, ties to even: no finite binary32
value lies nearer to the exact result, and where another lies as near, the result is the even one (values in units of
2^-149). -/
def Obligations.OperationsRoundToNearest : Prop :=
  ∀ a b c : F32, F32.isFinite a = true → F32.isFinite b = true → F32.isFinite c = true →
    (F32.isFinite (F32.add a b) = true →
      RoundedTo (F32.add a b) c (F32.value a + F32.value b) 1) ∧
    (F32.isFinite (F32.sub a b) = true →
      RoundedTo (F32.sub a b) c (F32.value a - F32.value b) 1) ∧
    (F32.isFinite (F32.mul a b) = true →
      RoundedTo (F32.mul a b) c (F32.value a * F32.value b) F32.unit) ∧
    (F32.value b ≠ 0 → F32.isFinite (F32.div a b) = true →
      RoundedTo (F32.div a b) c (F32.value a * F32.unit) (F32.value b))

/-! ## The LFO -/

/-- Rule R90: `LFO.NEW`. -/
def Obligations.LfoNewConstructsTheLfo : Prop :=
  ∀ (s : State) (lo hi : F32), RefusedWhenFaulted (.lfoNew lo hi) s ∧ (s.fault = false →
    ((F32.isFinite lo && F32.isFinite hi && F32.le F32.zero lo && F32.lt lo hi) = true →
      exec (.lfoNew lo hi) s = .next { s with
        resp := []
        lfo := {
          c := true
          point := lfoPointOf s.cfg.lfoLaw lo hi
          scale := lfoScaleOf s.cfg.lfoLaw lo hi
          alpha := F32.sub F32.one
            (Config.exp (F32.div F32.minusOne (F32.mul F32.two (lfoPointOf s.cfg.lfoLaw lo hi))))
          phase := F32.zero
          output := none } }) ∧
    ((F32.isFinite lo && F32.isFinite hi && F32.le F32.zero lo && F32.lt lo hi) = false →
      exec (.lfoNew lo hi) s = .next (s.faulted 3#4)) ∧
    lfoPointOf .specDefault lo hi = F32.mul (F32.add lo hi) F32.half ∧
    lfoScaleOf .specDefault lo hi = F32.div (F32.sub hi lo) 0x42480000#32)

/-- Rule R91: `LFO.STEP`, its result, its registers and its checks. -/
def Obligations.LfoStepAdvancesOneSample : Prop :=
  ∀ (s : State) (incr depth : F32), RefusedWhenFaulted (.lfoStep incr depth) s ∧
    (s.fault = false → s.lfo.c = false → exec (.lfoStep incr depth) s = .next (s.faulted 2#4)) ∧
    (s.fault = false → s.lfo.c = true →
    ((F32.isFinite incr && F32.le F32.zero incr && F32.isFinite depth && F32.le F32.zero depth &&
        F32.le depth 0x42C80000#32) = true →
      ∀ tri instant smoothed phase : F32,
        tri = (if F32.lt F32.half s.lfo.phase = true then F32.sub F32.one s.lfo.phase else s.lfo.phase) →
        instant = F32.mul (F32.mul depth s.lfo.scale) (F32.sub tri F32.quarter) →
        (s.lfo.output = none → smoothed = instant) →
        (∀ o, s.lfo.output = some o → smoothed = F32.add o (F32.mul s.lfo.alpha (F32.sub instant o))) →
        (F32.lt incr F32.half = false → phase = s.lfo.phase) →
        (F32.lt incr F32.half = true → F32.le F32.one (F32.add s.lfo.phase incr) = false →
          phase = F32.add s.lfo.phase incr) →
        (F32.lt incr F32.half = true → F32.le F32.one (F32.add s.lfo.phase incr) = true →
          phase = F32.sub (F32.add s.lfo.phase incr) F32.one) →
        exec (.lfoStep incr depth) s = .next { s with
          resp := [F32.add s.lfo.point smoothed, F32.sub s.lfo.point smoothed]
          lfo := { s.lfo with phase := phase, output := some smoothed } }) ∧
    ((F32.isFinite incr && F32.le F32.zero incr && F32.isFinite depth && F32.le F32.zero depth &&
        F32.le depth 0x42C80000#32) = false →
      exec (.lfoStep incr depth) s = .next (s.faulted 7#4)))

/-- Rule R92: `LFO.RESET`. -/
def Obligations.LfoResetRestoresTheStart : Prop :=
  ∀ s : State, RefusedWhenFaulted (.lfoReset) s ∧
    (s.fault = false → s.lfo.c = false → exec (.lfoReset) s = .next (s.faulted 2#4)) ∧
    (s.fault = false → s.lfo.c = true →
    exec .lfoReset s = .next { s with resp := [], lfo := { s.lfo with phase := 0x00000000#32, output := none } })

/-- Rules R78 and R93: `LFO.RUN` answers all forward delays, then all reverse delays, and they are those of two passes
over the same registers, one for each sequence. -/
def Obligations.LfoRunAnswersTwoPasses : Prop :=
  ∀ (s : State) (samples : List (F32 × F32)), s.fault = false → s.lfo.c = true →
    (∀ p ∈ samples, isNonNegative p.1 = true ∧ isPercent p.2 = true) →
    ∃ t, issuePseudo (.lfoRun samples) s =
        .next (onePass F32.add s.lfo samples ++ onePass F32.sub s.lfo samples, t) ∧
      t.fault = false ∧ (onePass F32.add s.lfo samples).length = samples.length ∧
      t.lfo.point = s.lfo.point ∧ t.lfo.scale = s.lfo.scale ∧ t.lfo.alpha = s.lfo.alpha ∧
      t.hbuf = s.hbuf ∧ t.kram = s.kram ∧ t.pram = s.pram ∧ t.hb = s.hb ∧ t.cmp = s.cmp ∧ t.aaf = s.aaf ∧ t.fx = s.fx

/-! ## The history buffer -/

/-- Rule R100: `HB.NEW`. -/
def Obligations.HbNewConstructsAZeroedBuffer : Prop :=
  ∀ (s : State) (lb mb : Word), RefusedWhenFaulted (.hbNew lb mb) s ∧ (s.fault = false →
    (1 ≤ mb.toNat → mb.toNat ≤ 65535 → lb.toNat + mb.toNat ≤ s.cfg.hbufWords →
      ∃ t, exec (.hbNew lb mb) s = .next t ∧
        t = { s with
          resp := []
          hb := { c := true, view := false, lookBehind := lb.toNat, maxBlock := mb.toNat, len := 0 }
          hbuf := t.hbuf } ∧
        ∀ a, t.hbuf.read a = if a < lb.toNat + mb.toNat then 0#32 else s.hbuf.read a) ∧
    (¬ (1 ≤ mb.toNat ∧ mb.toNat ≤ 65535 ∧ lb.toNat + mb.toNat ≤ s.cfg.hbufWords) →
      exec (.hbNew lb mb) s = .next (s.faulted 3#4)))

/-- Rule R101: `HB.PROCESS`, with its checks in order. -/
def Obligations.HbProcessWritesTheBlockAfterTheHistory : Prop :=
  ∀ (s : State) (xs : List F32), s.Inv → RefusedWhenFaulted (.hbProcess xs) s ∧
    (s.fault = false → s.hb.c = false → exec (.hbProcess xs) s = .next (s.faulted 2#4)) ∧
    (s.fault = false → s.hb.c = true →
    (xs.length ≤ s.hb.maxBlock → s.hb.view = false →
      ∃ t, exec (.hbProcess xs) s = .next t ∧
        t = { s with resp := [], hb := { s.hb with len := xs.length, view := true }, hbuf := t.hbuf } ∧
        ∀ a, t.hbuf.read a =
          if s.hb.lookBehind ≤ a ∧ a < s.hb.lookBehind + xs.length then xs.getD (a - s.hb.lookBehind) 0#32
          else s.hbuf.read a) ∧
    (s.hb.maxBlock < xs.length → exec (.hbProcess xs) s = .next (s.faulted 4#4)) ∧
    (xs.length ≤ s.hb.maxBlock → s.hb.view = true → exec (.hbProcess xs) s = .next (s.faulted 5#4)))

/-- Rule R102: `HB.VIEW`. -/
def Obligations.HbViewAnswersTheWholeView : Prop :=
  ∀ s : State, s.Inv → RefusedWhenFaulted (.hbView) s ∧
    (s.fault = false → s.hb.c = false → exec (.hbView) s = .next (s.faulted 2#4)) ∧
    (s.fault = false → s.hb.c = true →
    (s.hb.view = true →
      exec .hbView s = .next { s with resp := (List.range (s.hb.lookBehind + s.hb.len)).map s.hbuf.read }) ∧
    (s.hb.view = false → exec .hbView s = .next (s.faulted 5#4)))

/-- Rule R103: `HB.READ`, with its checks in order. -/
def Obligations.HbReadAnswersASubRange : Prop :=
  ∀ (s : State) (start count : Word), s.Inv → RefusedWhenFaulted (.hbRead start count) s ∧
    (s.fault = false → s.hb.c = false → exec (.hbRead start count) s = .next (s.faulted 2#4)) ∧
    (s.fault = false → s.hb.c = true →
    (s.hb.view = true → start.toNat + count.toNat ≤ s.hb.lookBehind + s.hb.len →
      exec (.hbRead start count) s = .next
        { s with resp := (List.range count.toNat).map fun j => s.hbuf.read (start.toNat + j) }) ∧
    (s.hb.view = false → exec (.hbRead start count) s = .next (s.faulted 5#4)) ∧
    (s.hb.view = true → s.hb.lookBehind + s.hb.len < start.toNat + count.toNat →
      exec (.hbRead start count) s = .next (s.faulted 6#4)))

/-- Rules R104 and R198: `HB.RELEASE` moves the newest `look_behind` samples of the view to the front, however the ranges
overlap, and closes the view. -/
def Obligations.HbReleaseMovesTheNewestToTheFront : Prop :=
  ∀ s : State, s.Inv → RefusedWhenFaulted (.hbRelease) s ∧
    (s.fault = false → s.hb.c = false → exec (.hbRelease) s = .next (s.faulted 2#4)) ∧
    (s.fault = false → s.hb.c = true →
    (s.hb.view = true →
      ∃ t, exec .hbRelease s = .next t ∧
        t = { s with resp := [], hb := { s.hb with view := false }, hbuf := t.hbuf } ∧
        ∀ a, t.hbuf.read a = if a < s.hb.lookBehind then s.hbuf.read (a + s.hb.len) else s.hbuf.read a) ∧
    (s.hb.view = false → exec .hbRelease s = .next (s.faulted 5#4)))

/-- Rule R105: `HB.RESET`. -/
def Obligations.HbResetZeroFillsTheBuffer : Prop :=
  ∀ s : State, s.Inv → RefusedWhenFaulted (.hbReset) s ∧
    (s.fault = false → s.hb.c = false → exec (.hbReset) s = .next (s.faulted 2#4)) ∧
    (s.fault = false → s.hb.c = true →
    (s.hb.view = false →
      ∃ t, exec .hbReset s = .next t ∧ t = { s with resp := [], hbuf := t.hbuf } ∧
        ∀ a, t.hbuf.read a = if a < s.hb.lookBehind + s.hb.maxBlock then 0#32 else s.hbuf.read a) ∧
    (s.hb.view = true → exec .hbReset s = .next (s.faulted 5#4)))

/-! ## The kernel -/

/-- Rules R110 and R115: `PK.LPF`, with the default kernel's taps. -/
def Obligations.PkLpfBuildsTheKernel : Prop :=
  ∀ (s : State) (length : Word) (increment : F32), s.Inv → RefusedWhenFaulted (.pkLpf length increment) s ∧ (s.fault = false →
    (1 ≤ length.toNat → length.toNat ≤ s.cfg.kramWords → F32.isFinite increment = true →
      F32.lt F32.zero increment = true →
      ∃ t, exec (.pkLpf length increment) s = .next t ∧
        t = { s with resp := [], pk := { s.pk with kLen := length.toNat, kv := true, sv := false }, kram := t.kram } ∧
        (∀ a, length.toNat ≤ a → t.kram.read a = s.kram.read a) ∧
        (s.cfg.lpf = .replaced → ∀ i, i < length.toNat →
          t.kram.read i = Config.lpfTap length.toNat increment i) ∧
        (s.cfg.lpf = .specDefault → ∀ i, i < length.toNat →
          ∀ x u sinc window : F32,
            x = F32.mul increment (F32.sub (F32.ofNat i) (F32.mul (F32.ofNat length.toNat) F32.half)) →
            u = F32.div (F32.ofNat i) (F32.ofNat length.toNat) →
            sinc = (if F32.eq x F32.zero = true then F32.one
              else F32.div (Config.sin (F32.mul F32.pi x)) (F32.mul F32.pi x)) →
            window = F32.sub (F32.add
                (F32.sub (F32.ofRat 35875 100000)
                  (F32.mul (F32.ofRat 48829 100000) (Config.cos (F32.mul (F32.mul (F32.ofNat 2) F32.pi) u))))
                (F32.mul (F32.ofRat 14128 100000) (Config.cos (F32.mul (F32.mul (F32.ofNat 4) F32.pi) u))))
              (F32.mul (F32.ofRat 1168 100000) (Config.cos (F32.mul (F32.mul (F32.ofNat 6) F32.pi) u))) →
            t.kram.read i = F32.mul sinc window)) ∧
    (¬ (1 ≤ length.toNat ∧ length.toNat ≤ s.cfg.kramWords ∧ F32.isFinite increment = true ∧
        F32.lt F32.zero increment = true) →
      exec (.pkLpf length increment) s = .next (s.faulted 3#4)))

/-- Rule R111: `PK.LOADK`. That a list of 2^32 taps or more, which no packet carries, faults even where KRAM holds it is
the model's choice (log 16, DEDUCED from rule R57), no part of R111's own check. -/
def Obligations.PkLoadkLoadsTheTaps : Prop :=
  ∀ (s : State) (taps : List F32), s.Inv → RefusedWhenFaulted (.pkLoadk taps) s ∧ (s.fault = false →
    (1 ≤ taps.length → taps.length ≤ s.cfg.kramWords → taps.length < 2 ^ 32 →
      ∃ t, exec (.pkLoadk taps) s = .next t ∧
        t = { s with resp := [], pk := { s.pk with kLen := taps.length, kv := true, sv := false }, kram := t.kram } ∧
        ∀ a, t.kram.read a = if a < taps.length then taps.getD a 0#32 else s.kram.read a) ∧
    (¬ (1 ≤ taps.length ∧ taps.length ≤ s.cfg.kramWords ∧ taps.length < 2 ^ 32) →
      exec (.pkLoadk taps) s = .next (s.faulted 3#4)))

/-- Rule R113: `PK.SPLIT` and its index law. -/
def Obligations.PkSplitDeinterleavesTheKernel : Prop :=
  ∀ (s : State) (n : Word), s.Inv → RefusedWhenFaulted (.pkSplit n) s ∧
    (s.fault = false → s.pk.kv = false → exec (.pkSplit n) s = .next (s.faulted 2#4)) ∧
    (s.fault = false → s.pk.kv = true →
    (1 ≤ n.toNat → s.pk.kLen % n.toNat = 0 →
      ∃ t, exec (.pkSplit n) s = .next t ∧
        t = { s with
          resp := [], pk := { s.pk with nPhases := n.toNat, m := s.pk.kLen / n.toNat, sv := true }, pram := t.pram } ∧
        (∀ p j, p < n.toNat → j < s.pk.kLen / n.toNat →
          t.pram.read (p * (s.pk.kLen / n.toNat) + j) =
            s.kram.read ((s.pk.kLen / n.toNat - 1 - j) * n.toNat + p)) ∧
        ∀ a, s.pk.kLen ≤ a → t.pram.read a = s.pram.read a) ∧
    (¬ (1 ≤ n.toNat ∧ s.pk.kLen % n.toNat = 0) → exec (.pkSplit n) s = .next (s.faulted 3#4)))

/-! ## The delay line -/

/-- Rules R120 and R121: `DL.READ`, with the default phase selector and the checks in order. -/
def Obligations.DlReadIsOneDotProduct : Prop :=
  ∀ (s : State) (i : Word) (delay : F32) (back : Int) (p : Nat),
    s.Inv → RefusedWhenFaulted (.dlRead i delay) s ∧
    (s.fault = false → s.hb.c = false ∨ s.pk.sv = false → exec (.dlRead i delay) s = .next (s.faulted 2#4)) ∧
    (s.fault = false → s.hb.c = true → s.pk.sv = true →
    (s.cfg.phaseSel = .replaced →
      back = Config.phaseBack delay s.pk.nPhases s.pk.m ∧
      p = Config.phaseIndex delay s.pk.nPhases s.pk.m % s.pk.nPhases) →
    (s.cfg.phaseSel = .specDefault →
      ∀ whole r : Nat, whole = F32.floorNat delay →
        r = min (F32.floorNat (F32.mul (F32.sub delay (F32.ofNat whole)) (F32.ofNat s.pk.nPhases)))
          (s.pk.nPhases - 1) →
        (r = 0 → back = (whole : Int) - (s.pk.m / 2 : Nat) ∧ p = 0) ∧
        (r ≠ 0 → back = (whole : Int) + 1 - (s.pk.m / 2 : Nat) ∧ p = s.pk.nPhases - r)) →
    (s.hb.view = false → exec (.dlRead i delay) s = .next (s.faulted 5#4)) ∧
    (s.hb.view = true → s.hb.len ≤ i.toNat → exec (.dlRead i delay) s = .next (s.faulted 6#4)) ∧
    (s.hb.view = true → i.toNat < s.hb.len →
      (F32.isFinite delay && F32.le F32.zero delay) = false → exec (.dlRead i delay) s = .next (s.faulted 7#4)) ∧
    (s.hb.view = true → i.toNat < s.hb.len → (F32.isFinite delay && F32.le F32.zero delay) = true →
      ∀ a start : Int, a = (s.hb.lookBehind : Int) + i.toNat - back → start = a - s.pk.m + 1 →
        (start < 0 ∨ (s.hb.lookBehind : Int) + s.hb.len - 1 < a → exec (.dlRead i delay) s = .next (s.faulted 6#4)) ∧
        (0 ≤ start → a ≤ (s.hb.lookBehind : Int) + s.hb.len - 1 →
          exec (.dlRead i delay) s = .next { s with
            resp := [(List.range s.pk.m).foldl
              (fun acc j => F32.add acc
                (F32.mul (s.pram.read (p * s.pk.m + j)) (s.hbuf.read (start.toNat + j)))) F32.zero] })))

/-- Rule R122: with the default phase selector, a delay the history is sized for is always readable. -/
def Obligations.SizedDelaysAreReadable : Prop :=
  ∀ (s : State) (i : Word) (delay : F32), s.Inv → s.fault = false → s.hb.c = true → s.pk.sv = true →
    s.hb.view = true → s.cfg.phaseSel = .specDefault → i.toNat < s.hb.len → delayFits s i.toNat delay →
    ∃ y, exec (.dlRead i delay) s = .next { s with resp := [y] }

/-! ## The compander -/

/-- Rule R130: `CMP.NEW`. -/
def Obligations.CmpNewConstructsTheDetector : Prop :=
  ∀ (s : State) (fs : F32), RefusedWhenFaulted (.cmpNew fs) s ∧ (s.fault = false →
    ((F32.isFinite fs && F32.lt F32.zero fs) = true →
      exec (.cmpNew fs) s = .next { s with
        resp := []
        cmp := {
          c := true
          release := F32.sub F32.one (Config.exp (F32.div F32.minusOne (F32.mul 0x3C23D70A#32 fs)))
          attack := F32.sub F32.one
            (Config.exp (F32.div F32.minusOne (F32.mul (F32.div 0x3C23D70A#32 (F32.ofNat 20)) fs)))
          env := F32.one } }) ∧
    ((F32.isFinite fs && F32.lt F32.zero fs) = false → exec (.cmpNew fs) s = .next (s.faulted 3#4)))

/-- Rule R131: `CMP.DETECT`. -/
def Obligations.CmpDetectMovesTheEnvelope : Prop :=
  ∀ (s : State) (x c env : F32), RefusedWhenFaulted (.cmpDetect x) s ∧
    (s.fault = false → s.cmp.c = false → exec (.cmpDetect x) s = .next (s.faulted 2#4)) ∧
    (s.fault = false → s.cmp.c = true →
    c = (if F32.lt s.cmp.env (F32.abs x) = true then s.cmp.attack else s.cmp.release) →
    env = F32.add s.cmp.env (F32.mul c (F32.sub (F32.abs x) s.cmp.env)) →
    exec (.cmpDetect x) s = .next { s with resp := [env], cmp := { s.cmp with env := env } })

/-- Rule R132: `CMP.RESET`. -/
def Obligations.CmpResetRestoresOne : Prop :=
  ∀ s : State, RefusedWhenFaulted (.cmpReset) s ∧
    (s.fault = false → s.cmp.c = false → exec (.cmpReset) s = .next (s.faulted 2#4)) ∧
    (s.fault = false → s.cmp.c = true →
    exec .cmpReset s = .next { s with resp := [], cmp := { s.cmp with env := 0x3F800000#32 } })

/-- Rules R133 and R134: `CMP.COMPRESS` and `CMP.EXPAND`. -/
def Obligations.CompressAndExpandAreStateless : Prop :=
  ∀ (s : State) (signal level : F32), RefusedWhenFaulted (.cmpCompress signal level) s ∧ RefusedWhenFaulted (.cmpExpand signal level) s ∧ (s.fault = false →
    exec (.cmpCompress signal level) s = .next
      { s with resp := [F32.div (F32.add signal s.cfg.eps) (F32.add level s.cfg.eps)] } ∧
    exec (.cmpExpand signal level) s = .next { s with resp := [F32.mul signal level] })

/-! ## The waveshaper -/

/-- Rule R140: `NL.SHAPE`, its constants, its three regions and the zeros. -/
def Obligations.NlShapeIsTheCubic : Prop :=
  ∀ (s : State) (x : F32), RefusedWhenFaulted (.nlShape x) s ∧ (s.fault = false →
    (F32.lt F32.one (F32.abs x) = true → F32.lt F32.zero x = true →
      exec (.nlShape x) s = .next { s with resp := [F32.sub x (F32.add 0x3B800000#32 0x3AE38E39#32)] }) ∧
    (F32.lt F32.one (F32.abs x) = true → F32.lt F32.zero x = false →
      exec (.nlShape x) s = .next { s with resp := [F32.add x (F32.add 0x3B800000#32 0x3AE38E39#32)] }) ∧
    (F32.lt F32.one (F32.abs x) = false →
      exec (.nlShape x) s = .next { s with
        resp := [F32.sub (F32.sub x (F32.mul 0x3B800000#32 (F32.mul x x)))
          (F32.mul 0x3AE38E39#32 (F32.mul (F32.mul x x) x))] }) ∧
    (x = 0x00000000#32 ∨ x = 0x80000000#32 → exec (.nlShape x) s = .next { s with resp := [0x00000000#32] }) ∧
    (F32.isNaN x = true → ∃ y, F32.isNaN y = true ∧ exec (.nlShape x) s = .next { s with resp := [y] }))

/-! ## The filters -/

/-- Rules R145 and R148: `AAF.NEW.k`, with the disable threshold of 22000 Hz. -/
def Obligations.AafNewConstructsTheInstance : Prop :=
  ∀ (s : State) (k : BitVec 8) (fs : F32), RefusedWhenFaulted (.aafNew k fs) s ∧
    (s.fault = false → s.cfg.nAaf.val ≤ k.toNat → exec (.aafNew k fs) s = .next (s.faulted 9#4)) ∧
    (s.fault = false → k.toNat < s.cfg.nAaf.val →
    ((F32.isFinite fs && F32.lt F32.zero fs) = true →
      ∀ g : Option F32,
        (F32.le fs 0x46ABE000#32 = true → g = none) →
        (F32.le fs 0x46ABE000#32 = false → s.cfg.svf = .specDefault →
          g = some (Config.tan (F32.div (F32.mul F32.pi 0x461C4000#32) fs))) →
        (F32.le fs 0x46ABE000#32 = false → s.cfg.svf = .replaced → g = some (Config.svfG 0x461C4000#32 fs)) →
        exec (.aafNew k fs) s = .next { s with
          resp := []
          aaf := s.aaf.set k.toNat { c := true, g := g, stage0 := ⟨0#32, 0#32⟩, stage1 := ⟨0#32, 0#32⟩ } }) ∧
    ((F32.isFinite fs && F32.lt F32.zero fs) = false → exec (.aafNew k fs) s = .next (s.faulted 3#4)))

/-- Rules R146 and R148: `AAF.STEP.k` runs the two stages in cascade; an unset `g` forces both inputs to +0.0 and the
coefficient to 0.0; with the default recursion written out. -/
def Obligations.AafStepRunsTheTwoStages : Prop :=
  ∀ (s : State) (k : BitVec 8) (x : F32) (f : Aaf) (r0 r1 : F32 × F32 × F32), RefusedWhenFaulted (.aafStep k x) s ∧
    (s.fault = false → s.cfg.nAaf.val ≤ k.toNat → exec (.aafStep k x) s = .next (s.faulted 9#4)) ∧
    (s.fault = false → k.toNat < s.cfg.nAaf.val → (s.aaf.get k.toNat).c = false →
      exec (.aafStep k x) s = .next (s.faulted 2#4)) ∧
    (s.fault = false → k.toNat < s.cfg.nAaf.val → f = s.aaf.get k.toNat → f.c = true →
    r0 = svf s.cfg.svf (f.g.getD 0#32) 0x3F43EF15#32 f.stage0.s0 f.stage0.s1 (if f.g = none then 0#32 else x) →
    r1 = svf s.cfg.svf (f.g.getD 0#32) 0x3FEC835E#32 f.stage1.s0 f.stage1.s1 (if f.g = none then 0#32 else r0.2.2) →
    exec (.aafStep k x) s = .next { s with
      resp := [r1.2.2]
      aaf := s.aaf.set k.toNat { f with stage0 := ⟨r0.1, r0.2.1⟩, stage1 := ⟨r1.1, r1.2.1⟩ } } ∧
    ∀ g kd s0 s1 y d hp v1 bp v2 lp : F32,
      d = F32.div F32.one (F32.add F32.one (F32.mul g (F32.add g kd))) →
      hp = F32.mul (F32.sub (F32.sub y (F32.mul (F32.add g kd) s0)) s1) d →
      v1 = F32.mul g hp → bp = F32.add v1 s0 → v2 = F32.mul g bp → lp = F32.add v2 s1 →
      svf .specDefault g kd s0 s1 y = (F32.add bp v1, F32.add lp v2, lp))

/-- Rule R147: `AAF.RESET.k`. -/
def Obligations.AafResetZeroesTheState : Prop :=
  ∀ (s : State) (k : BitVec 8), RefusedWhenFaulted (.aafReset k) s ∧
    (s.fault = false → s.cfg.nAaf.val ≤ k.toNat → exec (.aafReset k) s = .next (s.faulted 9#4)) ∧
    (s.fault = false → k.toNat < s.cfg.nAaf.val → (s.aaf.get k.toNat).c = false →
      exec (.aafReset k) s = .next (s.faulted 2#4)) ∧
    (s.fault = false → k.toNat < s.cfg.nAaf.val → (s.aaf.get k.toNat).c = true →
    exec (.aafReset k) s = .next { s with
      resp := []
      aaf := s.aaf.set k.toNat
        { s.aaf.get k.toNat with stage0 := ⟨0#32, 0#32⟩, stage1 := ⟨0#32, 0#32⟩ } })

/-- Rules R146 and R149: a disabled filter answers +0.0 for every input and keeps its zero state, for ever. -/
def Obligations.DisabledFilterIsSilent : Prop :=
  ∀ (s : State) (k : BitVec 8) (x : F32), s.fault = false → k.toNat < s.cfg.nAaf.val →
    s.aaf.get k.toNat = { c := true, g := none, stage0 := ⟨0#32, 0#32⟩, stage1 := ⟨0#32, 0#32⟩ } →
    ∃ t, exec (.aafStep k x) s = .next t ∧ t.resp = [0x00000000#32] ∧ t.aaf.get k.toNat = s.aaf.get k.toNat

/-! ## The chain controller -/

/-- Rule R155: `FX.NEW` constructs every unit with the machine's parameters, and starts Idle; where a constituent's own
check fails it faults, precisely where that is the first, PK.LPF (rules R170, R172). The model's choices in it: that a
`K_LEN` or look-behind of 2^32 or more faults with BAD_CONFIG (log 16), and what becomes of a negative or non-finite
`LFO_MAX` (log 23), both DEDUCED from rules R57 and R171; no rule says them of FX.NEW. -/
def Obligations.FxNewConstructsTheChain : Prop :=
  ∀ (s : State) (fs : F32) (mb : Word) (lo hi : F32) (m : Nat) (g : Option F32), s.Inv →
    RefusedWhenFaulted (.fxNew fs mb) s ∧
    (s.fault = false →
      ¬ ((F32.isFinite fs && F32.lt F32.zero fs) = true ∧ 1 ≤ mb.toNat ∧ mb.toNat ≤ 65535) →
      exec (.fxNew fs mb) s = .next (s.faulted 3#4)) ∧
    (s.fault = false →
    (F32.isFinite fs && F32.lt F32.zero fs) = true → 1 ≤ mb.toNat → mb.toNat ≤ 65535 →
    m = s.cfg.kLen / s.cfg.nPhases → (lo, hi) = fxLfoBounds s.cfg fs →
    (¬ KernelFits s.cfg → exec (.fxNew fs mb) s = .next (s.faulted 3#4)) ∧
    (¬ ConstituentsFit s.cfg lo hi m mb.toNat →
      ∃ t, exec (.fxNew fs mb) s = .next t ∧ t.fault = true ∧ t.cause = 3#4 ∧ t.resp = []) ∧
    (ConstituentsFit s.cfg lo hi m mb.toNat → s.cfg.nAaf.val < 3 →
      ∃ t, exec (.fxNew fs mb) s = .next t ∧ t.fault = true ∧ t.cause = 9#4 ∧ t.resp = []) ∧
    (ConstituentsFit s.cfg lo hi m mb.toNat → 3 ≤ s.cfg.nAaf.val →
    g = (if F32.le fs 0x46ABE000#32 = true then none else some (svfCoefficient s.cfg.svf 0x461C4000#32 fs)) →
    ∃ t, exec (.fxNew fs mb) s = .next t ∧
      t = { s with
        resp := []
        pk := { kv := true, sv := true, kLen := s.cfg.kLen, nPhases := s.cfg.nPhases, m := m }
        kram := t.kram
        pram := t.pram
        hb := { c := true, view := false, lookBehind := F32.floorNat hi + (m + 1) / 2, maxBlock := mb.toNat, len := 0 }
        hbuf := t.hbuf
        lfo := t.lfo
        cmp := t.cmp
        aaf := { s.aaf with
          f0 := { c := true, g := g, stage0 := ⟨0#32, 0#32⟩, stage1 := ⟨0#32, 0#32⟩ }
          f1 := { c := true, g := g, stage0 := ⟨0#32, 0#32⟩, stage1 := ⟨0#32, 0#32⟩ }
          f2 := { c := true, g := g, stage0 := ⟨0#32, 0#32⟩, stage1 := ⟨0#32, 0#32⟩ } }
        fx := { c := true, run := false, fs := fs } } ∧
      (∀ a, t.hbuf.read a =
        if a < F32.floorNat hi + (m + 1) / 2 + mb.toNat then 0#32 else s.hbuf.read a) ∧
      (∃ u, exec (.lfoNew lo hi) s = .next u ∧ t.lfo = u.lfo) ∧
      (∃ u, exec (.cmpNew fs) s = .next u ∧ t.cmp = u.cmp) ∧
      (∀ a, t.kram.read a =
        if a < s.cfg.kLen then (lpfTaps s.cfg.lpf s.cfg.kLen s.cfg.kInc).getD a 0#32 else s.kram.read a) ∧
      (∀ p j, p < s.cfg.nPhases → j < m → t.pram.read (p * m + j) = t.kram.read ((m - 1 - j) * s.cfg.nPhases + p)) ∧
      ∀ a, s.cfg.kLen ≤ a → t.pram.read a = s.pram.read a))

/-- Rule R156: `FX.SETPROC`, with its checks in order: 1 resets every stage and enters Running, 0 enters Idle. -/
def Obligations.FxSetprocSwitchesTheMode : Prop :=
  ∀ (s : State) (on : Word), s.Inv → RefusedWhenFaulted (.fxSetproc on) s ∧
    (s.fault = false → s.fx.c = false → exec (.fxSetproc on) s = .next (s.faulted 2#4)) ∧
    (s.fault = false → s.fx.c = true →
    (on = 1#32 → s.hb.view = false →
      ∃ t, exec (.fxSetproc on) s = .next t ∧
        t = { s with
          resp := []
          lfo := { s.lfo with phase := 0#32, output := none }
          hbuf := t.hbuf
          cmp := { s.cmp with env := 0x3F800000#32 }
          aaf := { s.aaf with
            f0 := { s.aaf.f0 with stage0 := ⟨0#32, 0#32⟩, stage1 := ⟨0#32, 0#32⟩ }
            f1 := { s.aaf.f1 with stage0 := ⟨0#32, 0#32⟩, stage1 := ⟨0#32, 0#32⟩ }
            f2 := { s.aaf.f2 with stage0 := ⟨0#32, 0#32⟩, stage1 := ⟨0#32, 0#32⟩ } }
          fx := { s.fx with run := true } } ∧
        ∀ a, t.hbuf.read a = if a < s.hb.lookBehind + s.hb.maxBlock then 0#32 else s.hbuf.read a) ∧
    (on = 0#32 → exec (.fxSetproc on) s = .next { s with resp := [], fx := { s.fx with run := false } }) ∧
    (on ≠ 0#32 → on ≠ 1#32 → exec (.fxSetproc on) s = .next (s.faulted 7#4)) ∧
    (on = 1#32 → s.hb.view = true → exec (.fxSetproc on) s = .next (s.faulted 5#4)))

/-- Rule R159: `FX.RESET` resets every stage and keeps the mode. -/
def Obligations.FxResetResetsEveryStage : Prop :=
  ∀ s : State, s.Inv → RefusedWhenFaulted (.fxReset) s ∧
    (s.fault = false → s.fx.c = false → exec (.fxReset) s = .next (s.faulted 2#4)) ∧
    (s.fault = false → s.fx.c = true →
    (s.hb.view = false →
      ∃ t, exec .fxReset s = .next t ∧
        t = { s with
          resp := []
          lfo := { s.lfo with phase := 0#32, output := none }
          hbuf := t.hbuf
          cmp := { s.cmp with env := 0x3F800000#32 }
          aaf := { s.aaf with
            f0 := { s.aaf.f0 with stage0 := ⟨0#32, 0#32⟩, stage1 := ⟨0#32, 0#32⟩ }
            f1 := { s.aaf.f1 with stage0 := ⟨0#32, 0#32⟩, stage1 := ⟨0#32, 0#32⟩ }
            f2 := { s.aaf.f2 with stage0 := ⟨0#32, 0#32⟩, stage1 := ⟨0#32, 0#32⟩ } } } ∧
        ∀ a, t.hbuf.read a = if a < s.hb.lookBehind + s.hb.maxBlock then 0#32 else s.hbuf.read a) ∧
    (s.hb.view = true → exec .fxReset s = .next (s.faulted 5#4)))

/-- Rules R157 and R160: `FX.PARAMS` checks every tuple's range and changes nothing. -/
def Obligations.FxParamsChecksAndChangesNothing : Prop :=
  ∀ (s : State) (ps : List ParamSample), RefusedWhenFaulted (.fxParams ps) s ∧
    (s.fault = false → s.fx.c = false → exec (.fxParams ps) s = .next (s.faulted 2#4)) ∧
    (s.fault = false → s.fx.c = true →
    ((∀ p ∈ ps, (F32.isFinite p.rate && F32.isFinite p.depth && F32.isFinite p.mix &&
        F32.le 0x3DA3D70A#32 p.rate && F32.le p.rate 0x4121999A#32 &&
        F32.le 0#32 p.depth && F32.le p.depth 0x42C80000#32 &&
        F32.le 0#32 p.mix && F32.le p.mix 0x42C80000#32) = true ∧ (p.bypass = 0#32 ∨ p.bypass = 1#32)) →
      exec (.fxParams ps) s = .next { s with resp := [] }) ∧
    (¬ (∀ p ∈ ps, (F32.isFinite p.rate && F32.isFinite p.depth && F32.isFinite p.mix &&
        F32.le 0x3DA3D70A#32 p.rate && F32.le p.rate 0x4121999A#32 &&
        F32.le 0#32 p.depth && F32.le p.depth 0x42C80000#32 &&
        F32.le 0#32 p.mix && F32.le p.mix 0x42C80000#32) = true ∧ (p.bypass = 0#32 ∨ p.bypass = 1#32)) →
      exec (.fxParams ps) s = .next (s.faulted 7#4)))

/-- Rule R161: `MIX`. -/
def Obligations.MixIsALinearCrossfade : Prop :=
  ∀ dry wet mix bypass : F32,
    (bypass = 1#32 → mixSample dry wet mix bypass = dry) ∧
    (bypass ≠ 1#32 → mixSample dry wet mix bypass =
      F32.add (F32.mul dry (F32.sub F32.one (F32.div mix 0x42C80000#32))) (F32.mul wet (F32.div mix 0x42C80000#32))) ∧
    (bypass ≠ 1#32 → F32.isFinite wet = true → F32.isNaN dry = false →
      F32.eq (mixSample dry wet 0x00000000#32 bypass) dry = true ∧
      (F32.order dry ≠ 0 → mixSample dry wet 0x00000000#32 bypass = dry)) ∧
    (bypass ≠ 1#32 → F32.isFinite dry = true → F32.isNaN wet = false →
      F32.eq (mixSample dry wet 0x42C80000#32 bypass) wet = true ∧
      (F32.order wet ≠ 0 → mixSample dry wet 0x42C80000#32 bypass = wet))

/-- Rules R158 and R122: `FX.PROCESS` completes on a block whose parameters are in range and whose delays the history is
sized for; it answers two outputs per sample and closes the view again. `HB.len` is left at the block's length: for the
empty block that is 0, by R101 of the constituent `HB.PROCESS #0`, although R158's corner case says "no state changes"; the
model's reading there is log 18 (DEDUCED, not the spec's own words). -/
def Obligations.FxProcessCompletesOnSizedDelays : Prop :=
  ∀ (s : State) (block : List FxSample), s.Inv → s.fault = false → s.fx.c = true → s.fx.run = true →
    block.length ≤ s.hb.maxBlock → s.hb.view = false → s.pk.sv = true → s.cfg.phaseSel = .specDefault →
    (∀ p ∈ block, isInRange p.params = true ∧ isNonNegative (F32.div p.params.rate s.fx.fs) = true) →
    (∀ i d, (delaysOver s.lfo (block.map fun p => (F32.div p.params.rate s.fx.fs, p.params.depth)))[i]? = some d →
      delayFits s i d.1 ∧ delayFits s i d.2) →
    ∃ t, exec (.fxProcess block) s = .next t ∧ t.fault = false ∧ t.resp.length = 2 * block.length ∧
      t.hb = { s.hb with len := block.length } ∧ t.fx = s.fx ∧
      t.lfo.point = s.lfo.point ∧ t.lfo.scale = s.lfo.scale ∧ t.lfo.alpha = s.lfo.alpha ∧
      t.cmp.attack = s.cmp.attack ∧ t.cmp.release = s.cmp.release ∧ t.aaf.f3 = s.aaf.f3 ∧
      t.pk = s.pk ∧ t.kram = s.kram ∧ t.pram = s.pram ∧ t.freed = s.freed ∧
      ∀ a, s.hb.lookBehind + block.length ≤ a → t.hbuf.read a = s.hbuf.read a

/-- Rules R135 and R158: where the host's own program of unit commands runs without a fault, `FX.PROCESS` answers the same
outputs and leaves the same state; where one of those commands faults, `FX.PROCESS` records the `CAUSE` of the first that
does and answers nothing (rule R172 item 1). The same level goes to compress and to expand. For the empty block the
program's `HB.PROCESS #0` sets `HB.len` to 0, where R158's corner case says "no state changes": that `FX.PROCESS` does so
too is the model's reading, log 18 (DEDUCED, not the spec's own words). -/
def Obligations.FxProcessIsTheUnitCommands : Prop :=
  ∀ (s : State) (block : List FxSample), s.Inv → s.fault = false → s.fx.c = true →
    s.fx.run = true → block.length ≤ s.hb.maxBlock → s.hb.view = false →
    (∀ p ∈ block, isInRange p.params = true) →
    (∀ outs t, hostChain block s = .ok (outs, t) → exec (.fxProcess block) s = .next { t with resp := outs }) ∧
    (∀ cause, hostChain block s = .error cause →
      (∃ c : Cause, cause = causeCode c) ∧
      ∃ t, exec (.fxProcess block) s = .next t ∧ t.fault = true ∧ t.cause = cause ∧ t.resp = [])

/-- Rules R158 and R173: the checks of `FX.PROCESS` in their order, before any constituent runs. -/
def Obligations.FxProcessChecksInOrder : Prop :=
  ∀ (s : State) (block : List FxSample), RefusedWhenFaulted (.fxProcess block) s ∧
    (s.fault = false → s.fx.c = false → exec (.fxProcess block) s = .next (s.faulted 2#4)) ∧
    (s.fault = false → s.fx.c = true →
    (s.fx.run = false → exec (.fxProcess block) s = .next (s.faulted 8#4)) ∧
    (s.fx.run = true → s.hb.maxBlock < block.length → exec (.fxProcess block) s = .next (s.faulted 4#4)) ∧
    (s.fx.run = true → block.length ≤ s.hb.maxBlock → s.hb.view = true →
      exec (.fxProcess block) s = .next (s.faulted 5#4)) ∧
    (s.fx.run = true → block.length ≤ s.hb.maxBlock → s.hb.view = false →
      (∃ p ∈ block, isInRange p.params = false) → exec (.fxProcess block) s = .next (s.faulted 7#4)))
end

