-- ==== Sys2Proof/Laws/Mem.lean ====
section
/-!
SUPPORT. The laws of one memory: a read after a write, the canonical form, and what the list operations do, word by word.
-/

namespace Sys2Proof.Machine

/-! ## The canonical form -/

@[simp] theorem Mem.wf_nil : Mem.wf [] = true := rfl

theorem Mem.wf_cons (a : Nat) (w : Word) (rest : Mem) :
    Mem.wf ((a, w) :: rest) = true ↔ w ≠ 0#32 ∧ (∀ cell ∈ rest, a < cell.1) ∧ Mem.wf rest = true := by
  simp [Mem.wf, and_assoc]

@[simp] theorem Mem.read_nil (a : Nat) : Mem.read [] a = 0#32 := rfl

theorem Mem.read_cons (b : Nat) (w : Word) (rest : Mem) (a : Nat) :
    Mem.read ((b, w) :: rest) a = if a = b then w else Mem.read rest a := rfl

/-- An index below every listed one reads +0.0. -/
theorem Mem.read_eq_zero_of_lt (m : Mem) (a : Nat) (h : ∀ cell ∈ m, a < cell.1) : m.read a = 0#32 := by
  induction m with
  | nil => rfl
  | cons cell rest ih =>
    have hlt : a < cell.1 := h cell (by simp)
    rw [show cell :: rest = (cell.1, cell.2) :: rest from rfl, Mem.read_cons, if_neg (by omega)]
    exact ih fun c hc => h c (by simp [hc])

/-- A listed index is one that a write or the memory before it listed. -/
theorem Mem.mem_write (m : Mem) (a : Nat) (v : Word) (cell : Nat × Word) (h : cell ∈ m.write a v) :
    cell = (a, v) ∨ cell ∈ m := by
  induction m with
  | nil => simp only [Mem.write] at h; split at h <;> simp_all
  | cons head rest ih =>
    obtain ⟨b, w⟩ := head
    simp only [Mem.write] at h
    split at h
    · split at h <;> simp_all
    · split at h
      · split at h <;> simp_all
        tauto
      · simp only [List.mem_cons] at h ⊢
        rcases h with h | h
        · simp [h]
        · rcases ih h with h | h <;> simp [h]

/-- A write keeps the canonical form. -/
theorem Mem.wf_write (m : Mem) (a : Nat) (v : Word) (h : m.wf = true) : (m.write a v).wf = true := by
  induction m with
  | nil => simp only [Mem.write]; split <;> simp_all [Mem.wf]
  | cons head rest ih =>
    obtain ⟨b, w⟩ := head
    obtain ⟨hw, hlt, hrest⟩ := (Mem.wf_cons b w rest).mp h
    simp only [Mem.write]
    split
    · split
      · exact h
      · rename_i hab hv
        refine (Mem.wf_cons a v _).mpr ⟨hv, ?_, h⟩
        intro cell hcell
        simp only [List.mem_cons] at hcell
        rcases hcell with rfl | hcell
        · exact hab
        · have := hlt cell hcell; omega
    · split
      · rename_i hab
        subst hab
        split
        · exact hrest
        · exact (Mem.wf_cons _ _ _).mpr ⟨by assumption, hlt, hrest⟩
      · refine (Mem.wf_cons _ _ _).mpr ⟨hw, ?_, ih hrest⟩
        intro cell hcell
        rcases Mem.mem_write rest a v cell hcell with rfl | hc
        · simp only; omega
        · exact hlt cell hc

/-- A read of the word written gives the value written. -/
theorem Mem.read_write_same (m : Mem) (a : Nat) (v : Word) (h : m.wf = true) : (m.write a v).read a = v := by
  induction m with
  | nil => simp only [Mem.write]; split <;> simp_all [Mem.read]
  | cons head rest ih =>
    obtain ⟨b, w⟩ := head
    obtain ⟨_, hlt, hrest⟩ := (Mem.wf_cons b w rest).mp h
    simp only [Mem.write]
    split
    · split
      · rename_i hab hv
        rw [hv, Mem.read_cons, if_neg (by omega)]
        exact Mem.read_eq_zero_of_lt rest a fun c hc => by have := hlt c hc; omega
      · simp [Mem.read_cons]
    · split
      · rename_i hab
        subst hab
        split
        · rename_i hv
          rw [hv]
          exact Mem.read_eq_zero_of_lt rest a hlt
        · simp [Mem.read_cons]
      · rename_i hne
        rw [Mem.read_cons, if_neg hne]
        exact ih hrest

/-- A write leaves every other word alone. -/
theorem Mem.read_write_other (m : Mem) (a c : Nat) (v : Word) (h : c ≠ a) : (m.write a v).read c = m.read c := by
  induction m with
  | nil => simp only [Mem.write]; split <;> simp_all [Mem.read]
  | cons head rest ih =>
    obtain ⟨b, w⟩ := head
    simp only [Mem.write]
    split
    · split
      · rfl
      · rw [Mem.read_cons, if_neg h]
    · split
      · rename_i hab
        subst hab
        split
        · rw [Mem.read_cons, if_neg h]
        · rw [Mem.read_cons, Mem.read_cons, if_neg h, if_neg h]
      · rw [Mem.read_cons, Mem.read_cons, ih]

/-- Every word of a memory after a write. -/
theorem Mem.read_write (m : Mem) (a c : Nat) (v : Word) (h : m.wf = true) :
    (m.write a v).read c = if c = a then v else m.read c := by
  split
  · rename_i hca; subst hca; exact Mem.read_write_same m c v h
  · rename_i hca; exact Mem.read_write_other m a c v hca

/-- Two canonical memories with the same words are equal. -/
theorem Mem.ext_read (m n : Mem) (hm : m.wf = true) (hn : n.wf = true) (h : ∀ a, m.read a = n.read a) : m = n := by
  induction m generalizing n with
  | nil =>
    cases n with
    | nil => rfl
    | cons head rest =>
      obtain ⟨b, w⟩ := head
      have hw := ((Mem.wf_cons b w rest).mp hn).1
      have := h b
      rw [Mem.read_cons] at this
      simp at this
      exact absurd this.symm hw
  | cons head rest ih =>
    obtain ⟨a, v⟩ := head
    obtain ⟨hv, hlt, hrest⟩ := (Mem.wf_cons a v rest).mp hm
    cases n with
    | nil =>
      have := h a
      rw [Mem.read_cons] at this
      simp at this
      exact absurd this hv
    | cons head' rest' =>
      obtain ⟨b, w⟩ := head'
      obtain ⟨hw, hlt', hrest'⟩ := (Mem.wf_cons b w rest').mp hn
      have hab : a = b := by
        rcases Nat.lt_trichotomy a b with hl | he | hg
        · have := h a
          rw [Mem.read_cons, Mem.read_cons, if_pos rfl, if_neg (by omega),
            Mem.read_eq_zero_of_lt rest' a fun c hc => by have := hlt' c hc; omega] at this
          exact absurd this hv
        · exact he
        · have := h b
          rw [Mem.read_cons, Mem.read_cons, if_neg (by omega), if_pos rfl,
            Mem.read_eq_zero_of_lt rest b fun c hc => by have := hlt c hc; omega] at this
          exact absurd this.symm hw
      subst hab
      have hvw : v = w := by
        have := h a
        simpa [Mem.read_cons] using this
      subst hvw
      have htail : rest = rest' := by
        refine ih rest' hrest hrest' fun c => ?_
        by_cases hca : c = a
        · subst hca
          rw [Mem.read_eq_zero_of_lt rest c hlt, Mem.read_eq_zero_of_lt rest' c hlt']
        · have := h c
          simpa [Mem.read_cons, hca] using this
      rw [htail]

/-! ## Lists of words -/

@[simp] theorem Mem.writeList_nil (m : Mem) (a : Nat) : m.writeList a [] = m := rfl

theorem Mem.wf_writeList (m : Mem) (a : Nat) (ws : List Word) (h : m.wf = true) : (m.writeList a ws).wf = true := by
  induction ws generalizing m a with
  | nil => exact h
  | cons v vs ih => exact ih (m.write a v) (a + 1) (Mem.wf_write m a v h)

/-- Every word of a memory after a list of words is written. -/
theorem Mem.read_writeList (m : Mem) (a c : Nat) (ws : List Word) (h : m.wf = true) :
    (m.writeList a ws).read c = if a ≤ c ∧ c < a + ws.length then ws.getD (c - a) 0#32 else m.read c := by
  induction ws generalizing m a with
  | nil => rw [Mem.writeList_nil, if_neg (by simp)]
  | cons v vs ih =>
    rw [Mem.writeList, ih (m.write a v) (a + 1) (Mem.wf_write m a v h), Mem.read_write m a c v h]
    by_cases hc : c = a
    · subst hc
      simp
    · by_cases hr : a + 1 ≤ c ∧ c < a + 1 + vs.length
      · have hr' : a ≤ c ∧ c < a + (v :: vs).length := by simp only [List.length_cons]; omega
        rw [if_pos hr, if_pos hr', show c - a = (c - (a + 1)) + 1 by omega]
        simp
      · have hr' : ¬ (a ≤ c ∧ c < a + (v :: vs).length) := by simp only [List.length_cons]; omega
        rw [if_neg hr, if_neg hc, if_neg hr']

@[simp] theorem Mem.length_readList (m : Mem) (a n : Nat) : (m.readList a n).length = n := by
  simp [Mem.readList]

theorem Mem.getElem_readList (m : Mem) (a n i : Nat) (h : i < (m.readList a n).length) :
    (m.readList a n)[i] = m.read (a + i) := by
  simp [Mem.readList]

theorem Mem.getD_readList (m : Mem) (a n i : Nat) (h : i < n) : (m.readList a n).getD i 0#32 = m.read (a + i) := by
  rw [List.getD_eq_getElem _ _ (by simpa using h), Mem.getElem_readList]

/-- Two memories with the same words in a range give the same list. -/
theorem Mem.readList_congr (m m' : Mem) (a n : Nat) (h : ∀ c, a ≤ c → c < a + n → m.read c = m'.read c) :
    m.readList a n = m'.readList a n := by
  refine List.ext_getElem (by simp) fun i h₁ h₂ => ?_
  have hi : i < n := by simpa using h₁
  rw [Mem.getElem_readList, Mem.getElem_readList]
  exact h (a + i) (by omega) (by omega)

/-! ## Zero fill -/

theorem Mem.wf_filter (m : Mem) (p : Nat × Word → Bool) (h : m.wf = true) : Mem.wf (m.filter p) = true := by
  induction m with
  | nil => rfl
  | cons head rest ih =>
    obtain ⟨a, w⟩ := head
    obtain ⟨hw, hlt, hrest⟩ := (Mem.wf_cons a w rest).mp h
    rw [List.filter_cons]
    split
    · exact (Mem.wf_cons _ _ _).mpr ⟨hw, fun c hc => hlt c (List.mem_of_mem_filter hc), ih hrest⟩
    · exact ih hrest

theorem Mem.wf_zeroFill (m : Mem) (n : Nat) (h : m.wf = true) : (m.zeroFill n).wf = true :=
  Mem.wf_filter m _ h

/-- Every word of a memory after a zero fill. -/
theorem Mem.read_zeroFill (m : Mem) (n c : Nat) : (m.zeroFill n).read c = if c < n then 0#32 else m.read c := by
  induction m with
  | nil => simp [Mem.zeroFill]
  | cons head rest ih =>
    obtain ⟨a, w⟩ := head
    simp only [Mem.zeroFill, List.filter_cons] at ih ⊢
    by_cases hn : n ≤ a
    · simp only [hn, decide_true, if_true, Mem.read_cons, ih]
      by_cases hc : c = a
      · subst hc; simp [Nat.not_lt.mpr hn]
      · simp [hc]
    · simp only [hn, decide_false, Bool.false_eq_true, if_false, ih, Mem.read_cons]
      by_cases hc : c = a
      · subst hc; simp [Nat.lt_of_not_le hn]
      · simp [hc]

/-! ## The copy-back -/

theorem Mem.wf_copyDown (m : Mem) (len n : Nat) (h : m.wf = true) : (m.copyDown len n).wf = true := by
  induction n with
  | zero => exact h
  | succ t ih => exact Mem.wf_write _ _ _ ih

/-- Every word of a memory after the ascending copy: the first `n` words hold what stood `len` words above them
(rules R104, R198). -/
theorem Mem.read_copyDown (m : Mem) (len n c : Nat) (h : m.wf = true) :
    (m.copyDown len n).read c = if c < n then m.read (c + len) else m.read c := by
  induction n generalizing c with
  | zero => simp [Mem.copyDown]
  | succ t ih =>
    rw [Mem.copyDown, Mem.read_write _ _ _ _ (Mem.wf_copyDown m len t h), ih, ih]
    by_cases hc : c = t
    · subst hc
      simp only [if_true, Nat.lt_succ_self]
      rw [if_neg (by omega)]
    · rw [if_neg hc]
      by_cases hlt : c < t
      · rw [if_pos hlt, if_pos (by omega)]
      · rw [if_neg hlt, if_neg (by omega)]

/-! ## Physical size -/

theorem Mem.within_iff (m : Mem) (size : Nat) : m.within size = true ↔ ∀ cell ∈ m, cell.1 < size := by
  simp [Mem.within]

theorem Mem.within_write (m : Mem) (a size : Nat) (v : Word) (h : m.within size = true) (ha : a < size) :
    (m.write a v).within size = true := by
  rw [Mem.within_iff] at h ⊢
  intro cell hcell
  rcases Mem.mem_write m a v cell hcell with rfl | hc
  · exact ha
  · exact h cell hc

theorem Mem.within_writeList (m : Mem) (a size : Nat) (ws : List Word) (h : m.within size = true)
    (ha : a + ws.length ≤ size) : (m.writeList a ws).within size = true := by
  induction ws generalizing m a with
  | nil => exact h
  | cons v vs ih =>
    simp only [List.length_cons] at ha
    exact ih (m.write a v) (a + 1) (Mem.within_write m a size v h (by omega)) (by omega)

theorem Mem.within_zeroFill (m : Mem) (n size : Nat) (h : m.within size = true) : (m.zeroFill n).within size = true := by
  rw [Mem.within_iff] at h ⊢
  exact fun cell hcell => h cell (List.mem_of_mem_filter hcell)

theorem Mem.within_copyDown (m : Mem) (len n size : Nat) (h : m.within size = true) (hn : n ≤ size) :
    (m.copyDown len n).within size = true := by
  induction n with
  | zero => exact h
  | succ t ih => exact Mem.within_write _ _ _ _ (ih (by omega)) (by omega)

end Sys2Proof.Machine
end

