-- ==== Sys2Proof/Laws/State.lean ====
section
/-!
SUPPORT. One lemma per field of the state for each named update, and what power-on leaves in each field.
-/

namespace Sys2Proof.Machine

/-! ## Answering -/

@[simp] theorem State.respond_cfg (s : State) (ws : List Word) : (s.respond ws).cfg = s.cfg := rfl

@[simp] theorem State.respond_port (s : State) (ws : List Word) : (s.respond ws).port = s.port := rfl

@[simp] theorem State.respond_resp (s : State) (ws : List Word) : (s.respond ws).resp = ws := rfl

@[simp] theorem State.respond_fault (s : State) (ws : List Word) : (s.respond ws).fault = s.fault := rfl

@[simp] theorem State.respond_cause (s : State) (ws : List Word) : (s.respond ws).cause = s.cause := rfl

@[simp] theorem State.respond_lfo (s : State) (ws : List Word) : (s.respond ws).lfo = s.lfo := rfl

@[simp] theorem State.respond_hb (s : State) (ws : List Word) : (s.respond ws).hb = s.hb := rfl

@[simp] theorem State.respond_hbuf (s : State) (ws : List Word) : (s.respond ws).hbuf = s.hbuf := rfl

@[simp] theorem State.respond_pk (s : State) (ws : List Word) : (s.respond ws).pk = s.pk := rfl

@[simp] theorem State.respond_kram (s : State) (ws : List Word) : (s.respond ws).kram = s.kram := rfl

@[simp] theorem State.respond_pram (s : State) (ws : List Word) : (s.respond ws).pram = s.pram := rfl

@[simp] theorem State.respond_cmp (s : State) (ws : List Word) : (s.respond ws).cmp = s.cmp := rfl

@[simp] theorem State.respond_aaf (s : State) (ws : List Word) : (s.respond ws).aaf = s.aaf := rfl

@[simp] theorem State.respond_fx (s : State) (ws : List Word) : (s.respond ws).fx = s.fx := rfl

@[simp] theorem State.respond_freed (s : State) (ws : List Word) : (s.respond ws).freed = s.freed := rfl

@[simp] theorem State.respond_respond (s : State) (us ws : List Word) : (s.respond us).respond ws = s.respond ws := rfl

@[simp] theorem State.respond_status (s : State) (ws : List Word) : (s.respond ws).status = s.status := rfl

/-! ## Taking a fault -/

@[simp] theorem State.raise_cfg (s : State) (c : Cause) : (s.raise c).cfg = s.cfg := by
  unfold State.raise; split <;> rfl

@[simp] theorem State.raise_port (s : State) (c : Cause) : (s.raise c).port = s.port := by
  unfold State.raise; split <;> rfl

@[simp] theorem State.raise_resp (s : State) (c : Cause) : (s.raise c).resp = [] := by
  unfold State.raise; split <;> rfl

@[simp] theorem State.raise_fault (s : State) (c : Cause) : (s.raise c).fault = true := by
  unfold State.raise; split <;> simp_all

theorem State.raise_cause (s : State) (c : Cause) :
    (s.raise c).cause = if s.fault = true then s.cause else causeCode c := by
  unfold State.raise; split <;> rfl

@[simp] theorem State.raise_lfo (s : State) (c : Cause) : (s.raise c).lfo = s.lfo := by
  unfold State.raise; split <;> rfl

@[simp] theorem State.raise_hb (s : State) (c : Cause) : (s.raise c).hb = s.hb := by
  unfold State.raise; split <;> rfl

@[simp] theorem State.raise_hbuf (s : State) (c : Cause) : (s.raise c).hbuf = s.hbuf := by
  unfold State.raise; split <;> rfl

@[simp] theorem State.raise_pk (s : State) (c : Cause) : (s.raise c).pk = s.pk := by
  unfold State.raise; split <;> rfl

@[simp] theorem State.raise_kram (s : State) (c : Cause) : (s.raise c).kram = s.kram := by
  unfold State.raise; split <;> rfl

@[simp] theorem State.raise_pram (s : State) (c : Cause) : (s.raise c).pram = s.pram := by
  unfold State.raise; split <;> rfl

@[simp] theorem State.raise_cmp (s : State) (c : Cause) : (s.raise c).cmp = s.cmp := by
  unfold State.raise; split <;> rfl

@[simp] theorem State.raise_aaf (s : State) (c : Cause) : (s.raise c).aaf = s.aaf := by
  unfold State.raise; split <;> rfl

@[simp] theorem State.raise_fx (s : State) (c : Cause) : (s.raise c).fx = s.fx := by
  unfold State.raise; split <;> rfl

@[simp] theorem State.raise_freed (s : State) (c : Cause) : (s.raise c).freed = s.freed := by
  unfold State.raise; split <;> rfl

/-- The first fault: `FAULT` and `CAUSE` record it, nothing else is written. -/
theorem State.raise_of_clear (s : State) (c : Cause) (h : s.fault = false) :
    s.raise c = { s with fault := true, cause := causeCode c, resp := [] } := by
  unfold State.raise; simp [h]

/-! ## Unspecified datapath state -/

@[simp] theorem State.unspecified_cfg (s : State) : s.unspecified.cfg = s.cfg := rfl

@[simp] theorem State.unspecified_port (s : State) : s.unspecified.port = s.port := rfl

@[simp] theorem State.unspecified_resp (s : State) : s.unspecified.resp = s.resp := rfl

@[simp] theorem State.unspecified_fault (s : State) : s.unspecified.fault = s.fault := rfl

@[simp] theorem State.unspecified_cause (s : State) : s.unspecified.cause = s.cause := rfl

@[simp] theorem State.unspecified_pk (s : State) : s.unspecified.pk = s.pk := rfl

@[simp] theorem State.unspecified_kram (s : State) : s.unspecified.kram = s.kram := rfl

@[simp] theorem State.unspecified_pram (s : State) : s.unspecified.pram = s.pram := rfl

@[simp] theorem State.unspecified_fx (s : State) : s.unspecified.fx = s.fx := rfl

@[simp] theorem State.unspecified_lfo_c (s : State) : s.unspecified.lfo.c = s.lfo.c := rfl

@[simp] theorem State.unspecified_lfo_point (s : State) : s.unspecified.lfo.point = s.lfo.point := rfl

@[simp] theorem State.unspecified_lfo_scale (s : State) : s.unspecified.lfo.scale = s.lfo.scale := rfl

@[simp] theorem State.unspecified_lfo_alpha (s : State) : s.unspecified.lfo.alpha = s.lfo.alpha := rfl

@[simp] theorem State.unspecified_hb_c (s : State) : s.unspecified.hb.c = s.hb.c := rfl

@[simp] theorem State.unspecified_hb_view (s : State) : s.unspecified.hb.view = s.hb.view := rfl

@[simp] theorem State.unspecified_hb_lookBehind (s : State) : s.unspecified.hb.lookBehind = s.hb.lookBehind := rfl

@[simp] theorem State.unspecified_hb_maxBlock (s : State) : s.unspecified.hb.maxBlock = s.hb.maxBlock := rfl

@[simp] theorem State.unspecified_cmp_c (s : State) : s.unspecified.cmp.c = s.cmp.c := rfl

@[simp] theorem State.unspecified_cmp_attack (s : State) : s.unspecified.cmp.attack = s.cmp.attack := rfl

@[simp] theorem State.unspecified_cmp_release (s : State) : s.unspecified.cmp.release = s.cmp.release := rfl

@[simp] theorem State.unspecified_aaf_f0_c (s : State) : s.unspecified.aaf.f0.c = s.aaf.f0.c := rfl

@[simp] theorem State.unspecified_aaf_f0_g (s : State) : s.unspecified.aaf.f0.g = s.aaf.f0.g := rfl

@[simp] theorem State.unspecified_aaf_f1_c (s : State) : s.unspecified.aaf.f1.c = s.aaf.f1.c := rfl

@[simp] theorem State.unspecified_aaf_f1_g (s : State) : s.unspecified.aaf.f1.g = s.aaf.f1.g := rfl

@[simp] theorem State.unspecified_aaf_f2_c (s : State) : s.unspecified.aaf.f2.c = s.aaf.f2.c := rfl

@[simp] theorem State.unspecified_aaf_f2_g (s : State) : s.unspecified.aaf.f2.g = s.aaf.f2.g := rfl

@[simp] theorem State.unspecified_aaf_f3_c (s : State) : s.unspecified.aaf.f3.c = s.aaf.f3.c := rfl

@[simp] theorem State.unspecified_aaf_f3_g (s : State) : s.unspecified.aaf.f3.g = s.aaf.f3.g := rfl

@[simp] theorem State.unspecified_freed (s : State) : s.unspecified.freed = s.freed + 1 := rfl

/-! ## Presenting a packet -/

@[simp] theorem State.withFetchWord_port (s : State) (nbits w : Nat) :
    (s.withFetchWord nbits w).port = tablePacket nbits w ++ s.port := rfl

@[simp] theorem State.withFetchWord_setPort (s : State) (nbits w : Nat) :
    { s.withFetchWord nbits w with port := s.port } = s := rfl

@[simp] theorem State.withFetchWord_cfg (s : State) (nbits w : Nat) : (s.withFetchWord nbits w).cfg = s.cfg := rfl

@[simp] theorem State.withFetchWord_resp (s : State) (nbits w : Nat) : (s.withFetchWord nbits w).resp = s.resp := rfl

@[simp] theorem State.withFetchWord_fault (s : State) (nbits w : Nat) : (s.withFetchWord nbits w).fault = s.fault := rfl

@[simp] theorem State.withFetchWord_cause (s : State) (nbits w : Nat) : (s.withFetchWord nbits w).cause = s.cause := rfl

@[simp] theorem State.withFetchWord_lfo (s : State) (nbits w : Nat) : (s.withFetchWord nbits w).lfo = s.lfo := rfl

@[simp] theorem State.withFetchWord_hb (s : State) (nbits w : Nat) : (s.withFetchWord nbits w).hb = s.hb := rfl

@[simp] theorem State.withFetchWord_hbuf (s : State) (nbits w : Nat) : (s.withFetchWord nbits w).hbuf = s.hbuf := rfl

@[simp] theorem State.withFetchWord_pk (s : State) (nbits w : Nat) : (s.withFetchWord nbits w).pk = s.pk := rfl

@[simp] theorem State.withFetchWord_kram (s : State) (nbits w : Nat) : (s.withFetchWord nbits w).kram = s.kram := rfl

@[simp] theorem State.withFetchWord_pram (s : State) (nbits w : Nat) : (s.withFetchWord nbits w).pram = s.pram := rfl

@[simp] theorem State.withFetchWord_cmp (s : State) (nbits w : Nat) : (s.withFetchWord nbits w).cmp = s.cmp := rfl

@[simp] theorem State.withFetchWord_aaf (s : State) (nbits w : Nat) : (s.withFetchWord nbits w).aaf = s.aaf := rfl

@[simp] theorem State.withFetchWord_fx (s : State) (nbits w : Nat) : (s.withFetchWord nbits w).fx = s.fx := rfl

@[simp] theorem State.withFetchWord_freed (s : State) (nbits w : Nat) : (s.withFetchWord nbits w).freed = s.freed := rfl

/-! ## Filter instances -/

theorem AafBank.get_set_same (b : AafBank) (k : Nat) (f : Aaf) : (b.set k f).get k = f := by
  unfold AafBank.set; split <;> simp_all [AafBank.get]

theorem AafBank.get_set_other (b : AafBank) (j k : Nat) (f : Aaf) (hj : j < 4) (hk : k < 4) (h : j ≠ k) :
    (b.set k f).get j = b.get j := by
  interval_cases j <;> interval_cases k <;> first | exact absurd rfl h | rfl

@[simp] theorem AafBank.get_0 (b : AafBank) : b.get 0 = b.f0 := rfl

@[simp] theorem AafBank.get_1 (b : AafBank) : b.get 1 = b.f1 := rfl

@[simp] theorem AafBank.get_2 (b : AafBank) : b.get 2 = b.f2 := rfl

@[simp] theorem AafBank.get_3 (b : AafBank) : b.get 3 = b.f3 := rfl

@[simp] theorem AafBank.set_0 (b : AafBank) (f : Aaf) : b.set 0 f = { b with f0 := f } := rfl

@[simp] theorem AafBank.set_1 (b : AafBank) (f : Aaf) : b.set 1 f = { b with f1 := f } := rfl

@[simp] theorem AafBank.set_2 (b : AafBank) (f : Aaf) : b.set 2 f = { b with f2 := f } := rfl

@[simp] theorem AafBank.set_3 (b : AafBank) (f : Aaf) : b.set 3 f = { b with f3 := f } := rfl

/-! ## Power-on -/

@[simp] theorem State.powerOn_cfg (cfg : Params) : (State.powerOn cfg).cfg = cfg := rfl

@[simp] theorem State.powerOn_port (cfg : Params) : (State.powerOn cfg).port = [] := rfl

@[simp] theorem State.powerOn_resp (cfg : Params) : (State.powerOn cfg).resp = [] := rfl

@[simp] theorem State.powerOn_fault (cfg : Params) : (State.powerOn cfg).fault = false := rfl

@[simp] theorem State.powerOn_cause (cfg : Params) : (State.powerOn cfg).cause = 0#4 := rfl

@[simp] theorem State.powerOn_hbuf (cfg : Params) : (State.powerOn cfg).hbuf = [] := rfl

@[simp] theorem State.powerOn_kram (cfg : Params) : (State.powerOn cfg).kram = [] := rfl

@[simp] theorem State.powerOn_pram (cfg : Params) : (State.powerOn cfg).pram = [] := rfl

@[simp] theorem State.powerOn_freed (cfg : Params) : (State.powerOn cfg).freed = 0 := rfl

end Sys2Proof.Machine
end

