-- ==== Sys2Proof/Laws/Ops.lean ====
section
/-!
SUPPORT. What each shared operation can do, said once: sequencing, memory accesses, a command, a chain.
-/

namespace Sys2Proof.Machine

/-! ## Sequencing -/

@[simp] theorem Res.bind_ok {α β : Type} (a : α) (s : State) (k : α → State → Res β) :
    (Res.ok a s).bind k = k a s := rfl

@[simp] theorem Res.bind_trap {α β : Type} (c : Cause) (s : State) (k : α → State → Res β) :
    (Res.trap c s).bind k = .trap c s := rfl

@[simp] theorem Res.bind_stop {α β : Type} (f : Fault) (k : α → State → Res β) :
    (Res.stop f : Res α).bind k = .stop f := rfl

/-- A sequence completes iff both parts do. -/
theorem Res.bind_eq_ok {α β : Type} (r : Res α) (k : α → State → Res β) (b : β) (u : State) :
    r.bind k = .ok b u ↔ ∃ a t, r = .ok a t ∧ k a t = .ok b u := by
  cases r <;> simp

/-- A sequence faults in its first part, or in its second after the first completes. -/
theorem Res.bind_eq_trap {α β : Type} (r : Res α) (k : α → State → Res β) (c : Cause) (u : State) :
    r.bind k = .trap c u ↔ r = .trap c u ∨ ∃ a t, r = .ok a t ∧ k a t = .trap c u := by
  cases r <;> simp

/-- A sequence stops in its first part, or in its second after the first completes. -/
theorem Res.bind_eq_stop {α β : Type} (r : Res α) (k : α → State → Res β) (f : Fault) :
    r.bind k = .stop f ↔ r = .stop f ∨ ∃ a t, r = .ok a t ∧ k a t = .stop f := by
  cases r <;> simp

/-! ## Memory accesses -/

/-- A completed read of HBUF: the words exist, nothing changes. -/
theorem memRead_hbuf_eq_ok (a n : Nat) (s t : State) (ws : List Word) :
    memRead .hbuf a n s = .ok ws t ↔ a + n ≤ s.cfg.hbufWords ∧ ws = s.hbuf.readList a n ∧ t = s := by
  simp only [memRead]; split <;> simp_all [eq_comm]

theorem memRead_kram_eq_ok (a n : Nat) (s t : State) (ws : List Word) :
    memRead .kram a n s = .ok ws t ↔ a + n ≤ s.cfg.kramWords ∧ ws = s.kram.readList a n ∧ t = s := by
  simp only [memRead]; split <;> simp_all [eq_comm]

theorem memRead_pram_eq_ok (a n : Nat) (s t : State) (ws : List Word) :
    memRead .pram a n s = .ok ws t ↔ a + n ≤ s.cfg.kramWords ∧ ws = s.pram.readList a n ∧ t = s := by
  simp only [memRead]; split <;> simp_all [eq_comm]

/-- A read raises no fault of the block. -/
theorem memRead_ne_trap (space : Space) (a n : Nat) (s t : State) (c : Cause) : memRead space a n s ≠ .trap c t := by
  cases space <;> simp only [memRead] <;> split <;> simp

/-- A completed write of HBUF: the words exist, and only they change. -/
theorem memWrite_hbuf_eq_ok (a : Nat) (ws : List Word) (s t : State) (u : Unit) :
    memWrite .hbuf a ws s = .ok u t ↔
      a + ws.length ≤ s.cfg.hbufWords ∧ t = { s with hbuf := s.hbuf.writeList a ws } := by
  simp only [memWrite]; split <;> simp_all [eq_comm]

theorem memWrite_kram_eq_ok (a : Nat) (ws : List Word) (s t : State) (u : Unit) :
    memWrite .kram a ws s = .ok u t ↔
      a + ws.length ≤ s.cfg.kramWords ∧ t = { s with kram := s.kram.writeList a ws } := by
  simp only [memWrite]; split <;> simp_all [eq_comm]

theorem memWrite_pram_eq_ok (a : Nat) (ws : List Word) (s t : State) (u : Unit) :
    memWrite .pram a ws s = .ok u t ↔
      a + ws.length ≤ s.cfg.kramWords ∧ t = { s with pram := s.pram.writeList a ws } := by
  simp only [memWrite]; split <;> simp_all [eq_comm]

/-- A write raises no fault of the block. -/
theorem memWrite_ne_trap (space : Space) (a : Nat) (ws : List Word) (s t : State) (c : Cause) :
    memWrite space a ws s ≠ .trap c t := by
  cases space <;> simp only [memWrite] <;> split <;> simp

/-! ## A command -/

/-- A faulted block refuses a command. -/
theorem command_of_fault {α : Type} (words : α → List Word) (op : State → Res α) (s : State) (h : s.fault = true) :
    command words op s = .next (s.respond []) := by
  simp [command, h]

/-- A command whose operation completes answers its result words. -/
theorem command_of_ok {α : Type} (words : α → List Word) (op : State → Res α) (s t : State) (a : α)
    (h : s.fault = false) (hop : op s = .ok a t) : command words op s = .next (t.respond (words a)) := by
  simp [command, h, hop]

/-- A command whose operation faults takes the fault. -/
theorem command_of_trap {α : Type} (words : α → List Word) (op : State → Res α) (s t : State) (c : Cause)
    (h : s.fault = false) (hop : op s = .trap c t) : command words op s = .next (t.raise c) := by
  simp [command, h, hop]

/-- Everything a command can do when it answers a next state. -/
theorem command_eq_next {α : Type} (words : α → List Word) (op : State → Res α) (s u : State) :
    command words op s = .next u ↔
      (s.fault = true ∧ u = s.respond []) ∨
      (s.fault = false ∧ ((∃ a t, op s = .ok a t ∧ u = t.respond (words a)) ∨
        ∃ c t, op s = .trap c t ∧ u = t.raise c)) := by
  cases hf : s.fault with
  | true =>
    rw [command_of_fault words op s hf, Host.Outcome.next.injEq]
    exact ⟨fun h => .inl ⟨rfl, h.symm⟩, fun h => h.elim (fun h => h.2.symm) fun h => by simp at h⟩
  | false =>
    cases hop : op s with
    | ok a t =>
      rw [command_of_ok words op s t a hf hop, Host.Outcome.next.injEq]
      refine ⟨fun h => .inr ⟨rfl, .inl ⟨a, t, rfl, h.symm⟩⟩, ?_⟩
      rintro (⟨h, _⟩ | ⟨_, ⟨_, _, h, rfl⟩ | ⟨_, _, h, _⟩⟩)
      · cases h
      · cases h; rfl
      · cases h
    | trap c t =>
      rw [command_of_trap words op s t c hf hop, Host.Outcome.next.injEq]
      refine ⟨fun h => .inr ⟨rfl, .inr ⟨c, t, rfl, h.symm⟩⟩, ?_⟩
      rintro (⟨h, _⟩ | ⟨_, ⟨_, _, h, _⟩ | ⟨_, _, h, rfl⟩⟩)
      · cases h
      · cases h
      · cases h; rfl
    | stop f => simp [command, hf, hop]

/-- A command is never refused by the model. -/
theorem command_ne_refused {α : Type} (words : α → List Word) (op : State → Res α) (s : State) (r : Refusal) :
    command words op s ≠ .refused r := by
  unfold command
  split
  · simp
  · split <;> simp

/-- A command stops the model only where its operation does. -/
theorem command_eq_fault {α : Type} (words : α → List Word) (op : State → Res α) (s : State) (f : Fault) :
    command words op s = .fault f ↔ s.fault = false ∧ op s = .stop f := by
  unfold command
  split
  · simp_all
  · split <;> simp_all

/-! ## A chain -/

/-- A chain completes only where all its constituents do. -/
theorem chain_eq_ok {α β : Type} (first : Res α) (whole : Res β) (b : β) (t : State)
    (h : chain first whole = .ok b t) : whole = .ok b t := by
  unfold chain at h; split at h <;> simp_all

/-- A completing chain. -/
theorem chain_of_ok {α β : Type} (first : Res α) (b : β) (t : State) : chain first (.ok b t) = .ok b t := by
  unfold chain; split <;> simp_all

/-- A chain faults as one of its constituents does; after the first constituent it leaves unspecified state. -/
theorem chain_eq_trap {α β : Type} (first : Res α) (whole : Res β) (c : Cause) (t : State)
    (h : chain first whole = .trap c t) :
    (∃ d u, first = .trap d u) ∧ whole = .trap c t ∨ ∃ u, whole = .trap c u ∧ t = u.unspecified := by
  unfold chain at h; split at h <;> simp_all

/-- A chain stops only where a constituent does. -/
theorem chain_eq_stop {α β : Type} (first : Res α) (whole : Res β) (f : Fault) :
    chain first whole = .stop f ↔ whole = .stop f := by
  unfold chain; split <;> simp_all

end Sys2Proof.Machine
end

