-- ==== Sys2Proof/Laws/Units.lean ====
section
/-!
SUPPORT. What each unit operation can do, said once: when it completes and with what result and state, with which cause it
faults (writing nothing), and when it stops the model.
-/

namespace Sys2Proof.Machine

/-! ## The memories at power-on -/

theorem State.powerOn_wf (cfg : Params) :
    (State.powerOn cfg).hbuf.wf = true ∧ (State.powerOn cfg).kram.wf = true ∧ (State.powerOn cfg).pram.wf = true :=
  ⟨rfl, rfl, rfl⟩

/-! ## The LFO -/

theorem lfoNew_eq_ok (lo hi : F32) (s t : State) (u : Unit) :
    lfoNew lo hi s = .ok u t ↔ isDelayBounds lo hi = true ∧
      t = { s with lfo := ⟨true, lfoPointOf s.cfg.lfoLaw lo hi, lfoScaleOf s.cfg.lfoLaw lo hi,
        lfoAlphaOf (lfoPointOf s.cfg.lfoLaw lo hi), F32.zero, none⟩ } := by
  unfold lfoNew
  repeat' split
  all_goals (constructor <;> intro h <;> simp_all)

theorem lfoNew_eq_trap (lo hi : F32) (s t : State) (c : Cause) :
    lfoNew lo hi s = .trap c t ↔ isDelayBounds lo hi = false ∧ c = .badConfig ∧ t = s := by
  unfold lfoNew
  repeat' split
  all_goals (constructor <;> intro h <;> simp_all)

theorem lfoNew_ne_stop (lo hi : F32) (s : State) (f : Fault) : lfoNew lo hi s ≠ .stop f := by
  unfold lfoNew; split <;> simp

theorem lfoStep_eq_ok (incr depth : F32) (s t : State) (r : F32 × F32) :
    lfoStep incr depth s = .ok r t ↔ s.lfo.c = true ∧ isNonNegative incr = true ∧ isPercent depth = true ∧
      r = (F32.add s.lfo.point (lfoSmoothed s.lfo.output s.lfo.alpha (lfoInstant depth s.lfo.scale s.lfo.phase)),
        F32.sub s.lfo.point (lfoSmoothed s.lfo.output s.lfo.alpha (lfoInstant depth s.lfo.scale s.lfo.phase))) ∧
      t = { s with lfo := { s.lfo with
        phase := lfoAdvance s.lfo.phase incr
        output := some (lfoSmoothed s.lfo.output s.lfo.alpha (lfoInstant depth s.lfo.scale s.lfo.phase)) } } := by
  unfold lfoStep
  repeat' split
  all_goals (constructor <;> intro h <;> simp_all)

theorem lfoStep_eq_trap (incr depth : F32) (s t : State) (c : Cause) :
    lfoStep incr depth s = .trap c t ↔ t = s ∧
      ((s.lfo.c = false ∧ c = .notConstructed) ∨
        (s.lfo.c = true ∧ (isNonNegative incr && isPercent depth) = false ∧ c = .badParam)) := by
  unfold lfoStep
  repeat' split
  all_goals (constructor <;> intro h <;> first | (simp_all; done) | grind)

theorem lfoStep_ne_stop (incr depth : F32) (s : State) (f : Fault) : lfoStep incr depth s ≠ .stop f := by
  unfold lfoStep; split <;> (try split) <;> simp

theorem lfoReset_eq_ok (s t : State) (u : Unit) :
    lfoReset s = .ok u t ↔ s.lfo.c = true ∧ t = { s with lfo := { s.lfo with phase := F32.zero, output := none } } := by
  unfold lfoReset
  repeat' split
  all_goals (constructor <;> intro h <;> simp_all)

theorem lfoReset_eq_trap (s t : State) (c : Cause) :
    lfoReset s = .trap c t ↔ s.lfo.c = false ∧ c = .notConstructed ∧ t = s := by
  unfold lfoReset
  repeat' split
  all_goals (constructor <;> intro h <;> simp_all)

theorem lfoReset_ne_stop (s : State) (f : Fault) : lfoReset s ≠ .stop f := by
  unfold lfoReset; split <;> simp

/-! ## Counts -/

/-- An operand word is a count. -/
@[simp] theorem isCount_countOf (w : Word) : isCount (countOf w) = true :=
  decide_eq_true w.isLt

/-- What divides a count that is not zero is a count, and so is the quotient: the registers PK.SPLIT writes. -/
theorem isCount_split (n l : Nat) (h1 : 1 ≤ l) (hl : isCount l = true) (hd : l % n = 0) :
    isCount n = true ∧ isCount (l / n) = true := by
  simp only [isCount, decide_eq_true_eq] at *
  exact ⟨lt_of_le_of_lt (Nat.le_of_dvd h1 (Nat.dvd_of_mod_eq_zero hd)) hl, lt_of_le_of_lt (Nat.div_le_self l n) hl⟩

/-! ## The history buffer -/

theorem hbNew_eq_ok (lb mb : Nat) (s t : State) (u : Unit) :
    hbNew lb mb s = .ok u t ↔ isCount lb = true ∧ isBlockLength mb = true ∧ lb + mb ≤ s.cfg.hbufWords ∧
      t = { s with hb := ⟨true, false, lb, mb, 0⟩, hbuf := s.hbuf.zeroFill (lb + mb) } := by
  unfold hbNew
  repeat' split
  all_goals (constructor <;> intro h <;> simp_all)

theorem hbNew_eq_trap (lb mb : Nat) (s t : State) (c : Cause) :
    hbNew lb mb s = .trap c t ↔
      ¬ (isCount lb = true ∧ isBlockLength mb = true ∧ lb + mb ≤ s.cfg.hbufWords) ∧ c = .badConfig ∧ t = s := by
  unfold hbNew
  repeat' split
  all_goals (constructor <;> intro h <;> first | (simp_all; done) | grind)

theorem hbNew_ne_stop (lb mb : Nat) (s : State) (f : Fault) : hbNew lb mb s ≠ .stop f := by
  unfold hbNew; split <;> simp

theorem hbProcess_eq_ok (xs : List F32) (s t : State) (u : Unit) :
    hbProcess xs s = .ok u t ↔ s.hb.c = true ∧ xs.length ≤ s.hb.maxBlock ∧ s.hb.view = false ∧
      s.hb.lookBehind + xs.length ≤ s.cfg.hbufWords ∧
      t = { s with
        hbuf := s.hbuf.writeList s.hb.lookBehind xs, hb := { s.hb with len := xs.length, view := true } } := by
  unfold hbProcess memWrite
  repeat' split
  all_goals (constructor <;> intro h <;> first | (simp_all; done) | grind)

theorem hbProcess_eq_trap (xs : List F32) (s t : State) (c : Cause) :
    hbProcess xs s = .trap c t ↔ t = s ∧
      ((s.hb.c = false ∧ c = .notConstructed) ∨
        (s.hb.c = true ∧ s.hb.maxBlock < xs.length ∧ c = .badLength) ∨
        (s.hb.c = true ∧ xs.length ≤ s.hb.maxBlock ∧ s.hb.view = true ∧ c = .viewState)) := by
  unfold hbProcess memWrite
  repeat' split
  all_goals (constructor <;> intro h <;> first | (simp_all; done) | grind)

theorem hbView_eq_ok (s t : State) (ws : List F32) :
    hbView s = .ok ws t ↔ s.hb.c = true ∧ s.hb.view = true ∧ s.hb.lookBehind + s.hb.len ≤ s.cfg.hbufWords ∧
      ws = s.hbuf.readList 0 (s.hb.lookBehind + s.hb.len) ∧ t = s := by
  unfold hbView memRead
  repeat' split
  all_goals (constructor <;> intro h <;> first | (simp_all; done) | grind)

theorem hbView_eq_trap (s t : State) (c : Cause) :
    hbView s = .trap c t ↔ t = s ∧
      ((s.hb.c = false ∧ c = .notConstructed) ∨ (s.hb.c = true ∧ s.hb.view = false ∧ c = .viewState)) := by
  unfold hbView memRead
  repeat' split
  all_goals (constructor <;> intro h <;> simp_all)

theorem hbRead_eq_ok (a n : Nat) (s t : State) (ws : List F32) :
    hbRead a n s = .ok ws t ↔ s.hb.c = true ∧ s.hb.view = true ∧ a + n ≤ s.hb.lookBehind + s.hb.len ∧
      a + n ≤ s.cfg.hbufWords ∧ ws = s.hbuf.readList a n ∧ t = s := by
  unfold hbRead memRead
  repeat' split
  all_goals (constructor <;> intro h <;> first | (simp_all; done) | grind)

theorem hbRead_eq_trap (a n : Nat) (s t : State) (c : Cause) :
    hbRead a n s = .trap c t ↔ t = s ∧
      ((s.hb.c = false ∧ c = .notConstructed) ∨ (s.hb.c = true ∧ s.hb.view = false ∧ c = .viewState) ∨
        (s.hb.c = true ∧ s.hb.view = true ∧ s.hb.lookBehind + s.hb.len < a + n ∧ c = .range)) := by
  unfold hbRead memRead
  repeat' split
  all_goals (constructor <;> intro h <;> first | (simp_all; done) | grind)

theorem hbRelease_eq_ok (s t : State) (u : Unit) :
    hbRelease s = .ok u t ↔ s.hb.c = true ∧ s.hb.view = true ∧ s.hb.lookBehind + s.hb.len ≤ s.cfg.hbufWords ∧
      t = { s with hbuf := s.hbuf.copyDown s.hb.len s.hb.lookBehind, hb := { s.hb with view := false } } := by
  unfold hbRelease
  repeat' split
  all_goals (constructor <;> intro h <;> simp_all)

theorem hbRelease_eq_trap (s t : State) (c : Cause) :
    hbRelease s = .trap c t ↔ t = s ∧
      ((s.hb.c = false ∧ c = .notConstructed) ∨ (s.hb.c = true ∧ s.hb.view = false ∧ c = .viewState)) := by
  unfold hbRelease
  repeat' split
  all_goals (constructor <;> intro h <;> simp_all)

theorem hbReset_eq_ok (s t : State) (u : Unit) :
    hbReset s = .ok u t ↔ s.hb.c = true ∧ s.hb.view = false ∧ s.hb.lookBehind + s.hb.maxBlock ≤ s.cfg.hbufWords ∧
      t = { s with hbuf := s.hbuf.zeroFill (s.hb.lookBehind + s.hb.maxBlock) } := by
  unfold hbReset hbufZero
  repeat' split
  all_goals (constructor <;> intro h <;> simp_all)

theorem hbReset_eq_trap (s t : State) (c : Cause) :
    hbReset s = .trap c t ↔ t = s ∧
      ((s.hb.c = false ∧ c = .notConstructed) ∨ (s.hb.c = true ∧ s.hb.view = true ∧ c = .viewState)) := by
  unfold hbReset hbufZero
  repeat' split
  all_goals (constructor <;> intro h <;> simp_all)

/-! ## The kernel -/

theorem loadKernel_eq_ok (taps : List F32) (s t : State) (u : Unit) :
    loadKernel taps s = .ok u t ↔ taps.length ≤ s.cfg.kramWords ∧
      t = { s with
        kram := s.kram.writeList 0 taps, pk := { s.pk with kLen := taps.length, kv := true, sv := false } } := by
  unfold loadKernel memWrite
  repeat' split
  all_goals (constructor <;> intro h <;> simp_all)

theorem loadKernel_ne_trap (taps : List F32) (s t : State) (c : Cause) : loadKernel taps s ≠ .trap c t := by
  intro h
  rw [loadKernel, Res.bind_eq_trap] at h
  rcases h with h | ⟨_, _, _, h⟩
  · exact memWrite_ne_trap _ _ _ _ _ _ h
  · cases h

@[simp] theorem length_lpfTaps (law : Law) (n : Nat) (increment : F32) : (lpfTaps law n increment).length = n := by
  cases law <;> simp [lpfTaps]

theorem isKernelLength_iff (s : State) (n : Nat) :
    isKernelLength s n = true ↔ isCount n = true ∧ 1 ≤ n ∧ n ≤ s.cfg.kramWords := by
  simp [isKernelLength, and_assoc]

theorem pkLpf_eq_ok (n : Nat) (increment : F32) (s t : State) (u : Unit) :
    pkLpf n increment s = .ok u t ↔ (isCount n = true ∧ 1 ≤ n ∧ n ≤ s.cfg.kramWords) ∧ isPositive increment = true ∧
      t = { s with
        kram := s.kram.writeList 0 (lpfTaps s.cfg.lpf n increment)
        pk := { s.pk with kLen := n, kv := true, sv := false } } := by
  unfold pkLpf
  rw [← isKernelLength_iff]
  split
  · constructor <;> intro h <;> simp_all
  · rename_i h
    rw [Bool.not_eq_true', Bool.not_eq_false, Bool.and_eq_true] at h
    rw [loadKernel_eq_ok, length_lpfTaps]
    simp [h, ((isKernelLength_iff s n).mp h.1).2.2]

theorem pkLpf_eq_trap (n : Nat) (increment : F32) (s t : State) (c : Cause) :
    pkLpf n increment s = .trap c t ↔
      ¬ ((isCount n = true ∧ 1 ≤ n ∧ n ≤ s.cfg.kramWords) ∧ isPositive increment = true) ∧ c = .badConfig ∧ t = s := by
  unfold pkLpf
  rw [← isKernelLength_iff]
  split
  · constructor <;> intro h <;> first | (simp_all; done) | grind
  · simp_all [loadKernel_ne_trap]

theorem pkLoadk_eq_ok (taps : List F32) (s t : State) (u : Unit) :
    pkLoadk taps s = .ok u t ↔ (isCount taps.length = true ∧ 1 ≤ taps.length ∧ taps.length ≤ s.cfg.kramWords) ∧
      t = { s with
        kram := s.kram.writeList 0 taps, pk := { s.pk with kLen := taps.length, kv := true, sv := false } } := by
  unfold pkLoadk
  rw [← isKernelLength_iff]
  split
  · simp_all
  · rename_i h
    rw [Bool.not_eq_true', Bool.not_eq_false] at h
    rw [loadKernel_eq_ok]
    simp [h, ((isKernelLength_iff s _).mp h).2.2]

theorem pkLoadk_eq_trap (taps : List F32) (s t : State) (c : Cause) :
    pkLoadk taps s = .trap c t ↔
      ¬ (isCount taps.length = true ∧ 1 ≤ taps.length ∧ taps.length ≤ s.cfg.kramWords) ∧ c = .badConfig ∧ t = s := by
  unfold pkLoadk
  rw [← isKernelLength_iff]
  split
  · constructor <;> intro h <;> simp_all
  · simp_all [loadKernel_ne_trap]

@[simp] theorem length_splitTaps (kernel : List F32) (n m : Nat) : (splitTaps kernel n m).length = n * m := by
  simp [splitTaps]

theorem pkSplit_eq_ok (n : Nat) (s t : State) (u : Unit) :
    pkSplit n s = .ok u t ↔ s.pk.kv = true ∧ 1 ≤ n ∧ s.pk.kLen % n = 0 ∧ s.pk.kLen ≤ s.cfg.kramWords ∧
      t = { s with
        pram := s.pram.writeList 0 (splitTaps (s.kram.readList 0 s.pk.kLen) n (s.pk.kLen / n))
        pk := { s.pk with nPhases := n, m := s.pk.kLen / n, sv := true } } := by
  unfold pkSplit memRead memWrite
  by_cases hk : s.pk.kv = true
  · by_cases h : 1 ≤ n ∧ s.pk.kLen % n = 0
    · have hm : n * (s.pk.kLen / n) = s.pk.kLen := Nat.mul_div_cancel' (Nat.dvd_of_mod_eq_zero h.2)
      by_cases hl : s.pk.kLen ≤ s.cfg.kramWords <;> simp [hk, h, hm, hl, eq_comm]
    · have h' : (decide (1 ≤ n) && s.pk.kLen % n == 0) = false := by
        rw [Bool.eq_false_iff]; simpa using h
      simp only [hk, h', Bool.not_true, Bool.not_false, if_true, Bool.false_eq_true, if_false]
      refine ⟨fun h => (nomatch h), fun hh => absurd ⟨hh.2.1, hh.2.2.1⟩ h⟩
  · simp [hk]

theorem pkSplit_eq_trap (n : Nat) (s t : State) (c : Cause) :
    pkSplit n s = .trap c t ↔ t = s ∧
      ((s.pk.kv = false ∧ c = .notConstructed) ∨
        (s.pk.kv = true ∧ ¬ (1 ≤ n ∧ s.pk.kLen % n = 0) ∧ c = .badConfig)) := by
  unfold pkSplit memRead memWrite
  by_cases hk : s.pk.kv = true
  · by_cases h : 1 ≤ n ∧ s.pk.kLen % n = 0
    · by_cases hl : s.pk.kLen ≤ s.cfg.kramWords
      · simp only [hk, h, hl, Nat.zero_add, decide_true, beq_self_eq_true, Bool.and_self, Bool.not_true, if_true,
          Bool.false_eq_true, if_false, Res.bind_ok]
        split <;> simp
      · simp [hk, h, hl]
    · have h' : (decide (1 ≤ n) && s.pk.kLen % n == 0) = false := by
        rw [Bool.eq_false_iff]; simpa using h
      simp only [hk, h', Bool.not_true, Bool.not_false, if_true, Bool.false_eq_true, if_false, h, not_false_eq_true,
        Res.trap.injEq, true_and, false_and, false_or, Bool.true_eq_false]
      exact ⟨fun hh => ⟨hh.2.symm, hh.1.symm⟩, fun hh => ⟨hh.2.symm, hh.1.symm⟩⟩
  · simp [hk, eq_comm, and_comm]

/-! ## The compander and the waveshaper -/

theorem cmpNew_eq_ok (fs : F32) (s t : State) (u : Unit) :
    cmpNew fs s = .ok u t ↔ isPositive fs = true ∧
      t = { s with cmp := ⟨true, onePole tauAttack fs, onePole tauRelease fs, F32.one⟩ } := by
  unfold cmpNew
  repeat' split
  all_goals (constructor <;> intro h <;> simp_all)

theorem cmpNew_eq_trap (fs : F32) (s t : State) (c : Cause) :
    cmpNew fs s = .trap c t ↔ isPositive fs = false ∧ c = .badConfig ∧ t = s := by
  unfold cmpNew
  repeat' split
  all_goals (constructor <;> intro h <;> simp_all)

theorem cmpDetect_eq_ok (x : F32) (s t : State) (y : F32) :
    cmpDetect x s = .ok y t ↔ s.cmp.c = true ∧ y = envelopeAfter s.cmp x ∧
      t = { s with cmp := { s.cmp with env := envelopeAfter s.cmp x } } := by
  unfold cmpDetect
  repeat' split
  all_goals (constructor <;> intro h <;> first | (simp_all; done) | grind)

theorem cmpDetect_eq_trap (x : F32) (s t : State) (c : Cause) :
    cmpDetect x s = .trap c t ↔ s.cmp.c = false ∧ c = .notConstructed ∧ t = s := by
  unfold cmpDetect
  repeat' split
  all_goals (constructor <;> intro h <;> simp_all)

theorem cmpReset_eq_ok (s t : State) (u : Unit) :
    cmpReset s = .ok u t ↔ s.cmp.c = true ∧ t = { s with cmp := { s.cmp with env := F32.one } } := by
  unfold cmpReset
  repeat' split
  all_goals (constructor <;> intro h <;> simp_all)

theorem cmpReset_eq_trap (s t : State) (c : Cause) :
    cmpReset s = .trap c t ↔ s.cmp.c = false ∧ c = .notConstructed ∧ t = s := by
  unfold cmpReset
  repeat' split
  all_goals (constructor <;> intro h <;> simp_all)

theorem cmpNew_ne_stop (fs : F32) (s : State) (f : Fault) : cmpNew fs s ≠ .stop f := by
  unfold cmpNew; split <;> simp

theorem cmpDetect_ne_stop (x : F32) (s : State) (f : Fault) : cmpDetect x s ≠ .stop f := by
  unfold cmpDetect; split <;> simp

theorem cmpReset_ne_stop (s : State) (f : Fault) : cmpReset s ≠ .stop f := by
  unfold cmpReset; split <;> simp

@[simp] theorem cmpCompress_eq (signal level : F32) (s : State) :
    cmpCompress signal level s = .ok (F32.div (F32.add signal s.cfg.eps) (F32.add level s.cfg.eps)) s := rfl

@[simp] theorem cmpExpand_eq (signal level : F32) (s : State) :
    cmpExpand signal level s = .ok (F32.mul signal level) s := rfl

@[simp] theorem nlShape_eq (x : F32) (s : State) : nlShape x s = .ok (shape x) s := rfl

/-! ## The filters -/

theorem aafNew_eq_ok (k : Nat) (fs : F32) (s t : State) (u : Unit) :
    aafNew k fs s = .ok u t ↔ k < s.cfg.nAaf.val ∧ isPositive fs = true ∧
      t = { s with
        aaf := s.aaf.set k {
          c := true
          g := if F32.le fs aafThreshold then none else some (svfCoefficient s.cfg.svf aafCutoff fs)
          stage0 := zeroStage
          stage1 := zeroStage } } := by
  unfold aafNew
  repeat' split
  all_goals (constructor <;> intro h <;> first | (simp_all; done) | grind)

theorem aafNew_eq_trap (k : Nat) (fs : F32) (s t : State) (c : Cause) :
    aafNew k fs s = .trap c t ↔ t = s ∧
      ((s.cfg.nAaf.val ≤ k ∧ c = .badInstance) ∨
        (k < s.cfg.nAaf.val ∧ isPositive fs = false ∧ c = .badConfig)) := by
  unfold aafNew
  repeat' split
  all_goals (constructor <;> intro h <;> first | (simp_all; done) | grind)

theorem aafStep_eq_ok (k : Nat) (x : F32) (s t : State) (y : F32) :
    aafStep k x s = .ok y t ↔ k < s.cfg.nAaf.val ∧ (s.aaf.get k).c = true ∧
      y = (aafFilter s.cfg.svf (s.aaf.get k) x).2 ∧
      t = { s with aaf := s.aaf.set k (aafFilter s.cfg.svf (s.aaf.get k) x).1 } := by
  unfold aafStep
  repeat' split
  all_goals (constructor <;> intro h <;> first | (simp_all; done) | grind)

theorem aafStep_eq_trap (k : Nat) (x : F32) (s t : State) (c : Cause) :
    aafStep k x s = .trap c t ↔ t = s ∧
      ((s.cfg.nAaf.val ≤ k ∧ c = .badInstance) ∨
        (k < s.cfg.nAaf.val ∧ (s.aaf.get k).c = false ∧ c = .notConstructed)) := by
  unfold aafStep
  repeat' split
  all_goals (constructor <;> intro h <;> first | (simp_all; done) | grind)

theorem aafReset_eq_ok (k : Nat) (s t : State) (u : Unit) :
    aafReset k s = .ok u t ↔ k < s.cfg.nAaf.val ∧ (s.aaf.get k).c = true ∧
      t = { s with aaf := s.aaf.set k { s.aaf.get k with stage0 := zeroStage, stage1 := zeroStage } } := by
  unfold aafReset
  repeat' split
  all_goals (constructor <;> intro h <;> first | (simp_all; done) | grind)

theorem aafReset_eq_trap (k : Nat) (s t : State) (c : Cause) :
    aafReset k s = .trap c t ↔ t = s ∧
      ((s.cfg.nAaf.val ≤ k ∧ c = .badInstance) ∨
        (k < s.cfg.nAaf.val ∧ (s.aaf.get k).c = false ∧ c = .notConstructed)) := by
  unfold aafReset
  repeat' split
  all_goals (constructor <;> intro h <;> first | (simp_all; done) | grind)

theorem aafNew_ne_stop (k : Nat) (fs : F32) (s : State) (f : Fault) : aafNew k fs s ≠ .stop f := by
  unfold aafNew; split <;> (try split) <;> simp

theorem aafStep_ne_stop (k : Nat) (x : F32) (s : State) (f : Fault) : aafStep k x s ≠ .stop f := by
  unfold aafStep; split <;> (try split) <;> simp

theorem aafReset_ne_stop (k : Nat) (s : State) (f : Fault) : aafReset k s ≠ .stop f := by
  unfold aafReset; split <;> (try split) <;> simp

/-! ## The delay line -/

/-- The window of a read: the absolute index of its last word and of its first. -/
def readWindow (i : Nat) (delay : F32) (s : State) : Int × Int :=
  ((s.hb.lookBehind : Int) + i - (phaseSel s.cfg.phaseSel delay s.pk.nPhases s.pk.m).1,
    (s.hb.lookBehind : Int) + i - (phaseSel s.cfg.phaseSel delay s.pk.nPhases s.pk.m).1 - s.pk.m + 1)

/-- A read that completes: its answer, and that nothing changes. -/
theorem dlRead_eq_ok (i : Nat) (delay : F32) (s t : State) (y : F32) (h : dlRead i delay s = .ok y t) :
    s.hb.c = true ∧ s.pk.sv = true ∧ s.hb.view = true ∧ i < s.hb.len ∧ isNonNegative delay = true ∧
    0 ≤ (readWindow i delay s).2 ∧ (readWindow i delay s).1 ≤ (s.hb.lookBehind : Int) + s.hb.len - 1 ∧
    y = dotProduct
      (s.pram.readList ((phaseSel s.cfg.phaseSel delay s.pk.nPhases s.pk.m).2 * s.pk.m) s.pk.m)
      (s.hbuf.readList (readWindow i delay s).2.toNat s.pk.m) ∧ t = s := by
  unfold dlRead at h
  split at h; · cases h
  split at h; · cases h
  split at h; · cases h
  split at h; · cases h
  dsimp only at h
  split at h; · cases h
  rename_i hc hv hi hd hw
  obtain ⟨taps, u, htaps, h⟩ := (Res.bind_eq_ok _ _ _ _).mp h
  obtain ⟨window, v, hwindow, h⟩ := (Res.bind_eq_ok _ _ _ _).mp h
  obtain ⟨_, rfl, rfl⟩ := (memRead_pram_eq_ok _ _ _ _ _).mp htaps
  obtain ⟨_, rfl, rfl⟩ := (memRead_hbuf_eq_ok _ _ _ _ _).mp hwindow
  cases h
  simp only [Bool.not_eq_true', Bool.not_eq_false, Bool.and_eq_true] at hc hv hd
  simp only [readWindow]
  exact ⟨hc.1, hc.2, hv, by omega, hd, by omega, by omega, by trivial⟩

/-- A read that faults writes nothing. -/
theorem dlRead_eq_trap (i : Nat) (delay : F32) (s t : State) (c : Cause) (h : dlRead i delay s = .trap c t) :
    t = s ∧ (c = .notConstructed ∨ c = .viewState ∨ c = .range ∨ c = .badParam) := by
  unfold dlRead at h
  split at h; · cases h; simp
  split at h; · cases h; simp
  split at h; · cases h; simp
  split at h; · cases h; simp
  dsimp only at h
  split at h; · cases h; simp
  rcases (Res.bind_eq_trap _ _ _ _).mp h with h | ⟨_, _, _, h⟩
  · exact absurd h (memRead_ne_trap _ _ _ _ _ _)
  · rcases (Res.bind_eq_trap _ _ _ _).mp h with h | ⟨_, _, _, h⟩
    · exact absurd h (memRead_ne_trap _ _ _ _ _ _)
    · cases h

/-! ## The history FX.NEW constructs -/

/-- Within the bounds `LFO.NEW` accepts, the integer `floor` is the natural one. -/
theorem floor_of_nonneg (w : F32) (hf : F32.isFinite w = true) (h0 : F32.le F32.zero w = true) :
    F32.floor w = F32.floorNat w := by
  have hv : F32.value w = F32.units w := by
    unfold F32.value
    split
    · rename_i hn
      have hm : F32.mag w = 0 := by
        have hz : F32.order F32.zero = 0 := by decide
        simp only [F32.le, hz, Bool.and_eq_true, decide_eq_true_eq] at h0
        simp only [F32.order, hn, if_true] at h0
        omega
      simp [F32.units, F32.unitsOfMag, hm]
    · rfl
  simp [F32.floor, hf, hv, F32.floorNat]

theorem fxHbNew_of_nonneg (fs : F32) (mb : Nat) (s : State)
    (hf : F32.isFinite (fxLfoBounds s.cfg fs).2 = true) (h0 : F32.le F32.zero (fxLfoBounds s.cfg fs).2 = true) :
    fxHbNew fs mb s =
      hbNew (F32.floorNat (fxLfoBounds s.cfg fs).2 + (s.cfg.kLen / s.cfg.nPhases + 1) / 2) mb s := by
  have h : fxLookBehind s.cfg fs =
      ((F32.floorNat (fxLfoBounds s.cfg fs).2 + (s.cfg.kLen / s.cfg.nPhases + 1) / 2 : Nat) : Int) := by
    rw [fxLookBehind, floor_of_nonneg _ hf h0]; push_cast; rfl
  rw [fxHbNew, h, if_neg (not_lt.mpr (Int.natCast_nonneg _)), Int.toNat_natCast]

/-- Whatever `LFO_MAX` is, the construction of the history completes as HB.NEW does, or faults BAD_CONFIG. -/
theorem fxHbNew_cases (fs : F32) (mb : Nat) (s : State) :
    (∃ lb, fxHbNew fs mb s = hbNew lb mb s) ∨ fxHbNew fs mb s = .trap .badConfig s := by
  unfold fxHbNew
  split
  · exact .inr rfl
  · exact .inl ⟨_, rfl⟩

end Sys2Proof.Machine
end

