-- ==== Sys2Proof/Laws/Chain.lean ====
section
/-!
SUPPORT. What a command issued by the host gives, and what is observed of a sequence of operations, said once.
-/

namespace Sys2Proof.Machine

/-- A command the host issues goes on exactly where it leaves a state without a fault. -/
theorem issue_eq_ok (i : Instr) (s t : State) : issue i s = .ok t ↔ exec i s = .next t ∧ t.fault = false := by
  unfold issue
  cases h : exec i s with
  | next u => cases hu : u.fault <;> simp only [hu, Host.Outcome.next.injEq, Bool.false_eq_true, if_true, if_false] <;> grind
  | fault f => simp
  | refused r => simp

/-- A command the host issues gives the `CAUSE` it leaves, where it faults. -/
theorem issue_of_fault (i : Instr) (s t : State) (h : exec i s = .next t) (hf : t.fault = true) :
    issue i s = .error t.cause := by
  simp [issue, h, hf]

/-- A command that completes with one word. -/
theorem ask_of_next (i : Instr) (s t : State) (w : Word) (h : exec i s = .next t) (hf : t.fault = false)
    (hr : t.resp = [w]) : ask i s = .ok (w, t) := by
  simp [ask, (issue_eq_ok i s t).mpr ⟨h, hf⟩, Except.bind, hr]

/-- A command the host asks a word of, where it faults. -/
theorem ask_of_fault (i : Instr) (s t : State) (h : exec i s = .next t) (hf : t.fault = true) :
    ask i s = .error t.cause := by
  simp [ask, issue_of_fault i s t h hf, Except.bind]

/-- What is observed of a sequence whose first operation goes on. -/
theorem observations_cons (i : Instr) (is : List Instr) (s t : State) (h : exec i s = .next t) :
    observations (i :: is) s = some (t.resp, t.status) :: observations is t := by
  simp [observations, observed, h]

/-- Two operations that go on to states of which the same is observed, now and later. -/
theorem observations_congr (i : Instr) (is : List Instr) (s s' t t' : State) (h : exec i s = .next t)
    (h' : exec i s' = .next t') (hr : t.resp = t'.resp) (hst : t.status = t'.status)
    (ho : observations is t = observations is t') : observations (i :: is) s = observations (i :: is) s' := by
  rw [observations_cons i is s t h, observations_cons i is s' t' h', hr, hst, ho]

/-- An operation that changes neither `FAULT`, filter 3 nor the count of free draws keeps the chain's frame. -/
theorem ChainFrame.of_eq (s t : State) (h3 : t.aaf.f3 = s.aaf.f3) (hd : t.freed = s.freed) : ChainFrame s t :=
  ⟨fun _ => ⟨h3, hd⟩, fun _ => .inl ⟨h3, hd⟩⟩

end Sys2Proof.Machine
end

