-- ==== Sys2Proof/Laws/Encoding.lean ====
section
/-!
SUPPORT. The header's fields and the row it selects: what `selectOpcode` answers on an encoded header.
-/

namespace Sys2Proof

/-- Two words are equal iff their halves are. -/
theorem append_beq (x px y py : BitVec 16) :
    ((x ++ y : BitVec 32) == (px ++ py : BitVec 32)) = ((x == px) && (y == py)) := by
  rw [Bool.eq_iff_iff]
  simp only [beq_iff_eq, Bool.and_eq_true]
  refine ⟨fun h => ⟨?_, ?_⟩, fun ⟨hx, hy⟩ => by rw [hx, hy]⟩
  · simpa only [BitVec.extractLsb'_append_eq_left] using congrArg (BitVec.extractLsb' 16 16) h
  · simpa only [BitVec.extractLsb'_append_eq_right] using congrArg (BitVec.extractLsb' 0 16) h

/-- A word is the concatenation of its halves. -/
theorem eq_append_halves (w : Word) : w = (w.extractLsb' 16 16 ++ w.extractLsb' 0 16 : BitVec 32) := by
  refine BitVec.eq_of_getLsbD_eq fun i hi => ?_
  rw [BitVec.getLsbD_append, BitVec.getLsbD_extractLsb', BitVec.getLsbD_extractLsb']
  by_cases h : i < 16
  · simp [h]
  · rw [if_neg h, show 16 + (i - 16) = i by omega]
    simp [show i - 16 < 16 by omega]

/-- A row's match, half by half. -/
theorem row_matches (x y : BitVec 16) (r : OpcodeRow) :
    (((x ++ y : BitVec 32) &&& r.mask) == r.pattern) =
      (((x &&& r.mask.extractLsb' 16 16) == r.pattern.extractLsb' 16 16) &&
        ((y &&& r.mask.extractLsb' 0 16) == r.pattern.extractLsb' 0 16)) := by
  rw [← append_beq, ← BitVec.and_append, ← eq_append_halves, ← eq_append_halves]

@[simp] theorem headerOpcode_append (b k : BitVec 8) (n : BitVec 16) :
    headerOpcode ((b ++ k : BitVec 16) ++ n : BitVec 32) = b := by
  refine BitVec.eq_of_getLsbD_eq fun i hi => ?_
  rw [headerOpcode, BitVec.getLsbD_extractLsb', BitVec.getLsbD_append, BitVec.getLsbD_append]
  rw [if_neg (by omega), if_neg (by omega), show 24 + i - 16 - 8 = i by omega]
  simp [hi]

@[simp] theorem headerInst_append (b k : BitVec 8) (n : BitVec 16) :
    headerInst ((b ++ k : BitVec 16) ++ n : BitVec 32) = k := by
  refine BitVec.eq_of_getLsbD_eq fun i hi => ?_
  rw [headerInst, BitVec.getLsbD_extractLsb', BitVec.getLsbD_append, BitVec.getLsbD_append]
  rw [if_neg (by omega), if_pos (by omega), show 16 + i - 16 = i by omega]
  simp [hi]

@[simp] theorem headerCount_append (x y : BitVec 16) : headerCount (x ++ y : BitVec 32) = y :=
  BitVec.extractLsb'_append_eq_right

/-- The header of a counted operation selects it, whatever the count (rule R74). -/
theorem selectOpcode_counted (op : Opcode) (n : Nat)
    (h : op = .hbProcess ∨ op = .pkLoadk ∨ op = .fxParams ∨ op = .fxProcess) :
    selectOpcode (header op 0 n) = some op := by
  rcases h with rfl | rfl | rfl | rfl <;>
    simp [selectOpcode, header, opcodeMap, row_matches, Opcode.byte]

/-- The header of a filter operation selects it, whatever the instance (rule R74). -/
theorem selectOpcode_instance (op : Opcode) (k : BitVec 8) (h : op = .aafNew ∨ op = .aafStep ∨ op = .aafReset) :
    selectOpcode (header op k 0) = some op := by
  revert k
  rcases h with rfl | rfl | rfl <;> decide +kernel

/-- The header of any other operation selects it (rule R74). -/
theorem selectOpcode_plain (op : Opcode) : selectOpcode (header op 0 0) = some op := by
  cases op <;> decide +kernel

end Sys2Proof
end

