-- ==== Sys2Proof/Laws/PerInstr.lean ====
section
/-!
SUPPORT. A law stated per instruction: the header of a packet tells how many operand words follow it (rule R73).
-/

namespace Sys2Proof.Laws

/-- The header tells the packet's length: "a decoder tells the length of a packet from the header alone" (rule R73). -/
def PacketLength.Statement (i : Instr) : Prop :=
  i.WellFormed = true → ∃ h ws, encode i = h :: ws ∧ ws.length = operandWordsOf h

/-- A packet whose header selects a row with a fixed number of operand words. -/
theorem PacketLength.of_header (op : Opcode) (k : BitVec 8) (n : Nat) (ws : List Word)
    (hsel : selectOpcode (header op k n) = some op) (hn : n < 65536) (hlen : ws.length = op.operandWords n) :
    ws.length = operandWordsOf (header op k n) := by
  simp only [operandWordsOf, hsel, hlen]
  rw [header, headerCount_append, BitVec.toNat_ofNat, Nat.mod_eq_of_lt (by simpa using hn)]

@[simp] theorem PacketLength.paramSampleWords_length (ps : List ParamSample) :
    (paramSampleWords ps).length = 4 * ps.length := by
  induction ps with
  | nil => rfl
  | cons p ps ih => simp only [paramSampleWords, List.length_cons, ih]; omega

/-- A packet without inst or count. -/
theorem PacketLength.plain (i : Instr) (op : Opcode) (ws : List Word) (henc : encode i = header op 0 0 :: ws)
    (hlen : ws.length = op.operandWords 0) : PacketLength.Statement i :=
  fun _ => ⟨_, _, henc, of_header op 0 0 ws (selectOpcode_plain op) (by decide) hlen⟩

/-- A packet of a filter instance. -/
theorem PacketLength.ofInstance (i : Instr) (op : Opcode) (k : BitVec 8) (ws : List Word)
    (henc : encode i = header op k 0 :: ws) (hop : op = .aafNew ∨ op = .aafStep ∨ op = .aafReset)
    (hlen : ws.length = op.operandWords 0) : PacketLength.Statement i :=
  fun _ => ⟨_, _, henc, of_header op k 0 ws (selectOpcode_instance op k hop) (by decide) hlen⟩

/-- A packet with a count. -/
theorem PacketLength.counted (i : Instr) (op : Opcode) (n : Nat) (ws : List Word)
    (henc : encode i = header op 0 n :: ws)
    (hop : op = .hbProcess ∨ op = .pkLoadk ∨ op = .fxParams ∨ op = .fxProcess)
    (hn : i.WellFormed = true → n ≤ maxCount) (hlen : ws.length = op.operandWords n) :
    PacketLength.Statement i :=
  fun hw => ⟨_, _, henc, of_header op 0 n ws (selectOpcode_counted op n hop)
    (by have := hn hw; unfold maxCount at this; omega) hlen⟩

theorem PacketLength.lfoNew (lo hi : F32) : Statement (.lfoNew lo hi) := plain _ .lfoNew _ rfl rfl
theorem PacketLength.lfoStep (incr depth : F32) : Statement (.lfoStep incr depth) := plain _ .lfoStep _ rfl rfl
theorem PacketLength.lfoReset : Statement .lfoReset := plain _ .lfoReset _ rfl rfl
theorem PacketLength.hbNew (lb mb : Word) : Statement (.hbNew lb mb) := plain _ .hbNew _ rfl rfl
theorem PacketLength.hbProcess (samples : List F32) : Statement (.hbProcess samples) :=
  counted _ .hbProcess samples.length _ rfl (by simp) (by simp [Instr.WellFormed]) rfl
theorem PacketLength.hbView : Statement .hbView := plain _ .hbView _ rfl rfl
theorem PacketLength.hbRead (start count : Word) : Statement (.hbRead start count) := plain _ .hbRead _ rfl rfl
theorem PacketLength.hbRelease : Statement .hbRelease := plain _ .hbRelease _ rfl rfl
theorem PacketLength.hbReset : Statement .hbReset := plain _ .hbReset _ rfl rfl
theorem PacketLength.pkLpf (length : Word) (increment : F32) : Statement (.pkLpf length increment) :=
  plain _ .pkLpf _ rfl rfl
theorem PacketLength.pkLoadk (taps : List F32) : Statement (.pkLoadk taps) :=
  counted _ .pkLoadk taps.length _ rfl (by simp) (by simp [Instr.WellFormed]) rfl
theorem PacketLength.pkSplit (n : Word) : Statement (.pkSplit n) := plain _ .pkSplit _ rfl rfl
theorem PacketLength.dlRead (i : Word) (delay : F32) : Statement (.dlRead i delay) := plain _ .dlRead _ rfl rfl
theorem PacketLength.cmpNew (fs : F32) : Statement (.cmpNew fs) := plain _ .cmpNew _ rfl rfl
theorem PacketLength.cmpDetect (x : F32) : Statement (.cmpDetect x) := plain _ .cmpDetect _ rfl rfl
theorem PacketLength.cmpReset : Statement .cmpReset := plain _ .cmpReset _ rfl rfl
theorem PacketLength.cmpCompress (signal level : F32) : Statement (.cmpCompress signal level) :=
  plain _ .cmpCompress _ rfl rfl
theorem PacketLength.cmpExpand (signal level : F32) : Statement (.cmpExpand signal level) :=
  plain _ .cmpExpand _ rfl rfl
theorem PacketLength.nlShape (x : F32) : Statement (.nlShape x) := plain _ .nlShape _ rfl rfl
theorem PacketLength.aafNew (k : BitVec 8) (fs : F32) : Statement (.aafNew k fs) :=
  ofInstance _ .aafNew k _ rfl (by simp) rfl
theorem PacketLength.aafStep (k : BitVec 8) (x : F32) : Statement (.aafStep k x) :=
  ofInstance _ .aafStep k _ rfl (by simp) rfl
theorem PacketLength.aafReset (k : BitVec 8) : Statement (.aafReset k) :=
  ofInstance _ .aafReset k _ rfl (by simp) rfl
theorem PacketLength.fxNew (fs : F32) (mb : Word) : Statement (.fxNew fs mb) := plain _ .fxNew _ rfl rfl
theorem PacketLength.fxSetproc (on : Word) : Statement (.fxSetproc on) := plain _ .fxSetproc _ rfl rfl
theorem PacketLength.fxParams (params : List ParamSample) : Statement (.fxParams params) :=
  counted _ .fxParams params.length _ rfl (by simp) (by simp [Instr.WellFormed]) (by simp [Opcode.operandWords])
theorem PacketLength.fxProcess (block : List FxSample) : Statement (.fxProcess block) :=
  counted _ .fxProcess block.length _ rfl (by simp) (by simp [Instr.WellFormed])
    (by simp only [List.length_append, paramSampleWords_length, List.length_map, Opcode.operandWords]; omega)
theorem PacketLength.fxReset : Statement .fxReset := plain _ .fxReset _ rfl rfl

end Sys2Proof.Laws
end

