-- ==== Sys2Proof/Tests/Slice0.lean ====
section
/-!
SUPPORT. Tests. Expected results are the vectors of 95_test_vectors.md, named in each comment; each test is one step on a
small state. Then, for every obligation with hypotheses, a concrete state and operands that meet them.
-/

namespace Sys2Proof.Tests

open Sys2Proof Sys2Proof.Machine

set_option Elab.async false

/-! ## Well-formedness -/

theorem test_wf_hbProcess_too_long : (Instr.hbProcess (List.replicate 65536 0)).WellFormed = false := by
  simp only [Instr.WellFormed, maxCount, List.length_replicate]; decide

theorem test_wf_pkLoadk_too_long : (Instr.pkLoadk (List.replicate 65536 0)).WellFormed = false := by
  simp only [Instr.WellFormed, maxCount, List.length_replicate]; decide

theorem test_wf_fxParams_too_long : (Instr.fxParams (List.replicate 65536 ⟨0, 0, 0, 0⟩)).WellFormed = false := by
  simp only [Instr.WellFormed, maxCount, List.length_replicate]; decide

theorem test_wf_fxProcess_too_long :
    (Instr.fxProcess (List.replicate 65536 ⟨⟨0, 0, 0, 0⟩, 0⟩)).WellFormed = false := by
  simp only [Instr.WellFormed, maxCount, List.length_replicate]; decide

theorem test_wf_longest : (Instr.hbProcess (List.replicate 65535 0)).WellFormed = true := by
  simp only [Instr.WellFormed, maxCount, List.length_replicate]; decide

/-! ## Decoding: V-ENC-1, V-ENC-2 and the programs' packet words -/

theorem test_decode_lfo :
    decode [0x10000000#32, 0x42C80000#32, 0x43960000#32] = .ok (.lfoNew 0x42C80000#32 0x43960000#32, []) ∧
    decode [0x11000000#32, 0x3E800000#32, 0x42C80000#32] = .ok (.lfoStep 0x3E800000#32 0x42C80000#32, []) ∧
    decode [0x12000000#32, 7#32] = .ok (.lfoReset, [7#32]) := ⟨rfl, rfl, rfl⟩

theorem test_decode_hb :
    decode [0x20000000#32, 3#32, 4#32] = .ok (.hbNew 3#32 4#32, []) ∧
    decode [0x21000002#32, 0x40A00000#32, 0x40C00000#32, 9#32] =
      .ok (.hbProcess [0x40A00000#32, 0x40C00000#32], [9#32]) ∧
    decode [0x21000000#32] = .ok (.hbProcess [], []) ∧
    decode [0x22000000#32] = .ok (.hbView, []) ∧
    decode [0x23000000#32, 2#32, 3#32] = .ok (.hbRead 2#32 3#32, []) ∧
    decode [0x24000000#32] = .ok (.hbRelease, []) ∧
    decode [0x25000000#32] = .ok (.hbReset, []) := ⟨rfl, rfl, rfl, rfl, rfl, rfl, rfl⟩

theorem test_decode_pk_dl :
    decode [0x30000000#32, 8#32, 0x3E800000#32] = .ok (.pkLpf 8#32 0x3E800000#32, []) ∧
    decode [0x31000003#32, 1#32, 2#32, 3#32] = .ok (.pkLoadk [1#32, 2#32, 3#32], []) ∧
    decode [0x32000000#32, 4#32] = .ok (.pkSplit 4#32, []) ∧
    decode [0x40000000#32, 3#32, 0x3FA00000#32] = .ok (.dlRead 3#32 0x3FA00000#32, []) := ⟨rfl, rfl, rfl, rfl⟩

theorem test_decode_cmp_nl :
    decode [0x50000000#32, 0x473B8000#32] = .ok (.cmpNew 0x473B8000#32, []) ∧
    decode [0x51000000#32, 0x40000000#32] = .ok (.cmpDetect 0x40000000#32, []) ∧
    decode [0x52000000#32] = .ok (.cmpReset, []) ∧
    decode [0x53000000#32, 0x40000000#32, 0x3F853948#32] = .ok (.cmpCompress 0x40000000#32 0x3F853948#32, []) ∧
    decode [0x54000000#32, 0x3FF5211C#32, 0x3F853948#32] = .ok (.cmpExpand 0x3FF5211C#32 0x3F853948#32, []) ∧
    decode [0x60000000#32, 0x3FF5DA00#32] = .ok (.nlShape 0x3FF5DA00#32, []) := ⟨rfl, rfl, rfl, rfl, rfl, rfl⟩

theorem test_decode_aaf :
    decode [0x70000000#32, 0x46ABE000#32] = .ok (.aafNew 0#8 0x46ABE000#32, []) ∧
    decode [0x71010000#32, 0x3FFF221A#32] = .ok (.aafStep 1#8 0x3FFF221A#32, []) ∧
    decode [0x72020000#32] = .ok (.aafReset 2#8, []) ∧
    decode [0x71FF0000#32, 0#32] = .ok (.aafStep 255#8 0#32, []) := ⟨rfl, rfl, rfl, rfl⟩

theorem test_decode_fx :
    decode [0x80000000#32, 0x473B8000#32, 64#32] = .ok (.fxNew 0x473B8000#32 64#32, []) ∧
    decode [0x81000000#32, 1#32] = .ok (.fxSetproc 1#32, []) ∧
    decode [0x82000002#32, 1#32, 2#32, 3#32, 4#32, 5#32, 6#32, 7#32, 8#32] =
      .ok (.fxParams [⟨1#32, 2#32, 3#32, 4#32⟩, ⟨5#32, 6#32, 7#32, 8#32⟩], []) ∧
    decode [0x83000001#32, 0x3EB33333#32, 0x42C80000#32, 0x42C80000#32, 0#32, 0x3F000000#32] =
      .ok (.fxProcess [⟨⟨0x3EB33333#32, 0x42C80000#32, 0x42C80000#32, 0#32⟩, 0x3F000000#32⟩], []) ∧
    decode [0x84000000#32] = .ok (.fxReset, []) := ⟨rfl, rfl, rfl, rfl, rfl⟩

/-- V-ENC-3, with the reason each header is illegal. -/
theorem test_decode_illegal :
    decode [0x00000000#32] = .error .reservedUnit ∧ decode [0xFFFFFFFF#32] = .error .reservedUnit ∧
    decode [0x90000000#32] = .error .reservedUnit ∧ decode [0x13000000#32] = .error .undefinedFunc ∧
    decode [0x26000000#32] = .error .undefinedFunc ∧ decode [0x41000000#32] = .error .undefinedFunc ∧
    decode [0x61000000#32] = .error .undefinedFunc ∧ decode [0x85000000#32] = .error .undefinedFunc ∧
    decode [0x11010000#32] = .error .mustBeZero ∧ decode [0x11000001#32] = .error .mustBeZero ∧
    decode [0x22000001#32] = .error .mustBeZero ∧ decode [0x71000001#32] = .error .mustBeZero :=
  ⟨rfl, rfl, rfl, rfl, rfl, rfl, rfl, rfl, rfl, rfl, rfl, rfl⟩

theorem test_decode_incomplete :
    decode [] = .error .incomplete ∧ decode [0x11000000#32, 0#32] = .error .incomplete ∧
    decode [0x83000001#32, 0#32, 0#32, 0#32, 0#32] = .error .incomplete := ⟨rfl, rfl, rfl⟩

/-- The opcode table's numbering: bit 0 is the least significant bit of the header. -/
theorem test_decode_table_word :
    decodeTableWord 32 0x21000002 = some (.hbProcess [0, 0]) ∧
    decodeTableWord 96 (0x11000000 + 0x3E800000 * 2 ^ 32 + 0x42C80000 * 2 ^ 64) =
      some (.lfoStep 0x3E800000#32 0x42C80000#32) ∧
    decodeTableWord 32 0x13000000 = none := by decide +kernel

/-! ## Small states -/

/-- What a test looks at after a step. -/
def afterwards {α : Type} (o : Host.Outcome State Fault Refusal) (look : State → α) : Option α :=
  match o with
  | .next t => some (look t)
  | .fault _ => none
  | .refused _ => none

/-- Memory words from index 0 on. -/
def words (m : Mem) (n : Nat) : List Word := m.readList 0 n

/-- The LFO of V-LFO-1 with a given phase and output. -/
def lfoState (phase : F32) (output : Option F32) : State :=
  { State.reset with lfo := ⟨true, 0x43480000#32, 0x40800000#32, 0x3B23A300#32, phase, output⟩ }

/-- A history buffer with words given from index 0 on. -/
def hbState (view : Bool) (lookBehind maxBlock len : Nat) (ws : List Word) : State :=
  { State.reset with hb := ⟨true, view, lookBehind, maxBlock, len⟩, hbuf := Mem.writeList [] 0 ws }

/-- The floats 1.0 to 8.0. -/
def oneToEight : List F32 :=
  [0x3F800000#32, 0x40000000#32, 0x40400000#32, 0x40800000#32,
   0x40A00000#32, 0x40C00000#32, 0x40E00000#32, 0x41000000#32]

/-- The kernel of V-PK-1 loaded. -/
def kernelState : State :=
  { State.reset with pk := ⟨true, false, 8, 0, 0⟩, kram := Mem.writeList [] 0 oneToEight }

/-- The linear kernel of V-DL-1 and its four phases. -/
def linearKernel : List F32 :=
  [0#32, 0x3E800000#32, 0x3F000000#32, 0x3F400000#32, 0x3F800000#32, 0x3F400000#32, 0x3F000000#32, 0x3E800000#32]

def linearPhases : List F32 :=
  [0x3F800000#32, 0#32, 0x3F400000#32, 0x3E800000#32, 0x3F000000#32, 0x3F000000#32, 0x3E800000#32, 0x3F400000#32]

/-- The setup of V-DL-1: the linear kernel split, and the block 10, 20, 30, 40 in an open view. -/
def delayState : State :=
  { State.reset with
    hb := ⟨true, true, 4, 4, 4⟩
    hbuf := Mem.writeList [] 4 [0x41200000#32, 0x41A00000#32, 0x41F00000#32, 0x42200000#32]
    pk := ⟨true, true, 8, 4, 2⟩
    kram := Mem.writeList [] 0 linearKernel
    pram := Mem.writeList [] 0 linearPhases }

/-- The detector of V-CMP-1 with a given envelope. -/
def cmpState (env : F32) : State :=
  { State.reset with cmp := ⟨true, 0x3D2728F0#32, 0x3B086400#32, env⟩ }

/-- A filter instance of V-AAF-2 (48 kHz) with zero state. -/
def enabledFilter : Aaf := ⟨true, some 0x3F446F8C#32, ⟨0, 0⟩, ⟨0, 0⟩⟩

/-- A filter instance of V-AAF-1 (22 kHz). -/
def disabledFilter : Aaf := ⟨true, none, ⟨0, 0⟩, ⟨0, 0⟩⟩

def aafState (f : Aaf) : State := { State.reset with aaf := ⟨f, .atPowerOn, .atPowerOn, .atPowerOn⟩ }

/-- The setup of program P5, Running, at 80 Hz so that `rate` 10.0 gives `incr` 0.125. -/
def chainState : State :=
  { State.reset with
    lfo := ⟨true, 0x40800000#32, 0x3DA3D70A#32, 0x3DF0A578#32, 0, none⟩
    hb := ⟨true, false, 8, 4, 0⟩
    pk := ⟨true, true, 8, 4, 2⟩
    kram := Mem.writeList [] 0 linearKernel
    pram := Mem.writeList [] 0 linearPhases
    cmp := ⟨true, 0x3D2728F0#32, 0x3B086400#32, 0x3F800000#32⟩
    aaf := ⟨enabledFilter, enabledFilter, enabledFilter, .atPowerOn⟩
    fx := ⟨true, true, 0x42A00000#32⟩ }

/-- A parameter tuple at `rate` 10.0, `depth` 100, `mix` 100. -/
def fullTuple : ParamSample := ⟨0x41200000#32, 0x42C80000#32, 0x42C80000#32, 0#32⟩

/-- The input block of program P5. -/
def p5Block : List FxSample :=
  [⟨fullTuple, 0x3F000000#32⟩, ⟨fullTuple, 0xBE800000#32⟩, ⟨fullTuple, 0x3F400000#32⟩, ⟨fullTuple, 0#32⟩]

/-! ## The arithmetic (rule R11) -/

/-- V-FX-2, V-CMP-1, V-AAF-1, V-NL-1: constants and quotients. -/
theorem test_constants :
    F32.div 0x3EB33333#32 0x473B8000#32 = 0x36F4AAF0#32 ∧ F32.div 0x4121999A#32 0x473B8000#32 = 0x395CA34C#32 ∧
    tauRelease = 0x3C23D70A#32 ∧ tauAttack = 0x3A03126E#32 ∧ F32.mul tauAttack 0x473B8000#32 = 0x41BFFFFF#32 ∧
    aafThreshold = 0x46ABE000#32 ∧ nlA = 0x3B800000#32 ∧ nlB = 0x3AE38E39#32 ∧
    F32.add nlA nlB = 0x3BB8E38E#32 ∧ rateMin = 0x3DA3D70A#32 ∧ rateMax = 0x4121999A#32 := by decide +kernel

/-- Rule R175: infinities propagate and raise nothing (V-FLT-4). -/
theorem test_infinities :
    afterwards (exec (.cmpCompress 0x7F800000#32 0x3F800000#32) State.reset) (fun t => (t.resp, t.fault)) =
      some ([0x7F800000#32], false) ∧
    afterwards (exec (.nlShape 0x7F800000#32) State.reset) (fun t => (t.resp, t.fault)) =
      some ([0x7F800000#32], false) := by decide +kernel

/-! ## The LFO -/

/-- V-LFO-1: `point` 200.0, `scale` 4.0, `phase` 0.0, `output` None. -/
theorem test_lfoNew :
    afterwards (exec (.lfoNew 0x42C80000#32 0x43960000#32) State.reset)
      (fun t => (t.lfo.point, t.lfo.scale, t.lfo.phase, t.lfo.output, t.status)) =
      some (0x43480000#32, 0x40800000#32, 0#32, none, 0x100#32) := by decide +kernel

/-- V-LFO-7: `min = max`, a negative `min`, a NaN and +∞ give BAD_CONFIG. -/
theorem test_lfoNew_bad :
    afterwards (exec (.lfoNew 0x40A00000#32 0x40A00000#32) State.reset) State.status = some 0x7#32 ∧
    afterwards (exec (.lfoNew 0xBF800000#32 0x40A00000#32) State.reset) State.status = some 0x7#32 ∧
    afterwards (exec (.lfoNew 0x7FC00000#32 0x40A00000#32) State.reset) State.status = some 0x7#32 ∧
    afterwards (exec (.lfoNew 0x3F800000#32 0x7F800000#32) State.reset) State.status = some 0x7#32 := by
  decide +kernel

/-- V-LFO-1 step 3: the phase 0.75 + 0.25 wraps to 0. -/
theorem test_lfoStep_wraps :
    afterwards (exec (.lfoStep 0x3E800000#32 0x42C80000#32) (lfoState 0x3F400000#32 (some 0xC2C680CC#32)))
      (fun t => (t.resp, t.lfo.phase, t.lfo.output)) =
      some ([0x42C9FE16#32, 0x4395807A#32], 0#32, some 0xC2C601EA#32) := by decide +kernel

/-- V-LFO-2: at `incr` 0.5 the phase does not move. -/
theorem test_lfoStep_frozen :
    afterwards (exec (.lfoStep 0x3F000000#32 0x42C80000#32) (lfoState 0#32 none))
      (fun t => (t.resp, t.lfo.phase, t.lfo.output)) =
      some ([0x42C80000#32, 0x43960000#32], 0#32, some 0xC2C80000#32) := by decide +kernel

/-- V-LFO-3 and P3: the reset clears `LFO_OV`. -/
theorem test_lfoReset :
    afterwards (exec .lfoReset (lfoState 0x3F000000#32 (some 0xC2C78029#32)))
      (fun t => (t.lfo.phase, t.lfo.output, t.lfo.alpha, t.status)) =
      some (0#32, none, 0x3B23A300#32, 0x100#32) := by decide +kernel

/-! ## The history buffer -/

/-- V-HB-1: seven words of +0.0. -/
theorem test_hbNew :
    afterwards (exec (.hbNew 3#32 4#32) (hbState true 3 4 4 oneToEight)) (fun t => (words t.hbuf 8, t.hb, t.status)) =
      some ([0, 0, 0, 0, 0, 0, 0, 0x41000000#32], ⟨true, false, 3, 4, 0⟩, 0x400#32) := by decide +kernel

/-- V-HB-6: a `max_block` of 0, one of 65536, and a size over HBUF. -/
theorem test_hbNew_bad :
    afterwards (exec (.hbNew 3#32 0#32) State.reset) State.status = some 0x7#32 ∧
    afterwards (exec (.hbNew 3#32 65536#32) State.reset) State.status = some 0x7#32 ∧
    afterwards (exec (.hbNew 0xFFFFFFFF#32 1#32) State.reset) State.status = some 0x7#32 := by decide +kernel

/-- P1: the second block leaves the stale words 3, 4 above the view. -/
theorem test_hbProcess :
    afterwards (exec (.hbProcess [0x40A00000#32, 0x40C00000#32])
        (hbState false 3 4 4 [0x40000000#32, 0x40400000#32, 0x40800000#32, 0x3F800000#32, 0x40000000#32,
          0x40400000#32, 0x40800000#32]))
      (fun t => (words t.hbuf 7, t.hb.len, t.status)) =
      some ([0x40000000#32, 0x40400000#32, 0x40800000#32, 0x40A00000#32, 0x40C00000#32, 0x40400000#32,
        0x40800000#32], 2, 0xC00#32) := by decide +kernel

/-- V-HB-6: with a view open and a block too long, BAD_LENGTH is reported. -/
theorem test_hbProcess_order :
    afterwards (exec (.hbProcess [0, 0, 0, 0, 0]) (hbState true 3 4 1 [])) State.cause = some 4#4 ∧
    afterwards (exec (.hbProcess [0]) (hbState true 3 4 1 [])) State.status = some 0xC0B#32 := by decide +kernel

/-- P1: the view is `[2,3,4,5,6]`, without the stale words. -/
theorem test_hbView :
    afterwards (exec .hbView
        (hbState true 3 4 2 [0x40000000#32, 0x40400000#32, 0x40800000#32, 0x40A00000#32, 0x40C00000#32,
          0x40400000#32, 0x40800000#32])) State.resp =
      some [0x40000000#32, 0x40400000#32, 0x40800000#32, 0x40A00000#32, 0x40C00000#32] := by decide +kernel

/-- V-HB-6: no view open. -/
theorem test_hbView_closed :
    afterwards (exec .hbView (hbState false 3 4 0 [])) State.status = some 0x40B#32 := by decide +kernel

/-- V-HB-1: `HB.READ 2, 3 -> 0, 1, 2`; `HB.READ 7, 0` is legal. -/
theorem test_hbRead :
    afterwards (exec (.hbRead 2#32 3#32) (hbState true 3 4 4 ([0, 0, 0] ++ oneToEight.take 4))) State.resp =
      some [0#32, 0x3F800000#32, 0x40000000#32] ∧
    afterwards (exec (.hbRead 7#32 0#32) (hbState true 3 4 4 ([0, 0, 0] ++ oneToEight.take 4)))
      (fun t => (t.resp, t.fault)) = some ([], false) := by decide +kernel

/-- V-HB-1: `HB.READ 5, 3` gives RANGE, and a sum above 2^32 does not wrap (rule R57). -/
theorem test_hbRead_range :
    afterwards (exec (.hbRead 5#32 3#32) (hbState true 3 4 4 oneToEight)) State.cause = some 6#4 ∧
    afterwards (exec (.hbRead 0xFFFFFFFF#32 2#32) (hbState true 3 4 4 oneToEight)) State.cause = some 6#4 := by
  decide +kernel

/-- V-HB-2: the overlapping copy-back is ascending. -/
theorem test_hbRelease_overlap :
    afterwards (exec .hbRelease (hbState true 3 4 1 [0, 0, 0, 0x3F800000#32, 0, 0, 0]))
      (fun t => (words t.hbuf 7, t.hb)) =
      some ([0, 0, 0x3F800000#32, 0x3F800000#32, 0, 0, 0], ⟨true, false, 3, 4, 1⟩) := by decide +kernel

/-- V-HB-3: an empty block leaves the buffer as it was. -/
theorem test_hbRelease_empty :
    afterwards (exec .hbRelease (hbState true 3 4 0 oneToEight)) (fun t => words t.hbuf 8) = some oneToEight := by
  decide +kernel

/-- V-HB-4: the reset zeroes all seven words; with a view open it faults. -/
theorem test_hbReset :
    afterwards (exec .hbReset (hbState false 3 4 2 oneToEight)) (fun t => words t.hbuf 8) =
      some [0, 0, 0, 0, 0, 0, 0, 0x41000000#32] ∧
    afterwards (exec .hbReset (hbState true 3 4 2 oneToEight)) State.cause = some 5#4 := by decide +kernel

/-! ## The kernel and the delay line -/

/-- V-PK-2, rules R110 and R112: `PK.LPF` clears `PK_SV`; a cutoff of 0 or below and a length of 0 fault. -/
theorem test_pkLpf :
    afterwards (exec (.pkLpf 8#32 0x3E800000#32) delayState) (fun t => (t.pk.kLen, t.pk.kv, t.pk.sv)) =
      some (8, true, false) := by decide +kernel

theorem test_pkLpf_bad :
    afterwards (exec (.pkLpf 0#32 0x3E800000#32) State.reset) State.status = some 0x7#32 ∧
    afterwards (exec (.pkLpf 8#32 0#32) State.reset) State.status = some 0x7#32 ∧
    afterwards (exec (.pkLpf 8#32 0xBE800000#32) State.reset) State.status = some 0x7#32 ∧
    afterwards (exec (.pkLpf 8#32 0x7FC00000#32) State.reset) State.status = some 0x7#32 := by decide +kernel

/-- Rule R111's example, and V-PK-2: loading clears `PK_SV`. -/
theorem test_pkLoadk :
    afterwards (exec (.pkLoadk oneToEight) delayState) (fun t => (words t.kram 8, t.pk.kLen, t.pk.kv, t.pk.sv)) =
      some (oneToEight, 8, true, false) ∧
    afterwards (exec (.pkLoadk []) State.reset) State.status = some 0x7#32 := by decide +kernel

/-- V-PK-1: `5,1, 6,2, 7,3, 8,4`. -/
theorem test_pkSplit_4 :
    afterwards (exec (.pkSplit 4#32) kernelState) (fun t => (words t.pram 8, t.pk)) =
      some ([0x40A00000#32, 0x3F800000#32, 0x40C00000#32, 0x40000000#32,
        0x40E00000#32, 0x40400000#32, 0x41000000#32, 0x40800000#32], ⟨true, true, 8, 4, 2⟩) := by decide +kernel

/-- V-PK-2: 3, 0 and 16 phases of eight taps. -/
theorem test_pkSplit_bad :
    afterwards (exec (.pkSplit 3#32) kernelState) State.cause = some 3#4 ∧
    afterwards (exec (.pkSplit 0#32) kernelState) State.cause = some 3#4 ∧
    afterwards (exec (.pkSplit 16#32) kernelState) State.cause = some 3#4 := by decide +kernel

/-- V-DL-1: 0.25 back is 37.5, 7.0 back is silence, and `DL.READ 2, 0.0` reaches sample 3. -/
theorem test_dlRead :
    afterwards (exec (.dlRead 3#32 0x3E800000#32) delayState) State.resp = some [0x42160000#32] ∧
    afterwards (exec (.dlRead 3#32 0x40E00000#32) delayState) State.resp = some [0#32] ∧
    afterwards (exec (.dlRead 2#32 0#32) delayState) State.resp = some [0x41F00000#32] := by decide +kernel

/-- V-DL-2: both ends of the window, and the order of the checks. -/
theorem test_dlRead_faults :
    afterwards (exec (.dlRead 3#32 0#32) delayState) State.cause = some 6#4 ∧
    afterwards (exec (.dlRead 3#32 0x40E80000#32) delayState) State.cause = some 6#4 ∧
    afterwards (exec (.dlRead 3#32 0xBF800000#32) delayState) State.cause = some 7#4 ∧
    afterwards (exec (.dlRead 4#32 0xBF800000#32) delayState) State.cause = some 6#4 := by decide +kernel

/-! ## The compander and the waveshaper -/

/-- Rule R130: `env` 1.0; V-CMP-4: `fs` 0.0, negative and +∞ fault. -/
theorem test_cmpNew :
    afterwards (exec (.cmpNew 0x473B8000#32) State.reset) (fun t => (t.cmp.env, t.status)) =
      some (0x3F800000#32, 0x4000#32) ∧
    afterwards (exec (.cmpNew 0#32) State.reset) State.status = some 0x7#32 ∧
    afterwards (exec (.cmpNew 0xC73B8000#32) State.reset) State.status = some 0x7#32 ∧
    afterwards (exec (.cmpNew 0x7F800000#32) State.reset) State.status = some 0x7#32 := by decide +kernel

/-- V-CMP-1: the rectified 3.0 takes the attack arm, 0.5 the release arm. -/
theorem test_cmpDetect :
    afterwards (exec (.cmpDetect 0xC0400000#32) (cmpState 0x3F84F24E#32)) (fun t => (t.resp, t.cmp.env)) =
      some ([0x3F8F312F#32], 0x3F8F312F#32) ∧
    afterwards (exec (.cmpDetect 0x3F000000#32) (cmpState 0x3F8F2917#32)) State.resp = some [0x3F8EFEEA#32] := by
  decide +kernel

theorem test_cmpReset :
    afterwards (exec .cmpReset (cmpState 0x3F8EFEEA#32)) (fun t => t.cmp) =
      some ⟨true, 0x3D2728F0#32, 0x3B086400#32, 0x3F800000#32⟩ := by decide +kernel

/-- V-CMP-2, with `EPS` 2^-10. -/
theorem test_cmpCompress :
    afterwards (exec (.cmpCompress 0xBE800000#32 0x3F000000#32) State.reset) State.resp = some [0xBEFE80C0#32] ∧
    afterwards (exec (.cmpCompress 0#32 0#32) State.reset) State.resp = some [0x3F800000#32] := by decide +kernel

/-- V-CMP-3. -/
theorem test_cmpExpand :
    afterwards (exec (.cmpExpand 0x3FF5DA00#32 0x3F853948#32) State.reset) State.resp = some [0x3FFFE289#32] := by
  decide +kernel

/-- V-NL-1: both sides of the boundary at -1, and the polynomial's signs. -/
theorem test_nlShape :
    afterwards (exec (.nlShape 0xBF800000#32) State.reset) State.resp = some [0xBF80471C#32] ∧
    afterwards (exec (.nlShape 0xBF800001#32) State.reset) State.resp = some [0xBF7E8E3B#32] ∧
    afterwards (exec (.nlShape 0xBF000000#32) State.reset) State.resp = some [0xBF0031C7#32] ∧
    afterwards (exec (.nlShape 0x80000000#32) State.reset) State.resp = some [0#32] := by decide +kernel

/-! ## The filters -/

/-- V-AAF-1: 22000 Hz is disabled, the next float above it is enabled. -/
theorem test_aafNew :
    afterwards (exec (.aafNew 0#8 0x46ABE000#32) State.reset) State.status = some 0x00020000#32 ∧
    afterwards (exec (.aafNew 0#8 0x46ABE001#32) State.reset) State.status = some 0x00220000#32 := by decide +kernel

/-- V-AAF-5: BAD_INSTANCE comes before BAD_CONFIG. -/
theorem test_aafNew_bad :
    afterwards (exec (.aafNew 3#8 0#32) State.reset) State.status = some 0x13#32 ∧
    afterwards (exec (.aafNew 0#8 0#32) State.reset) State.status = some 0x7#32 := by decide +kernel

/-- V-AAF-2: the first sample of the impulse response, and the state it leaves. -/
theorem test_aafStep :
    afterwards (exec (.aafStep 0#8 0x3F800000#32) (aafState enabledFilter)) (fun t => (t.resp, t.aaf.f0)) =
      some ([0x3D5908C2#32], ⟨true, some 0x3F446F8C#32, ⟨0x3F348A87#32, 0x3F0A88BA#32⟩,
        ⟨0x3E0D6C17#32, 0x3DD908C2#32⟩⟩) := by decide +kernel

/-- V-AAF-1: the disabled filter answers 0.0 to -5.0 and to a NaN. -/
theorem test_aafStep_disabled :
    afterwards (exec (.aafStep 0#8 0xC0A00000#32) (aafState disabledFilter)) (fun t => (t.resp, t.aaf.f0)) =
      some ([0#32], disabledFilter) ∧
    afterwards (exec (.aafStep 0#8 0x7FC00000#32) (aafState disabledFilter)) State.resp = some [0#32] := by
  decide +kernel

/-- V-AAF-3: `g` stays, the state variables are +0.0. -/
theorem test_aafReset :
    afterwards (exec (.aafReset 0#8) (aafState ⟨true, some 0x3F446F8C#32, ⟨0x3F348A87#32, 0x3F0A88BA#32⟩,
        ⟨0x3E0D6C17#32, 0x3DD908C2#32⟩⟩)) (fun t => t.aaf.f0) = some enabledFilter ∧
    afterwards (exec (.aafReset 1#8) (aafState enabledFilter)) State.cause = some 2#4 := by decide +kernel

/-! ## The chain controller -/

/-- V-FX-3: after FX.NEW every constructed flag is set and the mode is Idle. -/
theorem test_fxNew :
    afterwards (exec (.fxNew 0x473B8000#32 64#32) State.reset) (fun t => (t.status, t.hb, t.fx)) =
      some (0x00EEF500#32, ⟨true, false, 7, 64, 0⟩, ⟨true, false, 0x473B8000#32⟩) := by decide +kernel

/-- V-FX-3: a `max_block` of 0. -/
theorem test_fxNew_bad :
    afterwards (exec (.fxNew 0x473B8000#32 0#32) State.reset) State.status = some 0x7#32 := by decide +kernel

/-- Rule R11's `floor`, by hand: 2.75, -0.5, -1.0 and 0.0. -/
theorem test_floor :
    F32.floor 0x40300000#32 = 2 ∧ F32.floor 0xBF000000#32 = -1 ∧ F32.floor 0xBF800000#32 = -1 ∧
    F32.floor 0x00000000#32 = 0 := by decide +kernel

/-- `LFO_MAX` -4.0: with M = 2 the look-behind is -4 + 1, no u32, so HB.NEW is not constructed (rules R11, R57, R155). -/
theorem test_fxNew_negativeBound :
    afterwards (exec (.fxNew 0x473B8000#32 64#32)
        { State.reset with cfg := { State.reset.cfg with lfoBounds := .constant 0#32 0xC0800000#32 } })
      (fun t => (t.fault, t.cause, t.hb.c)) = some (true, 3#4, false) := by decide +kernel

/-- `K_LEN` 2^32 with a KRAM that holds it: no u32, so PK.LPF loads nothing (rules R24, R57). -/
theorem test_fxNew_longKernel :
    afterwards (exec (.fxNew 0x473B8000#32 64#32)
        { State.reset with cfg := { State.reset.cfg with kLen := 2 ^ 32, kramWords := 2 ^ 33 } })
      (fun t => (t.fault, t.cause, t.pk.kv, t.pk.kLen)) = some (true, 3#4, false, 0) := by decide +kernel

/-- `LFO_MAX` 2^32 with an HBUF that holds the history: no u32, so HB.NEW is not constructed (rules R24, R57). -/
theorem test_fxNew_longHistory :
    afterwards (exec (.fxNew 0x473B8000#32 64#32)
        { State.reset with
          cfg := { State.reset.cfg with hbufWords := 2 ^ 33, lfoBounds := .constant 0#32 0x4F800000#32 } })
      (fun t => (t.fault, t.cause, t.hb.c, t.hb.lookBehind)) = some (true, 3#4, false, 0) := by decide +kernel

/-- V-FX-3: an operand that is no bool comes before VIEW_STATE; without construction it is not looked at. -/
theorem test_fxSetproc_order :
    afterwards (exec (.fxSetproc 2#32) { chainState with hb := ⟨true, true, 8, 4, 0⟩ }) State.cause = some 7#4 ∧
    afterwards (exec (.fxSetproc 1#32) { chainState with hb := ⟨true, true, 8, 4, 0⟩ }) State.cause = some 5#4 ∧
    afterwards (exec (.fxSetproc 2#32) State.reset) State.cause = some 2#4 := by decide +kernel

/-- Rule R156: the mode and the resets. -/
theorem test_fxSetproc :
    afterwards (exec (.fxSetproc 1#32) { chainState with
        lfo := ⟨true, 0x40800000#32, 0x3DA3D70A#32, 0x3DF0A578#32, 0x3F000000#32, some 0xBFAC9E7E#32⟩
        fx := ⟨true, false, 0x42A00000#32⟩ }) (fun t => t == chainState) = some true ∧
    afterwards (exec (.fxSetproc 0#32) chainState) (fun t => t.fx.run) = some false := by decide +kernel

/-- V-FX-3: a `rate` below 0.08 and a `bypass` of 2. -/
theorem test_fxParams :
    afterwards (exec (.fxParams [fullTuple]) chainState) (fun t => t == chainState) = some true ∧
    afterwards (exec (.fxParams [fullTuple, ⟨0x3D4CCCCD#32, 0#32, 0#32, 0#32⟩]) chainState) State.cause = some 7#4 ∧
    afterwards (exec (.fxParams [⟨0x41200000#32, 0#32, 0#32, 2#32⟩]) chainState) State.cause = some 7#4 := by
  decide +kernel

/-- V-FX-1. -/
theorem test_mix :
    mixSample 0x3F000000#32 0x3E800000#32 0x42480000#32 0#32 = 0x3EC00000#32 ∧
    mixSample 0x3F800000#32 0xBF800000#32 0x41F00000#32 0#32 = 0x3ECCCCCC#32 ∧
    mixSample 0x3F000000#32 0x3E800000#32 0x42480000#32 1#32 = 0x3F000000#32 := by decide +kernel

/-- Program P5: the whole chain on four samples, and the state it leaves. -/
theorem test_fxProcess_P5 :
    afterwards (exec (.fxProcess p5Block) chainState) (fun t => (t.resp, words t.hbuf 12, t.lfo.phase)) =
      some ([0#32, 0#32, 0x3A8E6EDF#32, 0x3C0E9D55#32, 0#32, 0#32, 0#32, 0#32],
        [0, 0, 0, 0, 0x3CE14548#32, 0x3DE3E9C9#32, 0x3E4FB24E#32, 0x3E825373#32,
          0x3CE14548#32, 0x3DE3E9C9#32, 0x3E4FB24E#32, 0x3E825373#32], 0x3F000000#32) ∧
    afterwards (exec (.fxProcess p5Block) chainState) (fun t => (t.lfo.output, t.cmp.env, t.aaf.f0, t.status)) =
      some (some 0xBFAC9E7E#32, 0x3F7E3063#32,
        ⟨true, some 0x3F446F8C#32, ⟨0xBE4AE6CA#32, 0x3EC5755D#32⟩, ⟨0x3D125860#32, 0x3E89CF0B#32⟩⟩,
        0x00EFF700#32) := by decide +kernel

/-- V-FX-3: BAD_MODE while Idle, before BAD_LENGTH. -/
theorem test_fxProcess_order :
    afterwards (exec (.fxProcess (p5Block ++ p5Block)) { chainState with fx := ⟨true, false, 0x42A00000#32⟩ })
      State.cause = some 8#4 ∧
    afterwards (exec (.fxProcess (p5Block ++ p5Block)) chainState) State.cause = some 4#4 := by decide +kernel

/-- Rule R159: the mode is kept. -/
theorem test_fxReset :
    afterwards (exec .fxReset { chainState with
        cmp := ⟨true, 0x3D2728F0#32, 0x3B086400#32, 0x3F7E3063#32⟩ }) (fun t => t == chainState) = some true := by
  decide +kernel

/-! ## Faults and the step -/

/-- V-FLT-1. -/
theorem test_status_after_a_fault :
    afterwards (step { State.reset with port := [0#32] }) (fun t => (t.status, t.port)) = some (0x3#32, []) ∧
    afterwards (exec (.lfoStep 0#32 0#32) State.reset) State.status = some 0x5#32 := by decide +kernel

/-- V-FLT-2: sticky, first cause wins. -/
theorem test_sticky :
    afterwards (step { State.reset with fault := true, cause := 2#4, port := [0x20000000#32, 3#32, 4#32] })
      (fun t => (t.status, t.resp)) = some (0x5#32, []) ∧
    afterwards (step { State.reset with fault := true, cause := 2#4, port := [0#32] }) State.status = some 0x5#32 := by
  decide +kernel

/-- V-FLT-3: a faulting operation leaves `phase` and `output` alone. -/
theorem test_fault_writes_nothing :
    afterwards (exec (.lfoStep 0x3DCCCCCD#32 0x43480000#32) (lfoState 0#32 none)) (fun t => (t.lfo, t.status)) =
      some ((lfoState 0#32 none).lfo, 0x10F#32) := by decide +kernel

/-- The host's word for `HB.NEW`, with operand words of zeros, is the first instruction a step runs. -/
theorem test_withFetchWord :
    step (State.reset.withFetchWord 32 0x20000000) = exec (.hbNew 0 0) State.reset := rfl

/-! ## Witnesses: states and operands that meet the obligations' hypotheses

Each theorem is named for its obligation. A hypothesis that only names a value (`c = if ...`, `m = ...`) is met by that
value, and is left out. -/

/-- A step that goes on and shows a value gives a next state that shows it. -/
theorem exists_next {α : Type} (o : Host.Outcome State Fault Refusal) (look : State → α) (v : α)
    (h : afterwards o look = some v) : ∃ t, o = .next t ∧ look t = v := by
  cases o with
  | next t => exact ⟨t, rfl, by simpa [afterwards] using h⟩
  | fault f => simp [afterwards] at h
  | refused r => simp [afterwards] at h

/-- A history buffer of look-behind 3 and blocks of up to 4, its view open on a block of 4, or closed after it. -/
def openState : State := hbState true 3 4 4 ([0, 0, 0] ++ oneToEight.take 4)

def closedState : State := hbState false 3 4 4 [0x40000000#32, 0x40400000#32, 0x40800000#32]

/-- `chainState` with a packet presented. -/
def fedChain : State := { chainState with port := [0x22000000#32] }

/-- `chainState` while Idle. -/
def idleChain : State := { chainState with fx := ⟨true, false, 0x42A00000#32⟩ }

/-- `chainState` while a view is open. -/
def viewedChain : State := { chainState with hb := ⟨true, true, 8, 4, 4⟩ }

/-- A faulted block. -/
def faultedState : State := { chainState with fault := true, cause := 6#4, port := [0x22000000#32], resp := [1#32] }

theorem test_inv_chain : chainState.Inv := by constructor <;> first | decide +kernel | (constructor <;> decide +kernel)
theorem test_inv_fedChain : fedChain.Inv := by constructor <;> first | decide +kernel | (constructor <;> decide +kernel)
theorem test_inv_viewedChain : viewedChain.Inv := by constructor <;> first | decide +kernel | (constructor <;> decide +kernel)
theorem test_inv_delay : delayState.Inv := by constructor <;> first | decide +kernel | (constructor <;> decide +kernel)
theorem test_inv_kernel : kernelState.Inv := by constructor <;> first | decide +kernel | (constructor <;> decide +kernel)
theorem test_inv_open : openState.Inv := by constructor <;> first | decide +kernel | (constructor <;> decide +kernel)
theorem test_inv_closed : closedState.Inv := by constructor <;> first | decide +kernel | (constructor <;> decide +kernel)
theorem test_inv_reset : State.reset.Inv := by constructor <;> first | decide +kernel | (constructor <;> decide +kernel)
theorem test_inv_faulted : faultedState.Inv := by constructor <;> first | decide +kernel | (constructor <;> decide +kernel)

/-- The hypothesis of `RefusedWhenFaulted`, in every statement that has it. -/
theorem test_hyp_RefusedWhenFaulted : faultedState.fault = true := rfl

theorem test_hyp_DecodeOfEncodeIsIdentity :
    (Instr.fxProcess p5Block).WellFormed = true ∧ (Instr.pkLoadk []).WellFormed = true := by decide +kernel

theorem test_hyp_EncodeOfDecodeIsIdentity :
    decode [0x81000000#32, 1#32, 7#32] = .ok (.fxSetproc 1#32, [7#32]) := rfl

theorem test_hyp_OpcodeRowsAreDisjoint :
    ∃ r ∈ opcodeMap, ∃ q ∈ opcodeMap, 0x7102000A#32 &&& r.mask ≠ r.pattern ∧ 0x71020000#32 &&& q.mask = q.pattern := by
  decide +kernel

theorem test_hyp_IllegalHeadersRaiseIllegalCmd :
    (∀ r ∈ opcodeMap, 0x26000000#32 &&& r.mask ≠ r.pattern) ∧
    ({ State.reset with port := [0x26000000#32, 7#32] } : State).port = 0x26000000#32 :: [7#32] ∧
    State.reset.fault = false ∧ State.reset.cfg.nAaf.val ≤ (3#8).toNat ∧ State.reset.cfg.nAaf.val ≤ (255#8).toNat := by
  decide +kernel

theorem test_hyp_StepRunsTheDecodedInstruction : decode fedChain.port = .ok (.hbView, []) := rfl

theorem test_hyp_StepWaitsForAWholePacket :
    decode State.reset.port = .error .incomplete ∧
    decode ({ State.reset with port := [0x11000000#32, 0#32] } : State).port = .error .incomplete := ⟨rfl, rfl⟩

theorem test_hyp_PowerOnClearsEveryFlag :
    faultedState.fault = true ∧ ∃ t, step faultedState = .next t ∧ t.resp = [] :=
  ⟨rfl, exists_next _ State.resp _ (by decide +kernel)⟩

/-- A power-on with other values than `State.reset`'s in the guarded registers and words. -/
def otherPowerOn : State :=
  { State.reset with
    lfo := ⟨false, 1, 2, 3, 4, none⟩
    hb := ⟨false, false, 3, 4, 7⟩
    hbuf := [(0, 5)]
    pk := ⟨false, false, 8, 4, 2⟩
    kram := [(1, 6)]
    pram := [(2, 7)]
    cmp := ⟨false, 8, 9, 10⟩
    fx := ⟨false, false, 11⟩ }

theorem test_hyp_PowerOnValuesAreNeverObserved_power_on : otherPowerOn.NothingConstructed := by
  refine ⟨rfl, rfl, rfl, rfl, rfl, rfl, rfl, rfl, rfl, rfl, rfl, rfl, rfl, rfl, ?_⟩
  decide +kernel

/-- Its `HB.len` is above its `HB.max_block`, as the spec allows before construction. -/
theorem test_hyp_InvariantHoldsAtPowerOn :
    otherPowerOn.NothingConstructed ∧ otherPowerOn.Representable ∧ otherPowerOn.hb.maxBlock < otherPowerOn.hb.len :=
  ⟨test_hyp_PowerOnValuesAreNeverObserved_power_on, by constructor <;> decide +kernel, by decide +kernel⟩

theorem test_hyp_PowerOnValuesAreNeverObserved_other_inv : otherPowerOn.Inv := by constructor <;> first | decide +kernel | (constructor <;> decide +kernel)

theorem test_hyp_PowerOnValuesAreNeverObserved_agree : SameObservable State.reset otherPowerOn := by
  constructor <;> first | rfl | decide +kernel

theorem test_hyp_EveryStepKeepsTheInvariant : fedChain.Inv ∧ ∃ t, step fedChain = .next t ∧ t.cause = 5#4 :=
  ⟨test_inv_fedChain, exists_next _ State.cause _ (by decide +kernel)⟩

theorem test_hyp_EveryStepCompletes : viewedChain.Inv := test_inv_viewedChain

theorem test_hyp_NoStepChangesTheParameters : ∃ t, step fedChain = .next t ∧ t.port = [] :=
  exists_next _ State.port _ (by decide +kernel)

theorem test_hyp_FaultedBlockRefusesEveryCommand : ∃ t, step faultedState = .next t ∧ t.port = [] :=
  exists_next _ State.port _ (by decide +kernel)

theorem test_hyp_FaultingOperationWritesNothingElse :
    openState.Inv ∧ openState.fault = false ∧ ∃ t, exec (.hbRead 5#32 3#32) openState = .next t ∧ t.fault = true :=
  ⟨test_inv_open, rfl, exists_next _ State.fault _ (by decide +kernel)⟩

/-- The first clause with FX.PROCESS's own fault, the second with an operation that completes. -/
theorem test_hyp_FaultingOperationAnswersNothing :
    (∃ t, exec (.fxProcess p5Block) idleChain = .next t ∧ t.fault = true) ∧
    ∃ t, exec .hbView openState = .next t ∧ t.fault = false :=
  ⟨exists_next _ State.fault _ (by decide +kernel), exists_next _ State.fault _ (by decide +kernel)⟩

theorem test_hyp_UnconstructedUnitsFault :
    State.reset.fault = false ∧ State.reset.lfo.c = false ∧ State.reset.hb.c = false ∧ State.reset.pk.kv = false ∧
    (kernelState.hb.c = false ∧ openState.hb.c = true ∧ openState.pk.sv = false) ∧ State.reset.cmp.c = false ∧
    ((2#8).toNat < State.reset.cfg.nAaf.val ∧ (State.reset.aaf.get 2).c = false) ∧ State.reset.fx.c = false := by
  decide +kernel

theorem test_hyp_UnconstructedUnitsFault_constructor :
    Instr.aafNew 3#8 0#32 ∈ [Instr.lfoNew 0 0, .hbNew 0 0, .pkLpf 0 0, .pkLoadk [], .cmpNew 0, .aafNew 3#8 0#32,
      .fxNew 0 0, .cmpCompress 0 0, .cmpExpand 0 0, .nlShape 0] ∧
    ∃ t, exec (.aafNew 3#8 0#32) State.reset = .next t ∧ t.fault = true :=
  ⟨by decide +kernel, exists_next _ State.fault _ (by decide +kernel)⟩

theorem test_hyp_ConstructedFlagsAreNeverCleared :
    (chainState.lfo.c = true ∧ chainState.hb.c = true ∧ chainState.pk.kv = true ∧ chainState.cmp.c = true ∧
      chainState.fx.c = true ∧ (chainState.aaf.get 2).c = true) ∧
    ∃ t, step fedChain = .next t ∧ t.port = [] :=
  ⟨by decide +kernel, exists_next _ State.port _ (by decide +kernel)⟩

theorem test_hyp_ConfigurationIsWrittenOnlyByConstructors :
    (∃ t, exec (.hbNew 1#32 2#32) State.reset = .next t ∧
      decide ((t.hb.lookBehind, t.hb.maxBlock) ≠ (State.reset.hb.lookBehind, State.reset.hb.maxBlock)) = true) ∧
    (∃ t, exec (.pkLoadk oneToEight) State.reset = .next t ∧ decide (t.pk.kLen ≠ State.reset.pk.kLen) = true) ∧
    (∃ t, exec (.pkSplit 8#32) kernelState = .next t ∧
      decide ((t.pk.nPhases, t.pk.m) ≠ (kernelState.pk.nPhases, kernelState.pk.m)) = true) ∧
    (∃ t, exec (.lfoNew 0#32 0x3F800000#32) State.reset = .next t ∧
      decide (t.lfo.point ≠ State.reset.lfo.point) = true) ∧
    (∃ t, exec (.aafNew 0#8 0x46ABE000#32) (aafState enabledFilter) = .next t ∧
      decide ((t.aaf.get 0).g ≠ ((aafState enabledFilter).aaf.get 0).g) = true) ∧
    (∃ t, exec (.fxNew 0x473B8000#32 64#32) State.reset = .next t ∧ decide (t.fx.fs ≠ State.reset.fx.fs) = true) :=
  ⟨exists_next _ _ _ (by decide +kernel), exists_next _ _ _ (by decide +kernel), exists_next _ _ _ (by decide +kernel),
    exists_next _ _ _ (by decide +kernel), exists_next _ _ _ (by decide +kernel), exists_next _ _ _ (by decide +kernel)⟩

/-- A detector whose attack coefficient is not the one `CMP.NEW` computes, whatever `EXP` is. -/
theorem test_hyp_ConfigurationIsWrittenOnlyByConstructors_cmp :
    ∃ t, exec (.cmpNew 0x473B8000#32)
        { State.reset with cmp := ⟨false, ~~~(onePole tauAttack 0x473B8000#32), 0, 0⟩ } = .next t ∧
      t.cmp.attack ≠ ~~~(onePole tauAttack 0x473B8000#32) := by
  refine ⟨_, rfl, ?_⟩
  show onePole tauAttack 0x473B8000#32 ≠ ~~~(onePole tauAttack 0x473B8000#32)
  generalize onePole tauAttack 0x473B8000#32 = w
  intro h
  have := congrArg (fun x : BitVec 32 => x.getLsbD 0) h
  simp at this

theorem test_hyp_RunningChangesOnlyByNamedOperations :
    (idleChain.fx.run = false ∧ ∃ t, exec (.fxSetproc 1#32) idleChain = .next t ∧ t.fx.run = true) ∧
    (chainState.fx.run = true ∧ ∃ t, exec (.fxNew 0x473B8000#32 64#32) chainState = .next t ∧ t.fx.run = false) :=
  ⟨⟨rfl, exists_next _ (fun t => t.fx.run) _ (by decide +kernel)⟩,
    ⟨rfl, exists_next _ (fun t => t.fx.run) _ (by decide +kernel)⟩⟩

theorem test_hyp_PhasesAlwaysMatchTheKernel :
    delayState.Inv ∧ delayState.pk.sv = true ∧ delayState.splitMatches ∧
    ∃ t, step { delayState with port := [0x32000000#32, 2#32] } = .next t ∧ t.pk.sv = true := by
  refine ⟨test_inv_delay, rfl, fun _ => ⟨rfl, fun k p hk hp => ?_⟩, exists_next _ (fun t => t.pk.sv) _ (by decide +kernel)⟩
  have hk : k < 2 := hk
  have hp : p < 4 := hp
  interval_cases k <;> interval_cases p <;> decide +kernel

/-- With a view open and closed. -/
theorem test_hyp_HistoryHoldsTheLastSamples :
    openState.HistoryIs (oneToEight.take 4) ∧ closedState.HistoryIs (oneToEight.take 4) ∧
    (∃ t, exec .hbRelease openState = .next t ∧ t.fault = false) ∧
    chainState.HistoryIs [] ∧ ∃ t, exec (.fxProcess p5Block) chainState = .next t ∧ t.fault = false := by
  refine ⟨fun _ => ⟨fun h => absurd h (by decide +kernel), fun _ => by decide +kernel⟩,
    fun _ => ⟨fun _ => by decide +kernel, fun h => absurd h (by decide +kernel)⟩,
    exists_next _ State.fault _ (by decide +kernel),
    fun _ => ⟨fun _ => by decide +kernel, fun h => absurd h (by decide +kernel)⟩,
    exists_next _ State.fault _ (by decide +kernel)⟩

/-- P5: the samples FX.PROCESS gives the history are the table's `c_0` to `c_3`. -/
theorem test_feeds_fxProcess :
    (hostFront p5Block chainState).map (fun r => r.1.map FrontSample.compressed) =
      .ok [0x3CE14548#32, 0x3DE3E9C9#32, 0x3E4FB24E#32, 0x3E825373#32] := by decide +kernel

/-- At both ends of the range: 0.0, and the greatest float below 1.0. -/
theorem test_hyp_PhaseStaysInUnitInterval :
    (lfoState 0#32 none).phaseInRange ∧ (lfoState 0x3F7FFFFF#32 none).phaseInRange ∧
    ∃ t, step { lfoState 0x3F7FFFFF#32 none with port := [0x11000000#32, 0x3E800000#32, 0#32] } = .next t ∧
      t.fault = false :=
  ⟨⟨by decide +kernel, by decide +kernel⟩, ⟨by decide +kernel, by decide +kernel⟩,
    exists_next _ State.fault _ (by decide +kernel)⟩

/-- LFO.NEW from a phase of 2.0 that no constructor has written. -/
theorem test_hyp_PhaseStaysInUnitInterval_unwritten :
    let s := { State.reset with
      lfo := ⟨false, 0#32, 0#32, 0#32, 0x40000000#32, none⟩, port := [0x10000000#32, 0x3F800000#32, 0x40000000#32] }
    (s.lfo.c = true → s.phaseInRange) ∧ ∃ t, step s = .next t ∧ t.lfo.c = true :=
  ⟨fun h => absurd h (by decide +kernel), exists_next _ (fun t => t.lfo.c) _ (by decide +kernel)⟩

theorem test_hyp_OperationsChangeOnlyTheirUnit :
    (∃ t, exec (.lfoStep 0#32 0#32) chainState = .next t ∧ t.fault = false) ∧
    (∃ t, exec .hbRelease viewedChain = .next t ∧ t.fault = false) ∧
    (∃ t, exec (.aafStep 2#8 0#32) chainState = .next t ∧ t.fault = false) ∧
    (∃ t, exec (.fxProcess p5Block) chainState = .next t ∧ t.fault = chainState.fault) ∧
    (∃ t, exec (.fxProcess p5Block) faultedState = .next t ∧ t.fault = faultedState.fault) ∧
    (∃ t, exec (.fxNew 0x473B8000#32 64#32) { State.reset with cfg := { State.reset.cfg with nAaf := 2 } } = .next t ∧
      decide (t.fault ≠ State.reset.fault) = true) ∧
    ∃ t, exec (.fxProcess p5Block) { chainState with hb := ⟨true, false, 5, 4, 0⟩ } = .next t ∧
      decide (t.fault ≠ chainState.fault) = true :=
  ⟨exists_next _ State.fault _ (by decide +kernel), exists_next _ State.fault _ (by decide +kernel),
    exists_next _ State.fault _ (by decide +kernel), exists_next _ State.fault _ (by decide +kernel),
    exists_next _ State.fault _ (by decide +kernel),
    exists_next _ (fun t => decide (t.fault ≠ State.reset.fault)) _ (by decide +kernel),
    exists_next _ (fun t => decide (t.fault ≠ chainState.fault)) _ (by decide +kernel)⟩

/-- The LFO's clause: `alpha` is whatever `LFO.NEW` made it. -/
theorem test_hyp_ResetRestoresWhatNewProduced_lfo :
    ∃ t, exec (.lfoNew 0#32 0x3F800000#32) State.reset = .next t ∧ t.fault = false ∧
      ∃ u : State, u.fault = false ∧
        (u.lfo.c, u.lfo.point, u.lfo.scale, u.lfo.alpha) = (true, t.lfo.point, t.lfo.scale, t.lfo.alpha) := by
  obtain ⟨t, ht, hf⟩ :=
    exists_next (exec (.lfoNew 0#32 0x3F800000#32) State.reset) (fun t => (t.fault, t.lfo.c)) (false, true)
      (by decide +kernel)
  rw [Prod.mk.injEq] at hf
  exact ⟨t, ht, hf.1, t, hf.1, by rw [hf.2]⟩

theorem test_hyp_ResetRestoresWhatNewProduced_hb :
    ∃ t, exec (.hbNew 3#32 4#32) State.reset = .next t ∧
      (t.fault, closedState.hb.c, closedState.hb.view, closedState.hb.lookBehind, closedState.hb.maxBlock) =
        (false, true, false, t.hb.lookBehind, t.hb.maxBlock) := by
  obtain ⟨t, ht, hf⟩ :=
    exists_next (exec (.hbNew 3#32 4#32) State.reset) (fun t => (t.fault, t.hb.lookBehind, t.hb.maxBlock)) (false, 3, 4)
      (by decide +kernel)
  simp only [Prod.mk.injEq] at hf
  exact ⟨t, ht, by simp [hf, closedState, hbState]⟩

theorem test_hyp_ResetRestoresWhatNewProduced_cmp :
    ∃ t, exec (.cmpNew 0x473B8000#32) State.reset = .next t ∧ t.fault = false ∧
      ∃ u : State, u.fault = false ∧
        (u.cmp.c, u.cmp.attack, u.cmp.release) = (true, t.cmp.attack, t.cmp.release) := by
  obtain ⟨t, ht, hf⟩ :=
    exists_next (exec (.cmpNew 0x473B8000#32) State.reset) (fun t => (t.fault, t.cmp.c)) (false, true)
      (by decide +kernel)
  rw [Prod.mk.injEq] at hf
  exact ⟨t, ht, hf.1, t, hf.1, by rw [hf.2]⟩

theorem test_hyp_ResetRestoresWhatNewProduced_aaf :
    ∃ t, exec (.aafNew 2#8 0x46ABE000#32) State.reset = .next t ∧ t.fault = false ∧
      (2#8).toNat < t.cfg.nAaf.val ∧
      ((t.aaf.get (2#8).toNat).c, (t.aaf.get (2#8).toNat).g) = (true, (t.aaf.get (2#8).toNat).g) := by
  obtain ⟨t, ht, hf⟩ :=
    exists_next (exec (.aafNew 2#8 0x46ABE000#32) State.reset)
      (fun t => (t.fault, t.cfg.nAaf.val, (t.aaf.get (2#8).toNat).c)) (false, 3, true) (by decide +kernel)
  simp only [Prod.mk.injEq] at hf
  exact ⟨t, ht, hf.1, by rw [hf.2.1]; decide, by rw [hf.2.2]⟩

/-- A chain that has processed a block beside one that has not. -/
def usedChain : State :=
  { chainState with
    lfo := ⟨true, 0x40800000#32, 0x3DA3D70A#32, 0x3DF0A578#32, 0x3F000000#32, some 0xBFAC9E7E#32⟩
    hb := ⟨true, false, 8, 4, 4⟩
    hbuf := [(4, 0x3CE14548#32), (11, 0x3E825373#32)]
    cmp := ⟨true, 0x3D2728F0#32, 0x3B086400#32, 0x3F7E3063#32⟩
    aaf := ⟨⟨true, some 0x3F446F8C#32, ⟨1, 2⟩, ⟨3, 4⟩⟩, enabledFilter, enabledFilter, .atPowerOn⟩
    fx := ⟨true, false, 0x42A00000#32⟩ }

theorem test_hyp_SettingRunningReplaysBitForBit :
    chainState.Inv ∧ usedChain.Inv ∧ SameConstruction chainState usedChain ∧ chainState.fault = false ∧
    chainState.fx.c = true ∧ chainState.hb.view = false := by
  refine ⟨test_inv_chain, by constructor <;> first | decide +kernel | (constructor <;> decide +kernel), ?_, rfl, rfl, rfl⟩
  constructor <;> first
    | rfl
    | exact ⟨rfl, rfl⟩
    | exact ⟨rfl, rfl, rfl⟩
    | exact ⟨rfl, rfl, rfl, rfl⟩
    | exact ⟨⟨rfl, rfl⟩, ⟨rfl, rfl⟩, ⟨rfl, rfl⟩, rfl⟩
    | skip
  intro a ha
  have ha : 12 ≤ a := ha
  show Mem.read [] a = Mem.read [(4, _), (11, _)] a
  simp only [Mem.read]
  rw [if_neg (by omega), if_neg (by omega)]

theorem test_hyp_OperationsRoundToNearest :
    F32.isFinite 0x3F800000#32 = true ∧ F32.isFinite 0x33800000#32 = true ∧ F32.isFinite 0x3F800001#32 = true ∧
    F32.isFinite (F32.add 0x3F800000#32 0x33800000#32) = true ∧
    F32.isFinite (F32.sub 0x3F800000#32 0x33800000#32) = true ∧
    F32.isFinite (F32.mul 0x3F800000#32 0x33800000#32) = true ∧
    F32.value 0x33800000#32 ≠ 0 ∧ F32.isFinite (F32.div 0x3F800000#32 0x33800000#32) = true := by decide +kernel

/-! ### The LFO -/

/-- `min` = 0 is legal, `min` = `max` is not. -/
theorem test_hyp_LfoNewConstructsTheLfo :
    State.reset.fault = false ∧
    (F32.isFinite 0#32 && F32.isFinite 0x3F800000#32 && F32.le F32.zero 0#32 && F32.lt 0#32 0x3F800000#32) = true ∧
    (F32.isFinite 0x40A00000#32 && F32.isFinite 0x40A00000#32 && F32.le F32.zero 0x40A00000#32 &&
      F32.lt 0x40A00000#32 0x40A00000#32) = false := by decide +kernel

/-- `depth` 100.0 is legal, the next float is not; the three ways the phase goes; both kinds of `output`. -/
theorem test_hyp_LfoStepAdvancesOneSample :
    (chainState.fault = false ∧ chainState.lfo.c = true ∧ State.reset.lfo.c = false) ∧
    (F32.isFinite 0#32 && F32.le F32.zero 0#32 && F32.isFinite 0x42C80000#32 && F32.le F32.zero 0x42C80000#32 &&
        F32.le 0x42C80000#32 0x42C80000#32) = true ∧
    (F32.isFinite 0#32 && F32.le F32.zero 0#32 && F32.isFinite 0x42C80001#32 && F32.le F32.zero 0x42C80001#32 &&
        F32.le 0x42C80001#32 0x42C80000#32) = false ∧
    chainState.lfo.output = none ∧ usedChain.lfo.output = some 0xBFAC9E7E#32 ∧
    F32.lt 0x3F000000#32 F32.half = false ∧
    (F32.lt 0x3E800000#32 F32.half = true ∧ F32.le F32.one (F32.add 0x3F000000#32 0x3E800000#32) = false) ∧
    (F32.lt 0x3E800000#32 F32.half = true ∧ F32.le F32.one (F32.add 0x3F400000#32 0x3E800000#32) = true) := by
  decide +kernel

theorem test_hyp_LfoResetRestoresTheStart :
    chainState.fault = false ∧ chainState.lfo.c = true ∧ State.reset.lfo.c = false := by decide +kernel

theorem test_hyp_LfoRunAnswersTwoPasses :
    chainState.fault = false ∧ chainState.lfo.c = true ∧
    ∀ p ∈ [(0x3E800000#32, 0x42C80000#32), (0x3F400000#32, 0#32)],
      isNonNegative p.1 = true ∧ isPercent p.2 = true := by
  simp only [List.forall_mem_cons, List.not_mem_nil, false_implies, implies_true, and_true]
  decide +kernel

/-! ### The history buffer -/

/-- `max_block` 65535 and an HBUF used to its last word; one word more. -/
theorem test_hyp_HbNewConstructsAZeroedBuffer :
    State.reset.fault = false ∧
    (1 ≤ (65535#32).toNat ∧ (65535#32).toNat ≤ 65535 ∧
      (983041#32).toNat + (65535#32).toNat ≤ State.reset.cfg.hbufWords) ∧
    ¬ (1 ≤ (65535#32).toNat ∧ (65535#32).toNat ≤ 65535 ∧
      (983042#32).toNat + (65535#32).toNat ≤ State.reset.cfg.hbufWords) := by decide +kernel

/-- A block of `max_block` samples, one longer, and an open view. -/
theorem test_hyp_HbProcessWritesTheBlockAfterTheHistory :
    closedState.Inv ∧ openState.Inv ∧
    (closedState.fault = false ∧ State.reset.hb.c = false ∧ closedState.hb.c = true ∧ closedState.hb.view = false ∧
      (oneToEight.take 4).length ≤ closedState.hb.maxBlock ∧ closedState.hb.maxBlock < (oneToEight.take 5).length ∧
      openState.hb.c = true ∧ openState.hb.view = true ∧ (oneToEight.take 4).length ≤ openState.hb.maxBlock) :=
  ⟨test_inv_closed, test_inv_open, by decide +kernel⟩

/-- HB.VIEW, HB.RELEASE and HB.RESET, with a view open and closed. -/
theorem test_hyp_HbViewAnswersTheWholeView :
    openState.Inv ∧ closedState.Inv ∧
    (openState.fault = false ∧ openState.hb.c = true ∧ openState.hb.view = true ∧ closedState.fault = false ∧
      closedState.hb.c = true ∧ closedState.hb.view = false ∧ State.reset.hb.c = false) :=
  ⟨test_inv_open, test_inv_closed, by decide +kernel⟩

theorem test_hyp_HbReleaseMovesTheNewestToTheFront : openState.hb.view = true ∧ closedState.hb.view = false :=
  ⟨rfl, rfl⟩

theorem test_hyp_HbResetZeroFillsTheBuffer : closedState.hb.view = false ∧ openState.hb.view = true := ⟨rfl, rfl⟩

/-- A range up to the last word of the view, and one word further. -/
theorem test_hyp_HbReadAnswersASubRange :
    openState.hb.view = true ∧ closedState.hb.view = false ∧
    (5#32).toNat + (2#32).toNat ≤ openState.hb.lookBehind + openState.hb.len ∧
    openState.hb.lookBehind + openState.hb.len < (5#32).toNat + (3#32).toNat := by decide +kernel

/-! ### The kernel and the delay line -/

/-- `length` = KRAM_WORDS, and one more; both laws. -/
theorem test_hyp_PkLpfBuildsTheKernel :
    State.reset.fault = false ∧ (1 ≤ (65536#32).toNat ∧ (65536#32).toNat ≤ State.reset.cfg.kramWords ∧
      F32.isFinite 0x3E800000#32 = true ∧ F32.lt F32.zero 0x3E800000#32 = true) ∧
    ¬ (1 ≤ (65537#32).toNat ∧ (65537#32).toNat ≤ State.reset.cfg.kramWords ∧
      F32.isFinite 0x3E800000#32 = true ∧ F32.lt F32.zero 0x3E800000#32 = true) ∧
    State.reset.cfg.lpf = .specDefault ∧
    (State.powerOn { paramsOfVectors with lpf := .replaced }).cfg.lpf = .replaced := by decide +kernel

theorem test_hyp_PkLoadkLoadsTheTaps :
    State.reset.Inv ∧ (State.reset.fault = false ∧ 1 ≤ oneToEight.length ∧
      oneToEight.length ≤ State.reset.cfg.kramWords ∧ oneToEight.length < 2 ^ 32 ∧
      ¬ (1 ≤ ([] : List F32).length ∧ ([] : List F32).length ≤ State.reset.cfg.kramWords ∧
        ([] : List F32).length < 2 ^ 32)) :=
  ⟨test_inv_reset, by decide +kernel⟩

/-- `num_phases` = L, and L + 1. -/
theorem test_hyp_PkSplitDeinterleavesTheKernel :
    kernelState.Inv ∧ (kernelState.fault = false ∧ kernelState.pk.kv = true ∧ State.reset.pk.kv = false ∧
      1 ≤ (8#32).toNat ∧ kernelState.pk.kLen % (8#32).toNat = 0 ∧
      ¬ (1 ≤ (9#32).toNat ∧ kernelState.pk.kLen % (9#32).toNat = 0)) :=
  ⟨test_inv_kernel, by decide +kernel⟩

/-- The last sample of the block and the one after it; windows at both ends of the view and beyond them (V-DL-1, V-DL-2);
a fraction of no phase and of three. -/
theorem test_hyp_DlReadIsOneDotProduct :
    delayState.Inv ∧
    (delayState.fault = false ∧ delayState.hb.c = true ∧ delayState.pk.sv = true ∧ openState.pk.sv = false ∧
      viewedChain.hb.view = true ∧ chainState.hb.view = false ∧ chainState.pk.sv = true ∧
      delayState.hb.view = true ∧ (3#32).toNat < delayState.hb.len ∧ delayState.hb.len ≤ (4#32).toNat ∧
      (F32.isFinite 0x80000000#32 && F32.le F32.zero 0x80000000#32) = true ∧
      (F32.isFinite 0x80000001#32 && F32.le F32.zero 0x80000001#32) = false ∧
      delayState.cfg.phaseSel = .specDefault ∧
      phaseSel .specDefault 0x40E00000#32 4 2 = (6, 0) ∧ phaseSel .specDefault 0x40E80000#32 4 2 = (7, 3) ∧
      phaseSel .specDefault 0#32 4 2 = (-1, 0) ∧
      (0 : Int) ≤ (4 + 3 - 6) - 2 + 1 ∧ ((4 + 3 - 7) - 2 + 1 : Int) < 0 ∧
      (delayState.hb.lookBehind : Int) + delayState.hb.len - 1 < 4 + 3 - (-1) ∧
      (4 + 2 - (-1) : Int) ≤ (delayState.hb.lookBehind : Int) + delayState.hb.len - 1) :=
  ⟨test_inv_delay, by decide +kernel⟩

/-- The largest delay for sample 0, just below 4.0 (V-DL-2), and the smallest, 1.0. -/
theorem test_hyp_SizedDelaysAreReadable :
    delayState.Inv ∧ (delayState.hb.c = true ∧ delayState.pk.sv = true ∧ delayState.hb.view = true ∧
      delayState.cfg.phaseSel = .specDefault ∧ (0#32).toNat < delayState.hb.len) ∧
    delayFits delayState 0 0x407FFFFF#32 ∧ delayFits delayState 0 0x3F800000#32 :=
  ⟨test_inv_delay, by decide +kernel, ⟨by decide +kernel, by decide +kernel, by decide +kernel⟩,
    ⟨by decide +kernel, by decide +kernel, by decide +kernel⟩⟩

/-! ### The compander, the waveshaper and the filters -/

theorem test_hyp_CmpNewConstructsTheDetector :
    State.reset.fault = false ∧ (F32.isFinite 0x00000001#32 && F32.lt F32.zero 0x00000001#32) = true ∧
    (F32.isFinite 0#32 && F32.lt F32.zero 0#32) = false := by decide +kernel

theorem test_hyp_CmpDetectMovesTheEnvelope :
    chainState.fault = false ∧ chainState.cmp.c = true ∧ State.reset.cmp.c = false := by decide +kernel

theorem test_hyp_CmpResetRestoresOne :
    chainState.fault = false ∧ chainState.cmp.c = true ∧ State.reset.cmp.c = false := by decide +kernel

theorem test_hyp_CompressAndExpandAreStateless : State.reset.fault = false := rfl

/-- Both sides of the boundary at 1.0 and at -1.0, and a NaN. -/
theorem test_hyp_NlShapeIsTheCubic :
    State.reset.fault = false ∧
    (F32.lt F32.one (F32.abs 0x3F800001#32) = true ∧ F32.lt F32.zero 0x3F800001#32 = true) ∧
    (F32.lt F32.one (F32.abs 0xBF800001#32) = true ∧ F32.lt F32.zero 0xBF800001#32 = false) ∧
    F32.lt F32.one (F32.abs 0x3F800000#32) = false ∧ F32.lt F32.one (F32.abs 0xBF800000#32) = false ∧
    F32.isNaN 0x7FC00000#32 = true := by decide +kernel

/-- The last instance and the first that is not there; 22000 Hz and the next float; both laws. -/
theorem test_hyp_AafNewConstructsTheInstance :
    State.reset.fault = false ∧ State.reset.cfg.nAaf.val ≤ (3#8).toNat ∧ (2#8).toNat < State.reset.cfg.nAaf.val ∧
    (F32.isFinite 0x46ABE000#32 && F32.lt F32.zero 0x46ABE000#32) = true ∧
    F32.le 0x46ABE000#32 0x46ABE000#32 = true ∧ F32.le 0x46ABE001#32 0x46ABE000#32 = false ∧
    State.reset.cfg.svf = .specDefault ∧
    (State.powerOn { paramsOfVectors with svf := .replaced }).cfg.svf = .replaced ∧
    (F32.isFinite 0x7F800000#32 && F32.lt F32.zero 0x7F800000#32) = false := by decide +kernel

theorem test_hyp_AafStepRunsTheTwoStages :
    chainState.fault = false ∧ chainState.cfg.nAaf.val ≤ (3#8).toNat ∧ (2#8).toNat < chainState.cfg.nAaf.val ∧
    (chainState.aaf.get (2#8).toNat).c = true ∧ (State.reset.aaf.get (2#8).toNat).c = false := by decide +kernel

theorem test_hyp_AafResetZeroesTheState :
    chainState.fault = false ∧ chainState.cfg.nAaf.val ≤ (3#8).toNat ∧ (0#8).toNat < chainState.cfg.nAaf.val ∧
    (chainState.aaf.get (0#8).toNat).c = true ∧ (State.reset.aaf.get (0#8).toNat).c = false := by decide +kernel

theorem test_hyp_DisabledFilterIsSilent :
    (aafState disabledFilter).fault = false ∧ (0#8).toNat < (aafState disabledFilter).cfg.nAaf.val ∧
    (aafState disabledFilter).aaf.get (0#8).toNat = { c := true, g := none, stage0 := ⟨0#32, 0#32⟩, stage1 := ⟨0#32, 0#32⟩ } := by
  decide +kernel

/-! ### The chain controller -/

/-- The longest block; a machine whose kernel does not split, and one with two filters. -/
theorem test_hyp_FxNewConstructsTheChain :
    State.reset.Inv ∧
    (State.reset.fault = false ∧ (F32.isFinite 0x473B8000#32 && F32.lt F32.zero 0x473B8000#32) = true ∧
      1 ≤ (65535#32).toNat ∧ (65535#32).toNat ≤ 65535 ∧
      fxLfoBounds State.reset.cfg 0x473B8000#32 = (0x40000000#32, 0x40C00000#32) ∧
      3 ≤ State.reset.cfg.nAaf.val ∧ ({ paramsOfVectors with nAaf := 2 } : Params).nAaf.val < 3) ∧
    ConstituentsFit State.reset.cfg 0x40000000#32 0x40C00000#32 2 65535 ∧
    ConstituentsFit { paramsOfVectors with nAaf := 2 } 0x40000000#32 0x40C00000#32 2 65535 ∧
    ¬ ConstituentsFit { paramsOfVectors with nPhases := 3 } 0x40000000#32 0x40C00000#32 2 65535 ∧
    ¬ KernelFits { paramsOfVectors with kLen := 0 } ∧
    ¬ ConstituentsFit { paramsOfVectors with hbufWords := 2 ^ 33 } 0x40000000#32 0x4F800000#32 2 65535 ∧
    ¬ ((F32.isFinite 0#32 && F32.lt F32.zero 0#32) = true ∧ 1 ≤ (1#32).toNat ∧ (1#32).toNat ≤ 65535) := by
  refine ⟨test_inv_reset, ?_, ?_, ?_, ?_, ?_, ?_, ?_⟩ <;> (try unfold ConstituentsFit) <;> (try unfold KernelFits) <;> decide +kernel

/-- FX.SETPROC and FX.RESET: with a view closed and open, and before construction. -/
theorem test_hyp_FxSetprocSwitchesTheMode :
    idleChain.Inv ∧ viewedChain.Inv ∧
    (idleChain.fault = false ∧ idleChain.fx.c = true ∧ idleChain.hb.view = false ∧ viewedChain.fx.c = true ∧
      viewedChain.hb.view = true ∧ State.reset.fx.c = false ∧ 2#32 ≠ 0#32 ∧ 2#32 ≠ 1#32) :=
  ⟨by constructor <;> first | decide +kernel | (constructor <;> decide +kernel), test_inv_viewedChain, by decide +kernel⟩

theorem test_hyp_FxResetResetsEveryStage :
    chainState.Inv ∧ (chainState.fault = false ∧ chainState.fx.c = true ∧ chainState.hb.view = false ∧
      viewedChain.hb.view = true ∧ State.reset.fx.c = false) :=
  ⟨test_inv_chain, by decide +kernel⟩

/-- The ends of the ranges, 0.08 and 10.1 Hz and 100 %, and a `bypass` of 2. -/
theorem test_hyp_FxParamsChecksAndChangesNothing :
    chainState.fault = false ∧ chainState.fx.c = true ∧ State.reset.fx.c = false ∧
    (∀ p ∈ [(⟨0x3DA3D70A#32, 0#32, 0#32, 0#32⟩ : ParamSample), ⟨0x4121999A#32, 0x42C80000#32, 0x42C80000#32, 1#32⟩],
      (F32.isFinite p.rate && F32.isFinite p.depth && F32.isFinite p.mix &&
        F32.le 0x3DA3D70A#32 p.rate && F32.le p.rate 0x4121999A#32 &&
        F32.le 0#32 p.depth && F32.le p.depth 0x42C80000#32 &&
        F32.le 0#32 p.mix && F32.le p.mix 0x42C80000#32) = true ∧ (p.bypass = 0#32 ∨ p.bypass = 1#32)) ∧
    ¬ ((⟨0x3DA3D70A#32, 0#32, 0#32, 2#32⟩ : ParamSample).bypass = 0#32 ∨
      (⟨0x3DA3D70A#32, 0#32, 0#32, 2#32⟩ : ParamSample).bypass = 1#32) := by decide +kernel

theorem test_hyp_MixIsALinearCrossfade :
    (0#32 ≠ 1#32 ∧ F32.isFinite 0x3E800000#32 = true ∧ F32.isNaN 0x7F800000#32 = false ∧
      F32.order 0x7F800000#32 ≠ 0) ∧
    (F32.isFinite 0x3F000000#32 = true ∧ F32.isNaN 0x80000000#32 = false) := by decide +kernel

/-- Two samples with delays of 2 to 6 (P5). -/
theorem test_hyp_FxProcessCompletesOnSizedDelays :
    chainState.Inv ∧
    (chainState.fault = false ∧ chainState.fx.c = true ∧ chainState.fx.run = true ∧
      (p5Block.take 2).length ≤ chainState.hb.maxBlock ∧ chainState.hb.view = false ∧ chainState.pk.sv = true ∧
      chainState.cfg.phaseSel = .specDefault ∧
      ∀ p ∈ p5Block.take 2, isInRange p.params = true ∧
        isNonNegative (F32.div p.params.rate chainState.fx.fs) = true) ∧
    (∀ i d, (delaysOver chainState.lfo
        ((p5Block.take 2).map fun p => (F32.div p.params.rate chainState.fx.fs, p.params.depth)))[i]? = some d →
      delayFits chainState i d.1 ∧ delayFits chainState i d.2) := by
  refine ⟨test_inv_chain, by decide +kernel, ?_⟩
  have hd : delaysOver chainState.lfo
      ((p5Block.take 2).map fun p => (F32.div p.params.rate chainState.fx.fs, p.params.depth)) =
      [(0x40000000#32, 0x40C00000#32), (0x4007852C#32, 0x40BC3D6A#32)] := by decide +kernel
  rw [hd]
  intro i d h
  match i, h with
  | 0, h => cases h; unfold delayFits; decide +kernel
  | 1, h => cases h; unfold delayFits; decide +kernel

/-- A block the host's own program completes, and one whose delay reads before index 0: `RANGE` (6) from `DL.READ`. -/
theorem test_hyp_FxProcessIsTheUnitCommands :
    (chainState.fx.run = true ∧ (p5Block.take 1).length ≤ chainState.hb.maxBlock ∧
      ∀ p ∈ p5Block, isInRange p.params = true) ∧
    (hostChain (p5Block.take 1) chainState).map Prod.fst = .ok [0#32, 0#32] ∧
    hostChain (p5Block.take 1) { chainState with hb := ⟨true, false, 5, 4, 0⟩ } = .error 6#4 ∧
    ({ chainState with hb := ⟨true, false, 5, 4, 0⟩ } : State).Inv := by
  refine ⟨by decide +kernel, by decide +kernel, by decide +kernel, by constructor <;> first | decide +kernel | (constructor <;> decide +kernel)⟩

theorem test_hyp_FxProcessChecksInOrder :
    State.reset.fx.c = false ∧ chainState.fx.c = true ∧ idleChain.fx.run = false ∧ chainState.fx.run = true ∧
    chainState.hb.maxBlock < (p5Block ++ p5Block).length ∧ p5Block.length ≤ chainState.hb.maxBlock ∧
    viewedChain.hb.view = true ∧ chainState.hb.view = false ∧
    isInRange ⟨0x3D4CCCCD#32, 0#32, 0#32, 0#32⟩ = false := by decide +kernel

end Sys2Proof.Tests
end

section
/-!
The machine's parameters: what holds of every state an operation leaves, completing or faulting, said once for
sequencing, a chain and a command, and used for the parameters (rule R7; log 4).
-/

namespace Sys2Proof.Machine

/-! ## The state an operation leaves -/

/-- Every state the operation leaves, whether it completes or faults, meets `p`. -/
def Res.Leaves {α : Type} (p : State → Prop) (r : Res α) : Prop :=
  (∀ a t, r = .ok a t → p t) ∧ ∀ c t, r = .trap c t → p t

theorem Res.leaves_ok {α : Type} {p : State → Prop} {a : α} {s : State} (h : p s) : (Res.ok a s).Leaves p :=
  ⟨fun _ _ hr => (Res.ok.inj hr).2 ▸ h, fun _ _ hr => by simp at hr⟩

theorem Res.leaves_trap {α : Type} {p : State → Prop} {c : Cause} {s : State} (h : p s) :
    (Res.trap c s : Res α).Leaves p :=
  ⟨fun _ _ hr => by simp at hr, fun _ _ hr => (Res.trap.inj hr).2 ▸ h⟩

theorem Res.Leaves.bind {α β : Type} {p : State → Prop} {r : Res α} {k : α → State → Res β} (hr : r.Leaves p)
    (hk : ∀ a t, p t → (k a t).Leaves p) : (r.bind k).Leaves p := by
  obtain ⟨hok, htrap⟩ := hr
  constructor
  · intro b u h
    obtain ⟨a, t, hra, hka⟩ := (Res.bind_eq_ok r k b u).mp h
    exact (hk a t (hok a t hra)).1 b u hka
  · intro c u h
    rcases (Res.bind_eq_trap r k c u).mp h with hrc | ⟨a, t, hra, hka⟩
    · exact htrap c u hrc
    · exact (hk a t (hok a t hra)).2 c u hka

/-- A chain leaves what its constituents leave, or free values on top of it (rule R172 item 3). -/
theorem Res.Leaves.chain {α β : Type} {p : State → Prop} {first : Res α} {whole : Res β} (hw : whole.Leaves p)
    (hu : ∀ t, p t → p t.unspecified) : (chain first whole).Leaves p := by
  obtain ⟨hok, htrap⟩ := hw
  constructor
  · exact fun b t h => hok b t (chain_eq_ok first whole b t h)
  · intro c t h
    rcases chain_eq_trap first whole c t h with ⟨-, hc⟩ | ⟨u, hc, rfl⟩
    · exact htrap c t hc
    · exact hu u (htrap c u hc)

/-! ## Operations that keep the parameters -/

/-- From any state the operation leaves the parameters as they are (log 4). -/
def KeepsParams {α : Type} (op : State → Res α) : Prop := ∀ s, (op s).Leaves (·.cfg = s.cfg)

/-- Two such operations in sequence. -/
theorem KeepsParams.bind {α β : Type} {op : State → Res α} {k : α → State → Res β} (hop : KeepsParams op)
    (hk : ∀ a, KeepsParams (k a)) : KeepsParams fun s => (op s).bind k := by
  intro s
  refine (hop s).bind fun a t ht => ?_
  rw [← ht]
  exact hk a t

theorem KeepsParams.ok {α : Type} {a : α} {f : State → State} (hf : ∀ s, (f s).cfg = s.cfg) :
    KeepsParams fun s => .ok a (f s) :=
  fun s => Res.leaves_ok (hf s)

/-- A check in front of such an operation: its fault writes nothing (rule R170). -/
theorem KeepsParams.check {α : Type} {b : State → Prop} [∀ s, Decidable (b s)] {c : Cause} {op : State → Res α}
    (hop : KeepsParams op) : KeepsParams fun s => if b s then .trap c s else op s := by
  intro s
  dsimp only
  split
  · exact Res.leaves_trap rfl
  · exact hop s

theorem KeepsParams.chain {α β : Type} {first : State → Res α} {whole : State → Res β} (h : KeepsParams whole) :
    KeepsParams fun s => chain (first s) (whole s) :=
  fun s => (h s).chain fun _ ht => ht

theorem lfoNew_keepsParams (lo hi : F32) : KeepsParams (lfoNew lo hi) :=
  fun s => ⟨by simp +contextual [lfoNew_eq_ok], by simp +contextual [lfoNew_eq_trap]⟩

theorem lfoStep_keepsParams (incr depth : F32) : KeepsParams (lfoStep incr depth) :=
  fun s => ⟨by simp +contextual [lfoStep_eq_ok], by simp +contextual [lfoStep_eq_trap]⟩

theorem lfoReset_keepsParams : KeepsParams lfoReset :=
  fun s => ⟨by simp +contextual [lfoReset_eq_ok], by simp +contextual [lfoReset_eq_trap]⟩

theorem hbNew_keepsParams (lookBehind maxBlock : Nat) : KeepsParams (hbNew lookBehind maxBlock) :=
  fun s => ⟨by simp +contextual [hbNew_eq_ok], by simp +contextual [hbNew_eq_trap]⟩

theorem hbProcess_keepsParams (samples : List F32) : KeepsParams (hbProcess samples) :=
  fun s => ⟨by simp +contextual [hbProcess_eq_ok], by simp +contextual [hbProcess_eq_trap]⟩

theorem hbView_keepsParams : KeepsParams hbView :=
  fun s => ⟨by simp +contextual [hbView_eq_ok], by simp +contextual [hbView_eq_trap]⟩

theorem hbRead_keepsParams (start count : Nat) : KeepsParams (hbRead start count) :=
  fun s => ⟨by simp +contextual [hbRead_eq_ok], by simp +contextual [hbRead_eq_trap]⟩

theorem hbRelease_keepsParams : KeepsParams hbRelease :=
  fun s => ⟨by simp +contextual [hbRelease_eq_ok], by simp +contextual [hbRelease_eq_trap]⟩

theorem hbReset_keepsParams : KeepsParams hbReset :=
  fun s => ⟨by simp +contextual [hbReset_eq_ok], by simp +contextual [hbReset_eq_trap]⟩

theorem pkLpf_keepsParams (length : Nat) (increment : F32) : KeepsParams (pkLpf length increment) :=
  fun s => ⟨by simp +contextual [pkLpf_eq_ok], by simp +contextual [pkLpf_eq_trap]⟩

theorem pkLoadk_keepsParams (taps : List F32) : KeepsParams (pkLoadk taps) :=
  fun s => ⟨by simp +contextual [pkLoadk_eq_ok], by simp +contextual [pkLoadk_eq_trap]⟩

theorem pkSplit_keepsParams (n : Nat) : KeepsParams (pkSplit n) :=
  fun s => ⟨by simp +contextual [pkSplit_eq_ok], by simp +contextual [pkSplit_eq_trap]⟩

theorem dlRead_keepsParams (i : Nat) (delay : F32) : KeepsParams (dlRead i delay) := by
  refine fun s => ⟨fun y t h => ?_, fun c t h => ?_⟩
  · obtain ⟨-, -, -, -, -, -, -, -, rfl⟩ := dlRead_eq_ok i delay s t y h
    rfl
  · obtain ⟨rfl, -⟩ := dlRead_eq_trap i delay s t c h
    rfl

theorem cmpNew_keepsParams (fs : F32) : KeepsParams (cmpNew fs) :=
  fun s => ⟨by simp +contextual [cmpNew_eq_ok], by simp +contextual [cmpNew_eq_trap]⟩

theorem cmpDetect_keepsParams (x : F32) : KeepsParams (cmpDetect x) :=
  fun s => ⟨by simp +contextual [cmpDetect_eq_ok], by simp +contextual [cmpDetect_eq_trap]⟩

theorem cmpReset_keepsParams : KeepsParams cmpReset :=
  fun s => ⟨by simp +contextual [cmpReset_eq_ok], by simp +contextual [cmpReset_eq_trap]⟩

theorem cmpCompress_keepsParams (signal level : F32) : KeepsParams (cmpCompress signal level) :=
  fun _ => Res.leaves_ok rfl

theorem cmpExpand_keepsParams (signal level : F32) : KeepsParams (cmpExpand signal level) :=
  fun _ => Res.leaves_ok rfl

theorem nlShape_keepsParams (x : F32) : KeepsParams (nlShape x) := fun _ => Res.leaves_ok rfl

theorem aafNew_keepsParams (k : Nat) (fs : F32) : KeepsParams (aafNew k fs) :=
  fun s => ⟨by simp +contextual [aafNew_eq_ok], by simp +contextual [aafNew_eq_trap]⟩

theorem aafStep_keepsParams (k : Nat) (x : F32) : KeepsParams (aafStep k x) :=
  fun s => ⟨by simp +contextual [aafStep_eq_ok], by simp +contextual [aafStep_eq_trap]⟩

theorem aafReset_keepsParams (k : Nat) : KeepsParams (aafReset k) :=
  fun s => ⟨by simp +contextual [aafReset_eq_ok], by simp +contextual [aafReset_eq_trap]⟩

/-! ## The chain controller -/

theorem fxHbNew_keepsParams (fs : F32) (maxBlock : Nat) : KeepsParams (fxHbNew fs maxBlock) := by
  intro s
  rcases fxHbNew_cases fs maxBlock s with ⟨lookBehind, h⟩ | h
  · rw [h]; exact hbNew_keepsParams lookBehind maxBlock s
  · rw [h]; exact Res.leaves_trap rfl

theorem fxConstruct_keepsParams (fs : F32) (maxBlock : Nat) : KeepsParams (fxConstruct fs maxBlock) := by
  intro s
  unfold fxConstruct
  refine KeepsParams.bind (pkLpf_keepsParams _ _) (fun _ s => ?_) s
  refine KeepsParams.bind (pkSplit_keepsParams _) (fun _ s => ?_) s
  refine KeepsParams.bind (fxHbNew_keepsParams fs maxBlock) (fun _ s => ?_) s
  refine KeepsParams.bind (lfoNew_keepsParams _ _) (fun _ => ?_) s
  refine .bind (cmpNew_keepsParams fs) fun _ => ?_
  refine .bind (aafNew_keepsParams 0 fs) fun _ => ?_
  refine .bind (aafNew_keepsParams 1 fs) fun _ => ?_
  refine .bind (aafNew_keepsParams 2 fs) fun _ => ?_
  exact .ok fun _ => rfl

theorem fxNew_keepsParams (fs : F32) (maxBlock : Nat) : KeepsParams (fxNew fs maxBlock) :=
  .check (.chain (fxConstruct_keepsParams fs maxBlock))

theorem resetStages_keepsParams : KeepsParams resetStages :=
  .bind lfoReset_keepsParams fun _ => .bind hbReset_keepsParams fun _ => .bind cmpReset_keepsParams fun _ =>
    .bind (aafReset_keepsParams 0) fun _ => .bind (aafReset_keepsParams 1) fun _ => aafReset_keepsParams 2

theorem fxSetproc_keepsParams (on : Word) : KeepsParams (fxSetproc on) := by
  refine .check (.check ?_)
  by_cases h : on = 1#32
  · simp only [if_pos h]
    exact .check (.bind (op := fun s => Machine.chain (lfoReset s) (resetStages s)) (.chain resetStages_keepsParams)
      fun _ _ => Res.leaves_ok rfl)
  · simp only [if_neg h]
    exact fun _ => Res.leaves_ok rfl

theorem fxReset_keepsParams : KeepsParams fxReset :=
  .check (.check (.chain resetStages_keepsParams))

theorem fxParams_keepsParams (params : List ParamSample) : KeepsParams (fxParams params) :=
  .check (.check (.ok fun _ => rfl))

theorem frontSample_keepsParams (p : FxSample) : KeepsParams (frontSample p) := by
  refine .bind (aafStep_keepsParams 0 p.x) fun a => ?_
  refine .bind (cmpDetect_keepsParams a) fun level => ?_
  refine .bind (cmpCompress_keepsParams a level) fun _ s => ?_
  exact KeepsParams.bind (lfoStep_keepsParams _ _) (fun _ => .ok fun _ => rfl) s

theorem frontBlock_keepsParams (block : List FxSample) : KeepsParams (frontBlock block) := by
  induction block with
  | nil => exact .ok fun _ => rfl
  | cons p ps ih => exact .bind (frontSample_keepsParams p) fun _ => .bind ih fun _ => .ok fun _ => rfl

theorem backTap_keepsParams (t tap : Nat) (delay : F32) (f : FrontSample) : KeepsParams (backTap t tap delay f) :=
  .bind (dlRead_keepsParams t delay) fun r => .bind (nlShape_keepsParams r) fun shaped =>
    .bind (cmpExpand_keepsParams shaped f.level) fun e => .bind (aafStep_keepsParams (1 + tap) e) fun _ =>
      .ok fun _ => rfl

theorem backBlock_keepsParams (t : Nat) (front : List FrontSample) : KeepsParams (backBlock t front) := by
  induction front generalizing t with
  | nil => exact .ok fun _ => rfl
  | cons f fs ih =>
    exact .bind (backTap_keepsParams t 0 f.forward f) fun _ => .bind (backTap_keepsParams t 1 f.reverse f) fun _ =>
      .bind (ih (t + 1)) fun _ => .ok fun _ => rfl

theorem processBlock_keepsParams (block : List FxSample) : KeepsParams (processBlock block) :=
  .bind (frontBlock_keepsParams block) fun front => .bind (hbProcess_keepsParams _) fun _ =>
    .bind (backBlock_keepsParams 0 front) fun _ => .bind hbRelease_keepsParams fun _ => .ok fun _ => rfl

theorem fxProcess_keepsParams (block : List FxSample) : KeepsParams (fxProcess block) :=
  .check (.check (.check (.check (.check (.chain (processBlock_keepsParams block))))))

/-! ## Commands and steps -/

/-- A command of such an operation answers the parameters it was given, refused or not. -/
theorem KeepsParams.command_cfg {α : Type} {words : α → List Word} {op : State → Res α} {s t : State}
    (hop : KeepsParams op) (h : command words op s = .next t) : t.cfg = s.cfg := by
  obtain ⟨hok, htrap⟩ := hop s
  rcases (command_eq_next words op s t).mp h with ⟨-, rfl⟩ | ⟨-, ⟨a, u, hu, rfl⟩ | ⟨c, u, hu, rfl⟩⟩
  · rfl
  · exact hok a u hu
  · exact (State.raise_cfg u c).trans (htrap c u hu)

theorem exec_cfg {s t : State} : ∀ i : Instr, exec i s = .next t → t.cfg = s.cfg
  | .lfoNew lo hi => (lfoNew_keepsParams lo hi).command_cfg
  | .lfoStep incr depth => (lfoStep_keepsParams incr depth).command_cfg
  | .lfoReset => lfoReset_keepsParams.command_cfg
  | .hbNew _ _ => (hbNew_keepsParams _ _).command_cfg
  | .hbProcess samples => (hbProcess_keepsParams samples).command_cfg
  | .hbView => hbView_keepsParams.command_cfg
  | .hbRead _ _ => (hbRead_keepsParams _ _).command_cfg
  | .hbRelease => hbRelease_keepsParams.command_cfg
  | .hbReset => hbReset_keepsParams.command_cfg
  | .pkLpf _ increment => (pkLpf_keepsParams _ increment).command_cfg
  | .pkLoadk taps => (pkLoadk_keepsParams taps).command_cfg
  | .pkSplit _ => (pkSplit_keepsParams _).command_cfg
  | .dlRead _ delay => (dlRead_keepsParams _ delay).command_cfg
  | .cmpNew fs => (cmpNew_keepsParams fs).command_cfg
  | .cmpDetect x => (cmpDetect_keepsParams x).command_cfg
  | .cmpReset => cmpReset_keepsParams.command_cfg
  | .cmpCompress signal level => (cmpCompress_keepsParams signal level).command_cfg
  | .cmpExpand signal level => (cmpExpand_keepsParams signal level).command_cfg
  | .nlShape x => (nlShape_keepsParams x).command_cfg
  | .aafNew k fs => (aafNew_keepsParams k.toNat fs).command_cfg
  | .aafStep k x => (aafStep_keepsParams k.toNat x).command_cfg
  | .aafReset k => (aafReset_keepsParams k.toNat).command_cfg
  | .fxNew fs _ => (fxNew_keepsParams fs _).command_cfg
  | .fxSetproc on => (fxSetproc_keepsParams on).command_cfg
  | .fxParams params => (fxParams_keepsParams params).command_cfg
  | .fxProcess block => (fxProcess_keepsParams block).command_cfg
  | .fxReset => fxReset_keepsParams.command_cfg

/-- Everything a step can do when it answers a next state: it runs the packet's operation, takes an illegal word, or
waits (rules R21, R70, R75). -/
theorem step_eq_next {s t : State} (h : step s = .next t) :
    (∃ i rest, decode s.port = .ok (i, rest) ∧ exec i { s with port := rest } = .next t) ∨
    illegalCommand { s with port := s.port.drop 1 } = .next t ∨ t = s := by
  unfold step at h
  split at h
  next i rest hd => exact .inl ⟨i, rest, hd, h⟩
  next => cases h; exact .inr (.inr rfl)
  next => exact .inr (.inl h)

/-- Settles O13: every operation keeps the parameters, so the packet a step takes does, and so does an illegal word. -/
theorem noStepChangesTheParameters : Obligations.NoStepChangesTheParameters := by
  intro s t h
  have hill : KeepsParams fun u => (.trap .illegalCmd u : Res Unit) := fun _ => Res.leaves_trap rfl
  rcases step_eq_next h with ⟨i, rest, -, hi⟩ | hi | rfl
  · exact exec_cfg (s := { s with port := rest }) i hi
  · exact hill.command_cfg (s := { s with port := s.port.drop 1 }) hi
  · rfl

end Sys2Proof.Machine
end

section
/-!
Rounding (rule R11, D8): the magnitudes in rising order, the fields of a packed word, and that `F32.roundMag` answers a
nearest magnitude, the even one of two. A finite result of an operation packs such an answer.
-/

namespace Sys2Proof

/-! ## Magnitudes -/

/-- The field of a significand `q` below 2^24 at exponent `shift`: the sum carries the hidden bit into the exponent. -/
theorem F32.unitsOfMag_shift (shift q : Nat) (hq : q < 2 ^ 24) (hn : shift = 0 ∨ 2 ^ 23 ≤ q) :
    F32.unitsOfMag (shift * 2 ^ 23 + q) = q * 2 ^ shift := by
  unfold F32.unitsOfMag
  by_cases h : q < 2 ^ 23
  · obtain rfl : shift = 0 := by omega
    rw [if_pos (by omega)]
    omega
  · have hexp : (shift * 2 ^ 23 + q) / 2 ^ 23 - 1 = shift := by omega
    have hfrac : 2 ^ 23 + (shift * 2 ^ 23 + q) % 2 ^ 23 = q := by omega
    rw [if_neg (by omega), hexp, hfrac]

/-- The distance from a magnitude to the next one is one unit in the last place. -/
theorem F32.unitsOfMag_succ (m : Nat) :
    F32.unitsOfMag (m + 1) = F32.unitsOfMag m + 2 ^ (m / 2 ^ 23 - 1) := by
  unfold F32.unitsOfMag
  rcases Nat.lt_trichotomy (m + 1) (2 ^ 23) with h | h | h
  · have hexp : m / 2 ^ 23 - 1 = 0 := by omega
    rw [if_pos h, if_pos (by omega), hexp, pow_zero]
  · obtain rfl : m = 2 ^ 23 - 1 := by omega
    rfl
  · rw [if_neg (by omega), if_neg (by omega)]
    by_cases hc : m % 2 ^ 23 = 2 ^ 23 - 1
    · have hexp : (m + 1) / 2 ^ 23 - 1 = (m / 2 ^ 23 - 1) + 1 := by omega
      have hfrac : (m + 1) % 2 ^ 23 = 0 := by omega
      rw [hexp, hfrac, hc, pow_succ]
      omega
    · have hexp : (m + 1) / 2 ^ 23 - 1 = m / 2 ^ 23 - 1 := by omega
      have hfrac : (m + 1) % 2 ^ 23 = m % 2 ^ 23 + 1 := by omega
      rw [hexp, hfrac]
      ring

theorem F32.unitsOfMag_strictMono : StrictMono F32.unitsOfMag :=
  strictMono_nat_of_lt_succ fun m => by rw [F32.unitsOfMag_succ]; exact Nat.lt_add_of_pos_right (Nat.two_pow_pos _)

/-! ## The rounded magnitude -/

/-- The field `m` stands for a magnitude nearest to `num / den` units, the even field where two are as near: `RoundedTo`
of magnitudes. -/
def F32.NearestMag (num den m : Nat) : Prop :=
  ∀ k, Nat.dist (F32.unitsOfMag m * den) num ≤ Nat.dist (F32.unitsOfMag k * den) num ∧
    (Nat.dist (F32.unitsOfMag m * den) num = Nat.dist (F32.unitsOfMag k * den) num →
      F32.unitsOfMag k ≠ F32.unitsOfMag m → m % 2 = 0)

/-- No magnitude lies strictly between two neighbours. -/
theorem F32.unitsOfMag_le_or_succ_le (m k : Nat) :
    F32.unitsOfMag k ≤ F32.unitsOfMag m ∨ F32.unitsOfMag (m + 1) ≤ F32.unitsOfMag k :=
  (le_or_gt k m).imp (fun h => F32.unitsOfMag_strictMono.monotone h)
    fun h => F32.unitsOfMag_strictMono.monotone h

/-- Where `num / den` lies at or above the field `m` and below `m + 1`, the two a `step` apart: rounding up from more than
half a step, and from half a step where `m` is odd, gives the nearest. -/
theorem F32.nearestMag_of_between (num den m r step : Nat) (hden : 0 < den) (hr : r < step)
    (hm : F32.unitsOfMag m * den + r = num) (hs : F32.unitsOfMag (m + 1) * den = F32.unitsOfMag m * den + step) :
    F32.NearestMag num den (m + if step < 2 * r ∨ (2 * r = step ∧ m % 2 = 1) then 1 else 0) := by
  intro k
  have hk := (F32.unitsOfMag_le_or_succ_le m k).imp (Nat.mul_le_mul_right den) (Nat.mul_le_mul_right den)
  have hne (j : Nat) (h : F32.unitsOfMag k ≠ F32.unitsOfMag j) : F32.unitsOfMag k * den ≠ F32.unitsOfMag j * den :=
    fun he => h (Nat.eq_of_mul_eq_mul_right hden he)
  have hne0 := hne m
  have hne1 := hne (m + 1)
  unfold Nat.dist
  split
  next hup => exact ⟨by omega, fun heq h => by have := hne1 h; omega⟩
  next hdown =>
    rw [Nat.add_zero]
    exact ⟨by omega, fun heq h => by have := hne0 h; omega⟩

/-- The significand of a quotient has at most 24 bits, and all 24 where the quotient is shifted. -/
theorem F32.significand_bounds (x : Nat) :
    x / 2 ^ (Nat.log2 x - 23) < 2 ^ 24 ∧ (Nat.log2 x - 23 = 0 ∨ 2 ^ 23 ≤ x / 2 ^ (Nat.log2 x - 23)) := by
  constructor
  · rw [Nat.div_lt_iff_lt_mul (Nat.two_pow_pos _), ← pow_add]
    exact lt_of_lt_of_le Nat.lt_log2_self (Nat.pow_le_pow_right two_pos (by omega))
  · by_cases h : Nat.log2 x - 23 = 0
    · exact .inl h
    · refine .inr ((Nat.le_div_iff_mul_le (Nat.two_pow_pos _)).mpr ?_)
      rw [← pow_add, Nat.add_sub_cancel' (by omega)]
      exact Nat.log2_self_le (by rintro rfl; exact h rfl)

theorem F32.roundMag_le (num den : Nat) : F32.roundMag num den ≤ F32.infMag := Nat.min_le_right _ _

/-- A rounded magnitude that does not overflow is the nearest to the exact quotient. -/
theorem F32.roundMag_nearest (num den : Nat) (hden : 0 < den) (hfin : F32.roundMag num den < F32.infMag) :
    F32.NearestMag num den (F32.roundMag num den) := by
  have hbounds := F32.significand_bounds (num / den)
  rw [Nat.div_div_eq_div_mul] at hbounds
  unfold F32.roundMag at hfin ⊢
  extract_lets shift step q r up at hfin
  obtain ⟨hq, hn⟩ : q < 2 ^ 24 ∧ (shift = 0 ∨ 2 ^ 23 ≤ q) := hbounds
  change F32.NearestMag num den (min (shift * 2 ^ 23 + q + up) F32.infMag)
  rw [Nat.min_eq_left (by omega)]
  have hm : F32.unitsOfMag (shift * 2 ^ 23 + q) = q * 2 ^ shift := F32.unitsOfMag_shift shift q hq hn
  have hs : F32.unitsOfMag (shift * 2 ^ 23 + q + 1) = q * 2 ^ shift + 2 ^ shift := by
    have hexp : (shift * 2 ^ 23 + q) / 2 ^ 23 - 1 = shift := by omega
    rw [F32.unitsOfMag_succ, hexp, hm]
  have hnear := F32.nearestMag_of_between num den (shift * 2 ^ 23 + q) r step hden
    (Nat.mod_lt _ (Nat.mul_pos hden (Nat.two_pow_pos _)))
    (by rw [hm, Nat.mul_assoc, Nat.mul_comm _ den]; exact Nat.div_add_mod' num step)
    (by rw [hs, hm, Nat.add_mul, Nat.mul_comm (2 ^ shift) den])
  have hparity : (shift * 2 ^ 23 + q) % 2 = q % 2 := by omega
  rwa [hparity] at hnear

/-! ## Fields of a packed and of a negated word -/

theorem F32.toNat_pack (neg : Bool) (m : Nat) (hm : m ≤ F32.infMag) :
    (F32.pack neg m).toNat = (if neg then 2 ^ 31 else 0) + m := by
  have hm31 : m < 2 ^ 31 := lt_of_le_of_lt hm (by decide)
  rw [F32.pack, BitVec.toNat_ofNat, Nat.mod_eq_of_lt]
  split <;> omega

theorem F32.mag_pack (neg : Bool) (m : Nat) (hm : m ≤ F32.infMag) : F32.mag (F32.pack neg m) = m := by
  have hm31 : m < 2 ^ 31 := lt_of_le_of_lt hm (by decide)
  rw [F32.mag, F32.toNat_pack neg m hm]
  split <;> omega

theorem F32.neg?_pack (neg : Bool) (m : Nat) (hm : m ≤ F32.infMag) : F32.neg? (F32.pack neg m) = neg := by
  have hm31 : m < 2 ^ 31 := lt_of_le_of_lt hm (by decide)
  rw [F32.neg?, BitVec.msb_eq_decide, F32.toNat_pack neg m hm]
  cases neg
  · exact decide_eq_false (by simp; omega)
  · exact decide_eq_true (by simp)

theorem F32.neg?_neg (w : F32) : F32.neg? (F32.neg w) = !F32.neg? w := by
  simp [F32.neg, F32.neg?, BitVec.msb_xor, show (0x80000000#32).msb = true from rfl]

theorem F32.mag_neg (w : F32) : F32.mag (F32.neg w) = F32.mag w := by
  rw [F32.mag, F32.neg, BitVec.toNat_xor, Nat.xor_mod_two_pow]
  simp [F32.mag]

/-! ## Signed magnitudes -/

/-- The integer with this sign and magnitude. -/
def signed (neg : Bool) (n : Nat) : Int := if neg then -(n : Int) else n

theorem F32.value_eq_signed (w : F32) : F32.value w = signed (F32.neg? w) (F32.units w) := rfl

theorem signed_not (s : Bool) (n : Nat) : signed (!s) n = -signed s n := by
  cases s <;> simp [signed]

theorem signed_mul (s t : Bool) (m n : Nat) : signed s m * signed t n = signed (s ^^ t) (m * n) := by
  cases s <;> cases t <;> simp [signed]

theorem signed_mul_natCast (s : Bool) (m n : Nat) : signed s m * n = signed s (m * n) := by
  cases s <;> simp [signed]

theorem signed_natAbs (v : Int) : signed (decide (v < 0)) v.natAbs = v := by
  simp only [signed, decide_eq_true_eq]
  split <;> omega

theorem natAbs_signed_sub_same (s : Bool) (m n : Nat) : (signed s m - signed s n).natAbs = Nat.dist m n := by
  cases s <;> simp [signed, Nat.dist] <;> omega

theorem natAbs_signed_sub_not (s : Bool) (m n : Nat) : (signed (!s) m - signed s n).natAbs = m + n := by
  cases s <;> simp [signed] <;> omega

theorem F32.value_neg (w : F32) : F32.value (F32.neg w) = -F32.value w := by
  rw [F32.value_eq_signed, F32.value_eq_signed, F32.neg?_neg, signed_not, F32.units, F32.units, F32.mag_neg]

theorem F32.value_pack (neg : Bool) (m : Nat) (hm : m ≤ F32.infMag) :
    F32.value (F32.pack neg m) = signed neg (F32.unitsOfMag m) := by
  rw [F32.value_eq_signed, F32.units, F32.mag_pack neg m hm, F32.neg?_pack neg m hm]

end Sys2Proof

namespace Sys2Proof.Machine

/-! ## Correctly rounded words -/

/-- A negative divisor passes its sign to the dividend. -/
theorem RoundedTo.of_signed {r c : F32} {s t : Bool} {n d : Nat} (h : RoundedTo r c (signed (s ^^ t) n) d) :
    RoundedTo r c (signed s n) (signed t d) := by
  cases t
  · rwa [Bool.xor_false] at h
  · have hflip (v : Int) : (v * signed true d - signed s n).natAbs = (v * d - signed (!s) n).natAbs := by
      rw [signed_not, ← Int.natAbs_neg]
      congr 1
      simp [signed]
      ring
    rw [Bool.xor_true] at h
    unfold RoundedTo
    rwa [hflip, hflip]

/-- A finite packed magnitude is correctly rounded: a value of its sign is another magnitude, and one of the other sign
lies no nearer than zero does. -/
theorem roundedTo_pack (neg : Bool) (num den : Nat) (c : F32) (hden : 0 < den)
    (hfin : F32.isFinite (F32.pack neg (F32.roundMag num den)) = true) :
    RoundedTo (F32.pack neg (F32.roundMag num den)) c (signed neg num) den := by
  have hle := F32.roundMag_le num den
  rw [F32.isFinite, F32.mag_pack neg _ hle, decide_eq_true_eq] at hfin
  have hnear := F32.roundMag_nearest num den hden hfin
  unfold RoundedTo
  rw [F32.value_pack neg _ hle, F32.mag_pack neg _ hle, signed_mul_natCast, natAbs_signed_sub_same]
  generalize F32.roundMag num den = m at hnear
  rw [F32.value_eq_signed c, signed_mul_natCast]
  by_cases hsign : F32.neg? c = neg
  · obtain ⟨hclose, hties⟩ := hnear (F32.mag c)
    rw [hsign, natAbs_signed_sub_same]
    exact ⟨hclose, fun heq hne => hties heq fun he => hne (congrArg (signed neg) he)⟩
  · obtain ⟨hclose, hties⟩ := hnear 0
    have hzero : Nat.dist (F32.unitsOfMag 0 * den) num = num := by simp [F32.unitsOfMag, Nat.dist]
    rw [hzero] at hclose hties
    rw [Bool.eq_not.mpr hsign, natAbs_signed_sub_not]
    refine ⟨by omega, fun heq hne => hties (by omega) fun he => hne ?_⟩
    have hc : F32.units c = 0 := by
      have : F32.units c * den = 0 := by omega
      exact (Nat.mul_eq_zero.mp this).resolve_right hden.ne'
    rw [hc, ← he]
    cases neg <;> rfl

/-! ## The operations -/

theorem not_isNaN_of_isFinite {w : F32} (h : F32.isFinite w = true) : F32.isNaN w = false := by
  simp only [F32.isFinite, F32.isNaN, decide_eq_true_eq, decide_eq_false_iff_not] at h ⊢
  omega

theorem not_isInf_of_isFinite {w : F32} (h : F32.isFinite w = true) : F32.isInf w = false := by
  simp only [F32.isFinite, F32.isInf, decide_eq_true_eq, beq_eq_false_iff_ne] at h ⊢
  omega

theorem isFinite_neg {w : F32} (h : F32.isFinite w = true) : F32.isFinite (F32.neg w) = true := by
  rwa [F32.isFinite, F32.mag_neg]

/-- The answer of an addition packs the sum's rounded magnitude, an exact zero's too. -/
theorem ofUnits_eq_pack (v : Int) (zeroNeg : Bool) :
    ∃ neg, F32.ofUnits v zeroNeg = F32.pack neg (F32.roundMag v.natAbs 1) ∧ v = signed neg v.natAbs := by
  unfold F32.ofUnits
  split
  next h => exact ⟨zeroNeg, by subst h; rfl, by subst h; cases zeroNeg <;> rfl⟩
  next => exact ⟨decide (v < 0), rfl, (signed_natAbs v).symm⟩

theorem roundedTo_ofUnits (v : Int) (zeroNeg : Bool) (c : F32) (hfin : F32.isFinite (F32.ofUnits v zeroNeg) = true) :
    RoundedTo (F32.ofUnits v zeroNeg) c v 1 := by
  obtain ⟨neg, hpack, hv⟩ := ofUnits_eq_pack v zeroNeg
  rw [hpack] at hfin ⊢
  have h := roundedTo_pack neg v.natAbs 1 c Nat.one_pos hfin
  rwa [← hv] at h

theorem addCore_of_isFinite (a b nan : F32) (ha : F32.isFinite a = true) (hb : F32.isFinite b = true) :
    F32.addCore a b nan = F32.ofUnits (F32.value a + F32.value b) (F32.neg? a && F32.neg? b) := by
  simp [F32.addCore, not_isInf_of_isFinite ha, not_isInf_of_isFinite hb]

theorem add_of_isFinite (a b : F32) (ha : F32.isFinite a = true) (hb : F32.isFinite b = true) :
    F32.add a b = F32.ofUnits (F32.value a + F32.value b) (F32.neg? a && F32.neg? b) := by
  simp [F32.add, not_isNaN_of_isFinite ha, not_isNaN_of_isFinite hb, addCore_of_isFinite a b _ ha hb]

theorem sub_of_isFinite (a b : F32) (ha : F32.isFinite a = true) (hb : F32.isFinite b = true) :
    F32.sub a b = F32.ofUnits (F32.value a - F32.value b) (F32.neg? a && !F32.neg? b) := by
  simp [F32.sub, not_isNaN_of_isFinite ha, not_isNaN_of_isFinite hb, addCore_of_isFinite a _ _ ha (isFinite_neg hb),
    F32.value_neg, F32.neg?_neg, sub_eq_add_neg]

theorem mul_of_isFinite (a b : F32) (ha : F32.isFinite a = true) (hb : F32.isFinite b = true) :
    F32.mul a b = F32.pack (F32.neg? a ^^ F32.neg? b) (F32.roundMag (F32.units a * F32.units b) F32.unit) := by
  simp [F32.mul, not_isNaN_of_isFinite ha, not_isNaN_of_isFinite hb, not_isInf_of_isFinite ha,
    not_isInf_of_isFinite hb]

theorem div_of_isFinite (a b : F32) (ha : F32.isFinite a = true) (hb : F32.isFinite b = true) (h0 : F32.mag b ≠ 0) :
    F32.div a b = F32.pack (F32.neg? a ^^ F32.neg? b) (F32.roundMag (F32.units a * F32.unit) (F32.units b)) := by
  simp [F32.div, not_isNaN_of_isFinite ha, not_isNaN_of_isFinite hb, not_isInf_of_isFinite ha,
    not_isInf_of_isFinite hb, h0]

theorem units_pos_iff (w : F32) : 0 < F32.units w ↔ F32.mag w ≠ 0 := by
  rw [← Nat.pos_iff_ne_zero]
  exact F32.unitsOfMag_strictMono.lt_iff_lt (a := 0)

theorem mag_ne_zero_of_value_ne_zero {w : F32} (h : F32.value w ≠ 0) : F32.mag w ≠ 0 := by
  intro hm
  apply h
  simp [F32.value, F32.units, hm, F32.unitsOfMag]

/-- Settles O28: on finite values each operation packs a magnitude `F32.roundMag` rounds, with the exact result's sign. -/
theorem operationsRoundToNearest : Obligations.OperationsRoundToNearest := by
  intro a b c ha hb _
  refine ⟨fun h => ?_, fun h => ?_, fun h => ?_, fun hb0 h => ?_⟩
  · rw [add_of_isFinite a b ha hb] at h ⊢
    exact roundedTo_ofUnits _ _ c h
  · rw [sub_of_isFinite a b ha hb] at h ⊢
    exact roundedTo_ofUnits _ _ c h
  · rw [mul_of_isFinite a b ha hb] at h ⊢
    rw [F32.value_eq_signed a, F32.value_eq_signed b, signed_mul]
    exact roundedTo_pack _ _ _ c (Nat.two_pow_pos 149) h
  · have hmag := mag_ne_zero_of_value_ne_zero hb0
    rw [div_of_isFinite a b ha hb hmag] at h ⊢
    rw [F32.value_eq_signed a, F32.value_eq_signed b, signed_mul_natCast]
    exact .of_signed (roundedTo_pack _ _ _ c ((units_pos_iff b).mpr hmag) h)

end Sys2Proof.Machine
end

section
/-!
What an operation can do, said once (rules R22 to R30, R155 to R159): the register writes of the operations as an
inductive relation, which of them each operation performs, and that every command is a path of its own writes, followed
by its answer or its fault. A predicate that the writes and the answers keep is then kept by every operation and step.
-/

namespace Sys2Proof.Machine

/-! ## The writes -/

/-- The kinds of writes: a unit is constructed or its datapath runs, a kernel is loaded or split, the chain is
constructed, set Running or set idle. -/
inductive Action where
  | lfoNew | lfoRun | hbNew | hbRun | load | split | cmpNew | cmpRun
  | aafNew (k : Nat) | aafRun (k : Nat)
  | fxNew | start | stop

/-- The units FX.NEW constructs are constructed (rule R155). -/
def State.UnitsConstructed (s : State) : Prop :=
  s.lfo.c = true ∧ s.hb.c = true ∧ s.cmp.c = true ∧
  s.aaf.f0.c = true ∧ s.aaf.f1.c = true ∧ s.aaf.f2.c = true ∧ 3 ≤ s.cfg.nAaf.val

/-- What an operation writes where it completes, under the checks it has made. -/
inductive Writes (s : State) : Action → State → Prop
  | lfoNew (point scale alpha : F32) :
      Writes s .lfoNew { s with lfo := ⟨true, point, scale, alpha, F32.zero, none⟩ }
  | lfoStep (incr output : F32) (hincr : isNonNegative incr = true) :
      Writes s .lfoRun { s with lfo := { s.lfo with phase := lfoAdvance s.lfo.phase incr, output := some output } }
  | lfoReset : Writes s .lfoRun { s with lfo := { s.lfo with phase := F32.zero, output := none } }
  | hbNew (lb mb : Nat) (hlb : isCount lb = true) (hmb : isBlockLength mb = true)
      (hfit : lb + mb ≤ s.cfg.hbufWords) :
      Writes s .hbNew { s with hb := ⟨true, false, lb, mb, 0⟩, hbuf := s.hbuf.zeroFill (lb + mb) }
  | hbProcess (xs : List F32) (hc : s.hb.c = true) (hlen : xs.length ≤ s.hb.maxBlock)
      (hfit : s.hb.lookBehind + xs.length ≤ s.cfg.hbufWords) :
      Writes s .hbRun { s with
        hbuf := s.hbuf.writeList s.hb.lookBehind xs, hb := { s.hb with len := xs.length, view := true } }
  | hbRelease (hfit : s.hb.lookBehind + s.hb.len ≤ s.cfg.hbufWords) :
      Writes s .hbRun { s with hbuf := s.hbuf.copyDown s.hb.len s.hb.lookBehind, hb := { s.hb with view := false } }
  | hbReset : Writes s .hbRun { s with hbuf := s.hbuf.zeroFill (s.hb.lookBehind + s.hb.maxBlock) }
  | load (taps : List F32)
      (hlen : isCount taps.length = true ∧ 1 ≤ taps.length ∧ taps.length ≤ s.cfg.kramWords) :
      Writes s .load { s with
        kram := s.kram.writeList 0 taps, pk := { s.pk with kLen := taps.length, kv := true, sv := false } }
  | split (n : Nat) (hkv : s.pk.kv = true) (hn : 1 ≤ n) (hdvd : s.pk.kLen % n = 0)
      (hfit : s.pk.kLen ≤ s.cfg.kramWords) :
      Writes s .split { s with
        pram := s.pram.writeList 0 (splitTaps (s.kram.readList 0 s.pk.kLen) n (s.pk.kLen / n))
        pk := { s.pk with nPhases := n, m := s.pk.kLen / n, sv := true } }
  | cmpNew (attack release : F32) : Writes s .cmpNew { s with cmp := ⟨true, attack, release, F32.one⟩ }
  | cmpRun (env : F32) : Writes s .cmpRun { s with cmp := { s.cmp with env := env } }
  | aafNew (k : Nat) (g : Option F32) (hk : k < 4) :
      Writes s (.aafNew k) { s with aaf := s.aaf.set k ⟨true, g, zeroStage, zeroStage⟩ }
  | aafRun (k : Nat) (stage0 stage1 : Stage) (hk : k < 4) :
      Writes s (.aafRun k) { s with aaf := s.aaf.set k { s.aaf.get k with stage0 := stage0, stage1 := stage1 } }
  | fxNew (fs : F32) (hunits : s.UnitsConstructed) : Writes s .fxNew { s with fx := ⟨true, false, fs⟩ }
  | start (hc : s.fx.c = true) : Writes s .start { s with fx := { s.fx with run := true } }
  | stop : Writes s .stop { s with fx := { s.fx with run := false } }

/-- A path of writes, each of one of the kinds `as`. -/
def Reaches (as : List Action) : State → State → Prop := Relation.ReflTransGen fun s t => ∃ a ∈ as, Writes s a t

theorem Writes.reaches {as : List Action} {a : Action} {s t : State} (h : Writes s a t) (ha : a ∈ as) :
    Reaches as s t :=
  .single ⟨a, ha, h⟩

/-- What holds at the start of a path and is kept by its writes holds at its end. -/
theorem Reaches.keeps {as : List Action} {p : State → Prop} {s t : State} (h : Reaches as s t)
    (hp : ∀ a ∈ as, ∀ u v, Writes u a v → p u → p v) (hs : p s) : p t := by
  induction h with
  | refl => exact hs
  | tail _ hw ih =>
    obtain ⟨a, ha, hw⟩ := hw
    exact hp a ha _ _ hw ih

theorem Reaches.mono {as bs : List Action} {s t : State} (h : Reaches as s t) (hsub : as ⊆ bs) : Reaches bs s t :=
  h.keeps (p := Reaches bs s) (fun a ha _ _ hw hu => hu.tail ⟨a, hsub ha, hw⟩) .refl

/-! ## Operations as paths of writes -/

/-- From `s` the operation completes after a path of writes; where it faults, it leaves such a path's end, or, if it
`draws`, free values on top of it (rule R172 item 3). -/
def Res.Performs {α : Type} (r : Res α) (draws : Bool) (as : List Action) (s : State) : Prop :=
  (∀ a t, r = .ok a t → Reaches as s t) ∧
  ∀ c t, r = .trap c t → Reaches as s t ∨ draws = true ∧ ∃ u, Reaches as s u ∧ t = u.unspecified

section
variable {α β : Type} {draws : Bool} {as : List Action} {s : State}

theorem Res.Performs.ok {t : State} {a : α} (h : Reaches as s t) : (Res.ok a t).Performs draws as s :=
  ⟨fun _ _ hr => (Res.ok.inj hr).2 ▸ h, fun _ _ hr => by simp at hr⟩

theorem Res.Performs.trap {c : Cause} : (Res.trap c s : Res α).Performs draws as s :=
  ⟨fun _ _ hr => by simp at hr, fun _ _ hr => (Res.trap.inj hr).2 ▸ .inl .refl⟩

/-- An operation whose faults write nothing (rule R170). -/
theorem Res.Performs.of_precise {r : Res α} (hok : ∀ a t, r = .ok a t → Reaches as s t)
    (htrap : ∀ c t, r = .trap c t → t = s) : r.Performs draws as s :=
  ⟨hok, fun c t h => .inl (htrap c t h ▸ .refl)⟩

theorem Res.Performs.mono {bs : List Action} {r : Res α} (h : r.Performs draws as s) (hsub : as ⊆ bs) :
    r.Performs draws bs s := by
  obtain ⟨hok, htrap⟩ := h
  refine ⟨fun a t ht => (hok a t ht).mono hsub, fun c t ht => (htrap c t ht).imp (·.mono hsub) ?_⟩
  rintro ⟨hd, u, hu, rfl⟩
  exact ⟨hd, u, hu.mono hsub, rfl⟩

theorem Res.Performs.bind {r : Res α} {k : α → State → Res β} (hr : r.Performs draws as s)
    (hk : ∀ a t, r = .ok a t → (k a t).Performs draws as t) : (r.bind k).Performs draws as s := by
  obtain ⟨hok, htrap⟩ := hr
  constructor
  · intro b u h
    obtain ⟨a, t, hra, hka⟩ := (Res.bind_eq_ok r k b u).mp h
    exact (hok a t hra).trans ((hk a t hra).1 b u hka)
  · intro c u h
    rcases (Res.bind_eq_trap r k c u).mp h with hrc | ⟨a, t, hra, hka⟩
    · exact htrap c u hrc
    · have hst := hok a t hra
      rcases (hk a t hra).2 c u hka with htu | ⟨hd, v, htv, rfl⟩
      · exact .inl (hst.trans htu)
      · exact .inr ⟨hd, v, hst.trans htv, rfl⟩

/-- A check in front of an operation: its fault writes nothing (rule R170). -/
theorem Res.Performs.check {b : Prop} [Decidable b] {c : Cause} {r : Res α} (hr : ¬b → r.Performs draws as s) :
    (if b then .trap c s else r).Performs draws as s := by
  split
  next => exact .trap
  next h => exact hr h

theorem Res.Performs.chain {first : Res α} {whole : Res β} (h : whole.Performs false as s) :
    (chain first whole).Performs true as s := by
  obtain ⟨hok, htrap⟩ := h
  have hwhole (c t) (hc : whole = .trap c t) : Reaches as s t := (htrap c t hc).resolve_right (by simp)
  constructor
  · exact fun b t h => hok b t (chain_eq_ok first whole b t h)
  · intro c t h
    rcases chain_eq_trap first whole c t h with ⟨-, hc⟩ | ⟨u, hc, rfl⟩
    · exact .inl (hwhole c t hc)
    · exact .inr ⟨rfl, u, hwhole c u hc, rfl⟩

/-! ## The units' operations -/

theorem lfoNew_performs (lo hi : F32) (h : .lfoNew ∈ as := by simp) : (lfoNew lo hi s).Performs draws as s := by
  refine .of_precise (fun u t ht => ?_) (by simp +contextual [lfoNew_eq_trap])
  obtain ⟨-, rfl⟩ := (lfoNew_eq_ok lo hi s t u).mp ht
  exact (Writes.lfoNew ..).reaches h

theorem lfoStep_performs (incr depth : F32) (h : .lfoRun ∈ as := by simp) :
    (lfoStep incr depth s).Performs draws as s := by
  refine .of_precise (fun r t ht => ?_) (by simp +contextual [lfoStep_eq_trap])
  obtain ⟨-, hincr, -, -, rfl⟩ := (lfoStep_eq_ok incr depth s t r).mp ht
  exact (Writes.lfoStep _ _ hincr).reaches h

theorem lfoReset_performs (h : .lfoRun ∈ as := by simp) : (lfoReset s).Performs draws as s := by
  refine .of_precise (fun u t ht => ?_) (by simp +contextual [lfoReset_eq_trap])
  obtain ⟨-, rfl⟩ := (lfoReset_eq_ok s t u).mp ht
  exact Writes.lfoReset.reaches h

theorem hbNew_performs (lb mb : Nat) (h : .hbNew ∈ as := by simp) : (hbNew lb mb s).Performs draws as s := by
  refine .of_precise (fun u t ht => ?_) (by simp +contextual [hbNew_eq_trap])
  obtain ⟨hlb, hmb, hfit, rfl⟩ := (hbNew_eq_ok lb mb s t u).mp ht
  exact (Writes.hbNew lb mb hlb hmb hfit).reaches h

theorem hbProcess_performs (xs : List F32) (h : .hbRun ∈ as := by simp) : (hbProcess xs s).Performs draws as s := by
  refine .of_precise (fun u t ht => ?_) (by simp +contextual [hbProcess_eq_trap])
  obtain ⟨hc, hlen, -, hfit, rfl⟩ := (hbProcess_eq_ok xs s t u).mp ht
  exact (Writes.hbProcess xs hc hlen hfit).reaches h

theorem hbView_performs : (hbView s).Performs draws as s := by
  refine .of_precise (fun ws t ht => ?_) (by simp +contextual [hbView_eq_trap])
  obtain ⟨-, -, -, -, rfl⟩ := (hbView_eq_ok s t ws).mp ht
  exact .refl

theorem hbRead_performs (a n : Nat) : (hbRead a n s).Performs draws as s := by
  refine .of_precise (fun ws t ht => ?_) (by simp +contextual [hbRead_eq_trap])
  obtain ⟨-, -, -, -, -, rfl⟩ := (hbRead_eq_ok a n s t ws).mp ht
  exact .refl

theorem hbRelease_performs (h : .hbRun ∈ as := by simp) : (hbRelease s).Performs draws as s := by
  refine .of_precise (fun u t ht => ?_) (by simp +contextual [hbRelease_eq_trap])
  obtain ⟨-, -, hfit, rfl⟩ := (hbRelease_eq_ok s t u).mp ht
  exact (Writes.hbRelease hfit).reaches h

theorem hbReset_performs (h : .hbRun ∈ as := by simp) : (hbReset s).Performs draws as s := by
  refine .of_precise (fun u t ht => ?_) (by simp +contextual [hbReset_eq_trap])
  obtain ⟨-, -, -, rfl⟩ := (hbReset_eq_ok s t u).mp ht
  exact Writes.hbReset.reaches h

theorem pkLpf_performs (n : Nat) (increment : F32) (h : .load ∈ as := by simp) :
    (pkLpf n increment s).Performs draws as s := by
  refine .of_precise (fun u t ht => ?_) (by simp +contextual [pkLpf_eq_trap])
  obtain ⟨hlen, -, rfl⟩ := (pkLpf_eq_ok n increment s t u).mp ht
  have hw : Writes s .load _ := .load (lpfTaps s.cfg.lpf n increment) (by simpa using hlen)
  rw [length_lpfTaps] at hw
  exact hw.reaches h

theorem pkLoadk_performs (taps : List F32) (h : .load ∈ as := by simp) : (pkLoadk taps s).Performs draws as s := by
  refine .of_precise (fun u t ht => ?_) (by simp +contextual [pkLoadk_eq_trap])
  obtain ⟨hlen, rfl⟩ := (pkLoadk_eq_ok taps s t u).mp ht
  exact (Writes.load taps hlen).reaches h

theorem pkSplit_performs (n : Nat) (h : .split ∈ as := by simp) : (pkSplit n s).Performs draws as s := by
  refine .of_precise (fun u t ht => ?_) (by simp +contextual [pkSplit_eq_trap])
  obtain ⟨hkv, hn, hdvd, hfit, rfl⟩ := (pkSplit_eq_ok n s t u).mp ht
  exact (Writes.split n hkv hn hdvd hfit).reaches h

theorem dlRead_performs (i : Nat) (delay : F32) : (dlRead i delay s).Performs draws as s := by
  refine .of_precise (fun y t ht => ?_) fun c t ht => (dlRead_eq_trap i delay s t c ht).1
  obtain ⟨-, -, -, -, -, -, -, -, rfl⟩ := dlRead_eq_ok i delay s t y ht
  exact .refl

theorem cmpNew_performs (fs : F32) (h : .cmpNew ∈ as := by simp) : (cmpNew fs s).Performs draws as s := by
  refine .of_precise (fun u t ht => ?_) (by simp +contextual [cmpNew_eq_trap])
  obtain ⟨-, rfl⟩ := (cmpNew_eq_ok fs s t u).mp ht
  exact (Writes.cmpNew ..).reaches h

theorem cmpDetect_performs (x : F32) (h : .cmpRun ∈ as := by simp) : (cmpDetect x s).Performs draws as s := by
  refine .of_precise (fun y t ht => ?_) (by simp +contextual [cmpDetect_eq_trap])
  obtain ⟨-, -, rfl⟩ := (cmpDetect_eq_ok x s t y).mp ht
  exact (Writes.cmpRun ..).reaches h

theorem cmpReset_performs (h : .cmpRun ∈ as := by simp) : (cmpReset s).Performs draws as s := by
  refine .of_precise (fun u t ht => ?_) (by simp +contextual [cmpReset_eq_trap])
  obtain ⟨-, rfl⟩ := (cmpReset_eq_ok s t u).mp ht
  exact (Writes.cmpRun ..).reaches h

theorem cmpCompress_performs (signal level : F32) : (cmpCompress signal level s).Performs draws as s := .ok .refl

theorem cmpExpand_performs (signal level : F32) : (cmpExpand signal level s).Performs draws as s := .ok .refl

theorem nlShape_performs (x : F32) : (nlShape x s).Performs draws as s := .ok .refl

/-- The machine has at most four filters (rule R23). -/
theorem filter_lt_four {cfg : Params} {k : Nat} (h : k < cfg.nAaf.val) : k < 4 := by omega

theorem aafNew_performs (k : Nat) (fs : F32) (h : .aafNew k ∈ as := by simp) : (aafNew k fs s).Performs draws as s := by
  refine .of_precise (fun u t ht => ?_) (by simp +contextual [aafNew_eq_trap])
  obtain ⟨hk, -, rfl⟩ := (aafNew_eq_ok k fs s t u).mp ht
  exact (Writes.aafNew k _ (filter_lt_four hk)).reaches h

theorem aafStep_performs (k : Nat) (x : F32) (h : .aafRun k ∈ as := by simp) :
    (aafStep k x s).Performs draws as s := by
  refine .of_precise (fun y t ht => ?_) (by simp +contextual [aafStep_eq_trap])
  obtain ⟨hk, -, -, rfl⟩ := (aafStep_eq_ok k x s t y).mp ht
  exact (Writes.aafRun k _ _ (filter_lt_four hk)).reaches h

theorem aafReset_performs (k : Nat) (h : .aafRun k ∈ as := by simp) : (aafReset k s).Performs draws as s := by
  refine .of_precise (fun u t ht => ?_) (by simp +contextual [aafReset_eq_trap])
  obtain ⟨hk, -, rfl⟩ := (aafReset_eq_ok k s t u).mp ht
  exact (Writes.aafRun k _ _ (filter_lt_four hk)).reaches h

end

/-! ## The chain controller -/

/-- The writes of FX.NEW (rule R155). -/
@[simp] def fxBuilds : List Action :=
  [.load, .split, .hbNew, .lfoNew, .cmpNew, .aafNew 0, .aafNew 1, .aafNew 2, .fxNew]

/-- The writes of the chain's resets and of FX.PROCESS (rules R156, R158, R159). -/
@[simp] def fxRuns : List Action := [.lfoRun, .hbRun, .cmpRun, .aafRun 0, .aafRun 1, .aafRun 2]

theorem fxHbNew_performs (fs : F32) (mb : Nat) (s : State) : (fxHbNew fs mb s).Performs false fxBuilds s := by
  rcases fxHbNew_cases fs mb s with ⟨lb, h⟩ | h
  · rw [h]; exact hbNew_performs lb mb
  · rw [h]; exact .trap

theorem fxHbNew_eq_ok {fs : F32} {mb : Nat} {s t : State} {u : Unit} (h : fxHbNew fs mb s = .ok u t) :
    t.hb.c = true := by
  rcases fxHbNew_cases fs mb s with ⟨lb, hlb⟩ | htrap
  · obtain ⟨-, -, -, rfl⟩ := (hbNew_eq_ok lb mb s t u).mp (hlb ▸ h)
    rfl
  · simp [htrap] at h

theorem fxConstruct_performs (fs : F32) (mb : Nat) (s : State) : (fxConstruct fs mb s).Performs false fxBuilds s := by
  refine .bind (pkLpf_performs _ _) fun _ s _ => ?_
  refine .bind (pkSplit_performs _) fun _ s _ => ?_
  refine .bind (fxHbNew_performs fs mb s) fun _ s hhb => ?_
  refine .bind (lfoNew_performs _ _) fun _ s₁ hlfo => ?_
  refine .bind (cmpNew_performs fs) fun _ s₂ hcmp => ?_
  refine .bind (aafNew_performs 0 fs) fun _ s₃ haaf0 => ?_
  refine .bind (aafNew_performs 1 fs) fun _ s₄ haaf1 => ?_
  refine .bind (aafNew_performs 2 fs) fun _ s₅ haaf2 => ?_
  have hc := fxHbNew_eq_ok hhb
  obtain ⟨-, hs₁⟩ := (lfoNew_eq_ok _ _ s s₁ _).mp hlfo
  obtain ⟨-, hs₂⟩ := (cmpNew_eq_ok fs s₁ s₂ _).mp hcmp
  obtain ⟨-, -, hs₃⟩ := (aafNew_eq_ok 0 fs s₂ s₃ _).mp haaf0
  obtain ⟨-, -, hs₄⟩ := (aafNew_eq_ok 1 fs s₃ s₄ _).mp haaf1
  obtain ⟨hk, -, hs₅⟩ := (aafNew_eq_ok 2 fs s₄ s₅ _).mp haaf2
  have hunits : s₅.UnitsConstructed := by
    have h3 : 3 ≤ s₅.cfg.nAaf.val := by rw [hs₅]; exact hk
    refine ⟨?_, ?_, ?_, ?_, ?_, ?_, h3⟩ <;> simp [hs₅, hs₄, hs₃, hs₂, hs₁, hc]
  exact .ok ((Writes.fxNew fs hunits).reaches (by simp))

theorem fxNew_performs (fs : F32) (mb : Nat) (s : State) : (fxNew fs mb s).Performs true fxBuilds s :=
  .check fun _ => .chain (fxConstruct_performs fs mb s)

theorem resetStages_performs (s : State) : (resetStages s).Performs false fxRuns s :=
  .bind lfoReset_performs fun _ _ _ => .bind hbReset_performs fun _ _ _ => .bind cmpReset_performs fun _ _ _ =>
    .bind (aafReset_performs 0) fun _ _ _ => .bind (aafReset_performs 1) fun _ _ _ => aafReset_performs 2

theorem fxReset_performs (s : State) : (fxReset s).Performs true fxRuns s :=
  .check fun _ => .check fun _ => .chain (resetStages_performs s)

theorem fxParams_performs (params : List ParamSample) (s : State) : (fxParams params s).Performs false [] s :=
  .check fun _ => .check fun _ => .ok .refl

theorem frontSample_performs (p : FxSample) (s : State) : (frontSample p s).Performs false fxRuns s :=
  .bind (aafStep_performs 0 p.x) fun a _ _ => .bind (cmpDetect_performs a) fun level _ _ =>
    .bind (cmpCompress_performs a level) fun _ _ _ => .bind (lfoStep_performs _ _) fun _ _ _ => .ok .refl

theorem frontBlock_performs (block : List FxSample) (s : State) : (frontBlock block s).Performs false fxRuns s := by
  induction block generalizing s with
  | nil => exact .ok .refl
  | cons p ps ih => exact .bind (frontSample_performs p s) fun _ t _ => .bind (ih t) fun _ _ _ => .ok .refl

theorem backTap_performs (t tap : Nat) (delay : F32) (f : FrontSample) (s : State) (h : .aafRun (1 + tap) ∈ fxRuns) :
    (backTap t tap delay f s).Performs false fxRuns s :=
  .bind (dlRead_performs t delay) fun r _ _ => .bind (nlShape_performs r) fun shaped _ _ =>
    .bind (cmpExpand_performs shaped f.level) fun e _ _ => .bind (aafStep_performs (1 + tap) e h) fun _ _ _ => .ok .refl

theorem backBlock_performs (t : Nat) (front : List FrontSample) (s : State) :
    (backBlock t front s).Performs false fxRuns s := by
  induction front generalizing t s with
  | nil => exact .ok .refl
  | cons f fs ih =>
    exact .bind (backTap_performs t 0 f.forward f s (by simp)) fun _ u _ =>
      .bind (backTap_performs t 1 f.reverse f u (by simp)) fun _ v _ => .bind (ih (t + 1) v) fun _ _ _ => .ok .refl

theorem processBlock_performs (block : List FxSample) (s : State) : (processBlock block s).Performs false fxRuns s :=
  .bind (frontBlock_performs block s) fun front _ _ => .bind (hbProcess_performs _) fun _ t _ =>
    .bind (backBlock_performs 0 front t) fun _ _ _ => .bind hbRelease_performs fun _ _ _ => .ok .refl

theorem fxProcess_performs (block : List FxSample) (s : State) : (fxProcess block s).Performs true fxRuns s :=
  .check fun _ => .check fun _ => .check fun _ => .check fun _ => .check fun _ => .chain (processBlock_performs block s)

/-- The units' operations leave the controller's registers alone. -/
theorem fxRuns_fx_eq {s t : State} (h : Reaches fxRuns s t) : t.fx = s.fx := by
  refine h.keeps (p := (·.fx = s.fx)) (fun a ha u v hw hu => ?_) rfl
  cases hw <;> simp_all

theorem fxSetproc_performs (on : Word) (s : State) :
    (fxSetproc on s).Performs true (if on = 1#32 then .start :: fxRuns else if on = 0#32 then [.stop] else []) s := by
  refine .check fun hc => .check fun hbool => ?_
  by_cases hon : on = 1#32
  · rw [if_pos hon, if_pos hon]
    refine .check fun _ => .bind ?_ fun _ t ht => ?_
    · exact (Res.Performs.chain (resetStages_performs s)).mono (by simp)
    · have hfx : t.fx = s.fx := fxRuns_fx_eq ((resetStages_performs s).1 _ t (chain_eq_ok _ _ _ t ht))
      exact .ok ((Writes.start (by simpa [hfx] using hc)).reaches (by simp))
  · have h0 : on = 0#32 := by simpa [isBoolWord, hon] using hbool
    rw [if_neg hon, if_neg hon, if_pos h0]
    exact .ok (Writes.stop.reaches (by simp))

/-! ## Commands -/

/-- The writes each operation performs (rules R24, R25 to R30, R156 to R159). -/
@[simp] def actionsOf : Instr → List Action
  | .lfoNew .. => [.lfoNew]
  | .lfoStep .. | .lfoReset => [.lfoRun]
  | .hbNew .. => [.hbNew]
  | .hbProcess .. | .hbRelease | .hbReset => [.hbRun]
  | .pkLpf .. | .pkLoadk .. => [.load]
  | .pkSplit .. => [.split]
  | .cmpNew .. => [.cmpNew]
  | .cmpDetect .. | .cmpReset => [.cmpRun]
  | .aafNew k _ => [.aafNew k.toNat]
  | .aafStep k _ | .aafReset k => [.aafRun k.toNat]
  | .hbView | .hbRead .. | .dlRead .. | .cmpCompress .. | .cmpExpand .. | .nlShape .. | .fxParams .. => []
  | .fxNew .. => fxBuilds
  | .fxSetproc on => if on = 1#32 then .start :: fxRuns else if on = 0#32 then [.stop] else []
  | .fxProcess .. | .fxReset => fxRuns

/-- The operations that run constituents, so that a fault part-way leaves free values (rule R172 item 3). -/
def isChainOp : Instr → Bool
  | .fxNew .. | .fxSetproc .. | .fxProcess .. | .fxReset => true
  | _ => false

/-- A command that goes on: a path of writes, then an answer or a fault. -/
def Answered (draws : Bool) (as : List Action) (s t : State) : Prop :=
  ∃ u, Reaches as s u ∧
    ((∃ ws, t = u.respond ws) ∨ s.fault = false ∧ ∃ c, t = u.raise c ∨ draws = true ∧ t = u.unspecified.raise c)

theorem Res.Performs.command {α : Type} {draws : Bool} {as : List Action} {words : α → List Word} {op : State → Res α}
    {s t : State} (hop : (op s).Performs draws as s) (h : command words op s = .next t) : Answered draws as s t := by
  obtain ⟨hok, htrap⟩ := hop
  rcases (command_eq_next words op s t).mp h with ⟨-, rfl⟩ | ⟨hf, ⟨a, u, hu, rfl⟩ | ⟨c, u, hu, rfl⟩⟩
  · exact ⟨s, .refl, .inl ⟨[], rfl⟩⟩
  · exact ⟨u, hok a u hu, .inl ⟨words a, rfl⟩⟩
  · rcases htrap c u hu with hr | ⟨hd, v, hv, rfl⟩
    · exact ⟨u, hr, .inr ⟨hf, c, .inl rfl⟩⟩
    · exact ⟨v, hv, .inr ⟨hf, c, .inr ⟨hd, rfl⟩⟩⟩

/-- Everything an operation can do when it answers a next state. -/
theorem exec_answered {s t : State} : ∀ i : Instr, exec i s = .next t → Answered (isChainOp i) (actionsOf i) s t
  | .lfoNew lo hi => (lfoNew_performs lo hi).command
  | .lfoStep incr depth => (lfoStep_performs incr depth).command
  | .lfoReset => (lfoReset_performs).command
  | .hbNew _ _ => (hbNew_performs _ _).command
  | .hbProcess samples => (hbProcess_performs samples).command
  | .hbView => (hbView_performs).command
  | .hbRead _ _ => (hbRead_performs _ _).command
  | .hbRelease => (hbRelease_performs).command
  | .hbReset => (hbReset_performs).command
  | .pkLpf _ increment => (pkLpf_performs _ increment).command
  | .pkLoadk taps => (pkLoadk_performs taps).command
  | .pkSplit _ => (pkSplit_performs _).command
  | .dlRead _ delay => (dlRead_performs _ delay).command
  | .cmpNew fs => (cmpNew_performs fs).command
  | .cmpDetect x => (cmpDetect_performs x).command
  | .cmpReset => (cmpReset_performs).command
  | .cmpCompress signal level => (cmpCompress_performs signal level).command
  | .cmpExpand signal level => (cmpExpand_performs signal level).command
  | .nlShape x => (nlShape_performs x).command
  | .aafNew k fs => (aafNew_performs k.toNat fs).command
  | .aafStep k x => (aafStep_performs k.toNat x).command
  | .aafReset k => (aafReset_performs k.toNat).command
  | .fxNew fs _ => (fxNew_performs fs _ s).command
  | .fxSetproc on => (fxSetproc_performs on s).command
  | .fxParams params => (fxParams_performs params s).command
  | .fxProcess block => (fxProcess_performs block s).command
  | .fxReset => (fxReset_performs s).command

/-! ## Invariants -/

/-- A predicate that the writes of the kinds in `A` keep, and every answer, fault, draw and taking of a packet. -/
structure Invariant (A : Action → Prop) (p : State → Prop) : Prop where
  writes : ∀ {a s t}, A a → Writes s a t → p s → p t
  unspecified : ∀ s, p s → p s.unspecified
  respond : ∀ s ws, p s → p (s.respond ws)
  raise : ∀ s c, p s → p (s.raise c)
  port : ∀ s ws, p s → p { s with port := ws }

/-- A predicate that does not see the port, the response, `FAULT` and `CAUSE`. -/
theorem Invariant.of_blind {A : Action → Prop} {p : State → Prop}
    (writes : ∀ {a s t}, A a → Writes s a t → p s → p t) (unspecified : ∀ s, p s → p s.unspecified)
    (blind : ∀ s port resp fault cause, p s → p { s with port, resp, fault, cause }) : Invariant A p where
  writes := writes
  unspecified := unspecified
  respond s ws := blind s s.port ws s.fault s.cause
  raise s c h := by
    unfold State.raise
    split
    · exact blind s s.port [] s.fault s.cause h
    · exact blind s s.port [] true (causeCode c) h
  port s ws := blind s ws s.resp s.fault s.cause

theorem Invariant.exec {A : Action → Prop} {p : State → Prop} (hp : Invariant A p) {i : Instr} {s t : State}
    (hi : ∀ a ∈ actionsOf i, A a) (h : Machine.exec i s = .next t) (hs : p s) : p t := by
  obtain ⟨u, hr, ht⟩ := exec_answered i h
  have hu : p u := hr.keeps (fun a ha _ _ => hp.writes (hi a ha)) hs
  rcases ht with ⟨ws, rfl⟩ | ⟨-, c, rfl | ⟨-, rfl⟩⟩
  · exact hp.respond u ws hu
  · exact hp.raise u c hu
  · exact hp.raise _ c (hp.unspecified u hu)

/-- Where an operation breaks such a predicate, it performs a write of another kind. -/
theorem Invariant.broken_by {A : Action → Prop} {p : State → Prop} (hp : Invariant A p) {i : Instr} {s t : State}
    (h : Machine.exec i s = .next t) (hs : p s) (ht : ¬p t) : ∃ a ∈ actionsOf i, ¬A a := by
  by_contra hn
  push Not at hn
  exact ht (hp.exec hn h hs)

/-- A predicate that every operation keeps is kept by every step. -/
theorem Invariant.step {p : State → Prop} (hp : Invariant (fun _ => True) p) {s t : State}
    (h : Machine.step s = .next t) (hs : p s) : p t := by
  rcases step_eq_next h with ⟨i, rest, -, hi⟩ | hi | rfl
  · exact hp.exec (fun _ _ => trivial) hi (hp.port s rest hs)
  · have hport := hp.port s (s.port.drop 1) hs
    rcases (command_eq_next _ _ _ t).mp hi with ⟨-, rfl⟩ | ⟨-, ⟨_, u, hu, -⟩ | ⟨c, u, hu, rfl⟩⟩
    · exact hp.respond _ [] hport
    · simp at hu
    · cases hu
      exact hp.raise _ _ hport
  · exact hs

end Sys2Proof.Machine
end

section
/-!
The invariant of the state: every write keeps it, and so does every answer, fault and draw of free values.
-/

namespace Sys2Proof.Machine

theorem isCount_iff (n : Nat) : isCount n = true ↔ n < 2 ^ 32 := decide_eq_true_iff

theorem isBlockLength_iff (n : Nat) : isBlockLength n = true ↔ 1 ≤ n ∧ n ≤ 65535 := by simp [isBlockLength]

theorem AafBank.get_set (b : AafBank) (j k : Nat) (f : Aaf) (hj : j < 4) (hk : k < 4) :
    (b.set k f).get j = if j = k then f else b.get j := by
  split
  next h => rw [h, AafBank.get_set_same]
  next h => exact AafBank.get_set_other b j k f hj hk h

/-- The units stay constructed where a filter is replaced by one that is constructed if it was. -/
theorem State.UnitsConstructed.set_aaf {s : State} {k : Nat} {f : Aaf} (h : s.UnitsConstructed) (hk : k < 4)
    (hf : (s.aaf.get k).c = true → f.c = true) : State.UnitsConstructed { s with aaf := s.aaf.set k f } := by
  obtain ⟨hlfo, hhb, hcmp, h0, h1, h2, hn⟩ := h
  refine ⟨hlfo, hhb, hcmp, ?_, ?_, ?_, hn⟩ <;> interval_cases k <;> simp_all

theorem Writes.keeps_inv {a : Action} {s t : State} (h : Writes s a t) (hs : s.Inv) : t.Inv := by
  obtain ⟨hlb, hmb, hlen, hkl, hnp, hm⟩ := hs.counts
  cases h with
  | lfoNew point scale alpha => exact { hs with chainConstructed := fun hc => ⟨rfl, (hs.chainConstructed hc).2⟩ }
  | lfoStep incr output hincr => exact { hs with }
  | lfoReset => exact { hs with }
  | hbNew lb mb hlb' hmb' hfit =>
    rw [isCount_iff] at hlb'
    rw [isBlockLength_iff] at hmb'
    exact { hs with
      hbufCanonical := Mem.wf_zeroFill _ _ hs.hbufCanonical
      hbufWithin := Mem.within_zeroFill _ _ _ hs.hbufWithin
      counts := ⟨hlb', lt_of_le_of_lt hmb'.2 (by decide), Nat.two_pow_pos 32, hkl, hnp, hm⟩
      sized := fun _ => ⟨hmb'.1, hmb'.2, hfit⟩
      blockFits := fun _ => Nat.zero_le _
      viewConstructed := fun hv => by simp at hv
      chainConstructed := fun hc => by
        obtain ⟨hlfo, -, hrest⟩ := hs.chainConstructed hc
        exact ⟨hlfo, rfl, hrest⟩ }
  | hbProcess xs hc hlen' hfit =>
    exact { hs with
      hbufCanonical := Mem.wf_writeList _ _ _ hs.hbufCanonical
      hbufWithin := Mem.within_writeList _ _ _ _ hs.hbufWithin hfit
      counts := ⟨hlb, hmb, lt_of_le_of_lt hlen' hmb, hkl, hnp, hm⟩
      blockFits := fun _ => hlen'
      viewConstructed := fun _ => hc }
  | hbRelease hfit =>
    exact { hs with
      hbufCanonical := Mem.wf_copyDown _ _ _ hs.hbufCanonical
      hbufWithin := Mem.within_copyDown _ _ _ _ hs.hbufWithin (Nat.le_trans (Nat.le_add_right _ _) hfit)
      viewConstructed := fun hv => by simp at hv }
  | hbReset =>
    exact { hs with
      hbufCanonical := Mem.wf_zeroFill _ _ hs.hbufCanonical
      hbufWithin := Mem.within_zeroFill _ _ _ hs.hbufWithin }
  | load taps hlen' =>
    obtain ⟨hcount, hpos, hfit⟩ := hlen'
    exact { hs with
      kramCanonical := Mem.wf_writeList _ _ _ hs.kramCanonical
      kramWithin := Mem.within_writeList _ _ _ _ hs.kramWithin (by rwa [Nat.zero_add])
      counts := ⟨hlb, hmb, hlen, (isCount_iff _).mp hcount, hnp, hm⟩
      kernelSized := fun _ => ⟨hpos, hfit⟩
      splitSized := fun hsv => by simp at hsv }
  | split n hkv hn hdvd hfit =>
    have hle : n ≤ s.pk.kLen := Nat.le_of_dvd (hs.kernelSized hkv).1 (Nat.dvd_of_mod_eq_zero hdvd)
    have hmul : n * (s.pk.kLen / n) = s.pk.kLen := Nat.mul_div_cancel' (Nat.dvd_of_mod_eq_zero hdvd)
    obtain ⟨hcn, hcm⟩ := isCount_split n s.pk.kLen (hs.kernelSized hkv).1 ((isCount_iff _).mpr hkl) hdvd
    exact { hs with
      pramCanonical := Mem.wf_writeList _ _ _ hs.pramCanonical
      pramWithin := Mem.within_writeList _ _ _ _ hs.pramWithin (by simpa [hmul] using hfit)
      counts := ⟨hlb, hmb, hlen, hkl, (isCount_iff _).mp hcn, (isCount_iff _).mp hcm⟩
      splitSized := fun _ => ⟨hkv, hn, Nat.div_pos hle hn, hmul⟩ }
  | cmpNew attack release =>
    exact { hs with
      chainConstructed := fun hc => by
        obtain ⟨hlfo, hhb, -, hrest⟩ := hs.chainConstructed hc
        exact ⟨hlfo, hhb, rfl, hrest⟩ }
  | cmpRun env => exact { hs with }
  | aafNew k g hk =>
    exact { hs with
      chainConstructed := fun hc => State.UnitsConstructed.set_aaf (hs.chainConstructed hc) hk fun _ => rfl }
  | aafRun k stage0 stage1 hk =>
    exact { hs with
      chainConstructed := fun hc => State.UnitsConstructed.set_aaf (hs.chainConstructed hc) hk id }
  | fxNew fs hunits => exact { hs with chainConstructed := fun _ => hunits, running := fun _ => rfl }
  | start hc => exact { hs with running := fun _ => hc }
  | stop => exact { hs with running := fun hr => by simp at hr }

/-- The codes of the nine causes (rule R171). -/
theorem causeCode_range (c : Cause) : 1 ≤ (causeCode c).toNat ∧ (causeCode c).toNat ≤ 9 := by cases c <;> decide

theorem State.Inv.raise {s : State} (hs : s.Inv) (c : Cause) : (s.raise c).Inv := by
  unfold State.raise
  split
  · exact { hs with }
  · exact { hs with noCause := fun hf => by simp at hf, legalCause := fun _ => causeCode_range c }

/-- Free values keep the ranges of the registers they stand for (rules R25, R26; log 12). -/
theorem State.Inv.unspecified {s : State} (hs : s.Inv) : s.unspecified.Inv := by
  obtain ⟨hlb, hmb, -, hpk⟩ := hs.counts
  have hlen : s.unspecified.hb.len ≤ s.hb.maxBlock := Nat.le_of_lt_succ (Nat.mod_lt _ (Nat.succ_pos _))
  exact { hs with
    hbufCanonical := Mem.wf_writeList _ _ _ hs.hbufCanonical
    hbufWithin := Mem.within_writeList _ _ _ _ hs.hbufWithin (by simp)
    counts := ⟨hlb, hmb, lt_of_le_of_lt hlen hmb, hpk⟩
    blockFits := fun _ => hlen }

theorem inv_invariant : Invariant (fun _ => True) State.Inv where
  writes _ hw hs := hw.keeps_inv hs
  unspecified _ hs := hs.unspecified
  respond _ _ hs := { hs with }
  raise _ c hs := hs.raise c
  port _ _ hs := { hs with }

/-- Settles O11: every write of an operation keeps the invariant, so every step does. -/
theorem everyStepKeepsTheInvariant : Obligations.EveryStepKeepsTheInvariant :=
  fun _ _ hs h => inv_invariant.step h hs

end Sys2Proof.Machine
end

section
/-!
The phase of the LFO (rule R25): comparisons as comparisons of exact values, rounding between bounds, and that the
advance of rule R91 stays at least 0 and below 1.
-/

namespace Sys2Proof

/-! ## Comparisons of values -/

/-- Rising magnitudes with a sign keep their order. -/
theorem signed_lt_iff {f : Nat → Nat} (hf : StrictMono f) (h0 : f 0 = 0) (s t : Bool) (m n : Nat) :
    signed s (f m) < signed t (f n) ↔ signed s m < signed t n := by
  have hmn : f m < f n ↔ m < n := hf.lt_iff_lt
  have hnm : f n < f m ↔ n < m := hf.lt_iff_lt
  have hm : f 0 < f m ↔ 0 < m := hf.lt_iff_lt
  have hn : f 0 < f n ↔ 0 < n := hf.lt_iff_lt
  cases s <;> cases t <;> simp only [signed, if_true, if_false, Bool.false_eq_true] <;> omega

theorem F32.value_lt_iff (a b : F32) : F32.value a < F32.value b ↔ F32.order a < F32.order b :=
  signed_lt_iff F32.unitsOfMag_strictMono rfl (F32.neg? a) (F32.neg? b) (F32.mag a) (F32.mag b)

theorem F32.lt_iff {a b : F32} (ha : F32.isFinite a = true) (hb : F32.isFinite b = true) :
    F32.lt a b = true ↔ F32.value a < F32.value b := by
  simp [F32.lt, Machine.not_isNaN_of_isFinite ha, Machine.not_isNaN_of_isFinite hb, F32.value_lt_iff]

theorem F32.le_iff {a b : F32} (ha : F32.isFinite a = true) (hb : F32.isFinite b = true) :
    F32.le a b = true ↔ F32.value a ≤ F32.value b := by
  rw [← not_lt, F32.value_lt_iff, not_lt]
  simp [F32.le, Machine.not_isNaN_of_isFinite ha, Machine.not_isNaN_of_isFinite hb]

/-- A word from 0 to below 1 is finite. -/
theorem F32.isFinite_of_unit {w : F32} (h0 : F32.le F32.zero w = true) (h1 : F32.lt w F32.one = true) :
    F32.isFinite w = true := by
  have hzero : F32.order F32.zero = 0 := by decide
  have hone : F32.order F32.one = 0x3F800000 := by decide
  simp only [F32.le, F32.lt, hzero, hone, Bool.and_eq_true, decide_eq_true_eq] at h0 h1
  have hlow := h0.2
  have hhigh := h1.2
  rw [F32.isFinite, decide_eq_true_eq, F32.infMag]
  cases hn : F32.neg? w <;> simp only [F32.order, hn, if_true, if_false, Bool.false_eq_true] at hlow hhigh <;> omega

/-! ## Rounding between bounds -/

/-- A sum below 2 rounds to a finite word. -/
theorem F32.isFinite_ofUnits {v : Int} (zeroNeg : Bool) (hv : v.natAbs < 2 ^ 150) :
    F32.isFinite (F32.ofUnits v zeroNeg) = true := by
  obtain ⟨neg, hpack, -⟩ := Machine.ofUnits_eq_pack v zeroNeg
  obtain ⟨hq, -⟩ := F32.significand_bounds v.natAbs
  have hlog : Nat.log2 v.natAbs < 150 := by
    by_cases h0 : v.natAbs = 0
    · simp [h0]
    · exact (Nat.log2_lt h0).mpr hv
  have hsmall : F32.roundMag v.natAbs 1 < F32.infMag := by
    unfold F32.roundMag
    simp only [Nat.div_one, Nat.one_mul]
    refine lt_of_le_of_lt (Nat.min_le_left _ _) ?_
    unfold F32.infMag
    split <;> omega
  rw [hpack, F32.isFinite, F32.mag_pack _ _ hsmall.le]
  exact decide_eq_true hsmall

/-- A rounded sum is finite and lies between any two values the exact sum lies between. -/
theorem F32.ofUnits_between {v : Int} (zeroNeg : Bool) (lo hi : F32) (hv : v.natAbs < 2 ^ 150)
    (hlo : F32.value lo ≤ v) (hhi : v ≤ F32.value hi) :
    F32.isFinite (F32.ofUnits v zeroNeg) = true ∧
    F32.value lo ≤ F32.value (F32.ofUnits v zeroNeg) ∧ F32.value (F32.ofUnits v zeroNeg) ≤ F32.value hi := by
  have hfin := F32.isFinite_ofUnits zeroNeg hv
  have hnearLo := (Machine.roundedTo_ofUnits v zeroNeg lo hfin).1
  have hnearHi := (Machine.roundedTo_ofUnits v zeroNeg hi hfin).1
  exact ⟨hfin, by omega, by omega⟩

end Sys2Proof

namespace Sys2Proof.Machine

/-! ## The phase -/

/-- A word in the range of the phase register (rule R25). -/
def IsPhase (w : F32) : Prop := F32.le F32.zero w = true ∧ F32.lt w F32.one = true

theorem isPhase_zero : IsPhase F32.zero := ⟨by decide, by decide⟩

theorem value_zero : F32.value F32.zero = 0 := rfl

theorem value_half : F32.value F32.half = 2 ^ 148 := by decide

theorem value_one : F32.value F32.one = 2 ^ 149 := by decide

/-- 1.5, the bound of a phase and an increment added. -/
theorem value_threeHalves : F32.value 0x3FC00000#32 = 2 ^ 149 + 2 ^ 148 := by decide

theorem isPhase_iff (w : F32) : IsPhase w ↔ F32.isFinite w = true ∧ 0 ≤ F32.value w ∧ F32.value w < 2 ^ 149 := by
  have key (hw : F32.isFinite w = true) : IsPhase w ↔ 0 ≤ F32.value w ∧ F32.value w < 2 ^ 149 := by
    rw [IsPhase, F32.le_iff (by decide) hw, F32.lt_iff hw (by decide), value_zero, value_one]
  constructor
  · intro h
    have hfin := F32.isFinite_of_unit h.1 h.2
    exact ⟨hfin, (key hfin).mp h⟩
  · exact fun ⟨hfin, h⟩ => (key hfin).mpr h

/-- A word from 0 to 1.5 is a phase once it is wrapped at 1 (rule R91). -/
theorem isPhase_wrap {w : F32} (hfin : F32.isFinite w = true) (h0 : 0 ≤ F32.value w)
    (h1 : F32.value w ≤ 2 ^ 149 + 2 ^ 148) : IsPhase (if F32.le F32.one w then F32.sub w F32.one else w) := by
  simp only [F32.le_iff (a := F32.one) (by decide) hfin, value_one]
  split
  next hge =>
    rw [sub_of_isFinite w F32.one hfin (by decide), value_one]
    obtain ⟨hfin', hlo, hhi⟩ := F32.ofUnits_between (v := F32.value w - 2 ^ 149) (F32.neg? w && !F32.neg? F32.one)
      F32.zero F32.half (by omega) (by rw [value_zero]; omega) (by rw [value_half]; omega)
    rw [value_zero] at hlo
    rw [value_half] at hhi
    exact (isPhase_iff _).mpr ⟨hfin', hlo, by omega⟩
  next hlt => exact (isPhase_iff w).mpr ⟨hfin, h0, by omega⟩

/-- The sum of a phase and an increment below 0.5 rounds to at most 1.5 (rule R91). -/
theorem isPhase_lfoAdvance {phase incr : F32} (hphase : IsPhase phase) (hincr : isNonNegative incr = true) :
    IsPhase (lfoAdvance phase incr) := by
  obtain ⟨hfinP, hP0, hP1⟩ := (isPhase_iff phase).mp hphase
  obtain ⟨hfinI, hI0⟩ : F32.isFinite incr = true ∧ F32.le F32.zero incr = true := by simpa [isNonNegative] using hincr
  rw [F32.le_iff (by decide) hfinI, value_zero] at hI0
  unfold lfoAdvance
  split
  next hhalf =>
    rw [F32.lt_iff hfinI (by decide), value_half] at hhalf
    obtain ⟨hfin, hlo, hhi⟩ := F32.ofUnits_between (v := F32.value phase + F32.value incr)
      (F32.neg? phase && F32.neg? incr) F32.zero 0x3FC00000#32 (by omega) (by rw [value_zero]; omega)
      (by rw [value_threeHalves]; omega)
    rw [← add_of_isFinite phase incr hfinP hfinI] at hfin hlo hhi
    exact isPhase_wrap hfin (value_zero ▸ hlo) (value_threeHalves ▸ hhi)
  next => exact hphase

theorem isPhase_phaseOrZero (w : F32) : IsPhase (phaseOrZero w) := by
  unfold phaseOrZero
  split
  next h => simpa [IsPhase] using h
  next => exact isPhase_zero

/-- A write leaves the phase as it was, sets it to 0 or advances it. -/
theorem Writes.keeps_phase {s t : State} {a : Action} (h : Writes s a t) (hs : IsPhase s.lfo.phase) :
    IsPhase t.lfo.phase := by
  cases h with
  | lfoNew | lfoReset => exact isPhase_zero
  | lfoStep incr output hincr => exact isPhase_lfoAdvance hs hincr
  | _ => exact hs

theorem phase_invariant : Invariant (fun _ => True) State.phaseInRange :=
  .of_blind (fun _ hw hs => hw.keeps_phase hs) (fun _ _ => isPhase_phaseOrZero _) fun _ _ _ _ _ hs => hs

theorem constructed_phase_invariant : Invariant (fun _ => True) fun s => s.lfo.c = true → s.phaseInRange := by
  refine .of_blind (fun {a s t} _ hw hs hc => ?_) (fun _ _ _ => isPhase_phaseOrZero _) fun _ _ _ _ _ hs => hs
  by_cases hsc : s.lfo.c = true
  · exact hw.keeps_phase (hs hsc)
  · cases hw with
    | lfoNew => exact isPhase_zero
    | _ => exact absurd hc hsc

/-- Settles O24: 0 at power-on; a step leaves 0, the advanced phase, a free value in range, or the phase as it was. -/
theorem phaseStaysInUnitInterval : Obligations.PhaseStaysInUnitInterval :=
  ⟨fun _ => isPhase_zero, fun _ _ hs h => phase_invariant.step h hs,
    fun _ _ hs h => constructed_phase_invariant.step h hs⟩

end Sys2Proof.Machine
end

section
/-!
The STATUS word, bit by bit (rule R23).
-/

namespace Sys2Proof.Machine

@[simp] theorem getElem_statusBit (b : Bool) (p i : Nat) (hi : i < 32) :
    (statusBit b p)[i] = (b && decide (p = i)) := by
  cases b
  · simp [statusBit]
  · rw [← BitVec.getLsbD_eq_getElem, statusBit, if_pos rfl, BitVec.getLsbD_ofNat, Nat.testBit_two_pow,
      decide_eq_true hi]

/-- Settles O21: each bit of the word is that of the one flag placed there, or of `CAUSE`. -/
theorem statusDisplaysTheFlags : Obligations.StatusDisplaysTheFlags := by
  intro s
  refine ⟨?_, ?cause, ?low, ?_, ?_, ?_, ?_, ?_, ?_, ?_, ?_, ?_, ?constructed, ?coefficients, ?high⟩
  case cause | low | high =>
    refine BitVec.eq_of_getLsbD_eq fun i hi => ?_
    interval_cases i <;> simp [State.status]
  case constructed | coefficients =>
    intro k hk
    interval_cases k <;> simp [State.status, State.aafGv]
  all_goals simp [State.status, State.lfoOv]

end Sys2Proof.Machine
end

section
/-!
Flags and configuration registers (rules R22, R24, R162, R178): only some kinds of writes change each of them, so an
operation changes it only where it performs one of those.
-/

namespace Sys2Proof.Machine

/-! ## Constructed flags -/

/-- The constructed flags of `s` and its `PK.kv` are set in `t` where they are in `s` (rule R22). -/
def KeepsConstructed (s t : State) : Prop :=
  (s.lfo.c = true → t.lfo.c = true) ∧ (s.hb.c = true → t.hb.c = true) ∧ (s.pk.kv = true → t.pk.kv = true) ∧
  (s.cmp.c = true → t.cmp.c = true) ∧ (s.fx.c = true → t.fx.c = true) ∧
  ∀ k, k < 4 → (s.aaf.get k).c = true → (t.aaf.get k).c = true

/-- A write sets a flag or leaves it. -/
theorem Writes.keepsConstructed {s t : State} {a : Action} (h : Writes s a t) : KeepsConstructed s t := by
  cases h with
  | aafNew k g hk | aafRun k stage0 stage1 hk =>
    refine ⟨id, id, id, id, id, fun j hj hc => ?_⟩
    dsimp only
    rw [AafBank.get_set _ _ _ _ hj hk]
    split <;> simp_all
  | _ => simp [KeepsConstructed]

/-- Free values leave the flags (log 12). -/
theorem keepsConstructed_unspecified (s : State) : KeepsConstructed s s.unspecified := by
  refine ⟨id, id, id, id, id, fun k hk hc => ?_⟩
  interval_cases k <;> exact hc

theorem KeepsConstructed.trans {s t u : State} (hst : KeepsConstructed s t) (htu : KeepsConstructed t u) :
    KeepsConstructed s u := by
  obtain ⟨hlfo, hhb, hpk, hcmp, hfx, haaf⟩ := hst
  obtain ⟨hlfo', hhb', hpk', hcmp', hfx', haaf'⟩ := htu
  exact ⟨hlfo' ∘ hlfo, hhb' ∘ hhb, hpk' ∘ hpk, hcmp' ∘ hcmp, hfx' ∘ hfx, fun k hk => haaf' k hk ∘ haaf k hk⟩

theorem keepsConstructed_invariant (s : State) : Invariant (fun _ => True) (KeepsConstructed s) :=
  .of_blind (fun _ hw hs => hs.trans hw.keepsConstructed) (fun t hs => hs.trans (keepsConstructed_unspecified t))
    fun _ _ _ _ _ hs => hs

/-- Settles O18: no write clears a flag, so no step does. -/
theorem constructedFlagsAreNeverCleared : Obligations.ConstructedFlagsAreNeverCleared :=
  fun s _ h => (keepsConstructed_invariant s).step h ⟨id, id, id, id, id, fun _ _ => id⟩

/-! ## Configuration registers -/

/-- A register that only writes of kind `a` change, and that free values, the port, the response, `FAULT` and `CAUSE` do
not touch, changes only where an operation performs such a write. -/
theorem register_changes_by {α : Type} (f : State → α) {a : Action} {i : Instr} {s t : State}
    (writes : ∀ {b s t}, b ≠ a → Writes s b t → f t = f s) (h : exec i s = .next t) (hne : f t ≠ f s)
    (unspecified : ∀ s, f s.unspecified = f s := by intros; rfl)
    (blind : ∀ s port resp fault cause, f { s with port, resp, fault, cause } = f s := by intros; rfl) :
    a ∈ actionsOf i := by
  have hinv : Invariant (· ≠ a) (f · = f s) :=
    .of_blind (fun ha hw hs => (writes ha hw).trans hs) (fun u hs => (unspecified u).trans hs)
      fun u port resp fault cause hs => (blind u port resp fault cause).trans hs
  obtain ⟨b, hb, hba⟩ := hinv.broken_by h rfl hne
  exact not_not.mp hba ▸ hb

/-- FX.SETPROC writes no configuration: it runs the units and sets the mode (rule R156). -/
theorem fxSetproc_actions {on : Word} {a : Action} (h : a ∈ actionsOf (.fxSetproc on)) :
    on = 1#32 ∧ a ∈ .start :: fxRuns ∨ on = 0#32 ∧ a = .stop := by
  rw [actionsOf] at h
  split_ifs at h with h1 h0
  · exact .inl ⟨h1, h⟩
  · exact .inr ⟨h0, List.mem_singleton.mp h⟩
  · simp at h

/-- Which operations perform the writes of each configuration register and of the mode (rules R24, R162). -/
theorem actions_performed_only_by (i : Instr) :
    (.hbNew ∈ actionsOf i → (∃ a b, i = .hbNew a b) ∨ ∃ a b, i = .fxNew a b) ∧
    (.load ∈ actionsOf i → (∃ a b, i = .pkLpf a b) ∨ (∃ xs, i = .pkLoadk xs) ∨ ∃ a b, i = .fxNew a b) ∧
    (.split ∈ actionsOf i → (∃ n, i = .pkSplit n) ∨ ∃ a b, i = .fxNew a b) ∧
    (.lfoNew ∈ actionsOf i → (∃ a b, i = .lfoNew a b) ∨ ∃ a b, i = .fxNew a b) ∧
    (.cmpNew ∈ actionsOf i → (∃ a, i = .cmpNew a) ∨ ∃ a b, i = .fxNew a b) ∧
    (∀ k, .aafNew k ∈ actionsOf i → (∃ j a, i = .aafNew j a ∧ j.toNat = k) ∨ ∃ a b, i = .fxNew a b) ∧
    (.fxNew ∈ actionsOf i → ∃ a b, i = .fxNew a b) ∧
    (.start ∈ actionsOf i → i = .fxSetproc 1#32) ∧ (.stop ∈ actionsOf i → i = .fxSetproc 0#32) := by
  cases i with
  | fxSetproc on =>
    have hon {a : Action} := fxSetproc_actions (on := on) (a := a)
    refine ⟨?_, ?_, ?_, ?_, ?_, fun _ => ?_, ?_, ?_, ?_⟩ <;> exact fun h => by simpa using hon h
  | _ => simp [eq_comm]

/-- Free values and the writes but a construction leave a filter's coefficient (rules R24, R145). -/
theorem aaf_g_changes_by (k : Nat) (hk : k < 4) {i : Instr} {s t : State} (h : exec i s = .next t)
    (hne : (t.aaf.get k).g ≠ (s.aaf.get k).g) : .aafNew k ∈ actionsOf i := by
  refine register_changes_by (fun s => (s.aaf.get k).g) (fun hb hw => ?_) h hne fun s => ?_
  · cases hw with
    | aafNew j g hj | aafRun j stage0 stage1 hj =>
      dsimp only
      rw [AafBank.get_set _ _ _ _ hk hj]
      split <;> simp_all
    | _ => rfl
  · interval_cases k <;> rfl

/-- Settles O19: each configuration register changes by one kind of write, which its constructors alone perform. -/
theorem configurationIsWrittenOnlyByConstructors : Obligations.ConfigurationIsWrittenOnlyByConstructors := by
  intro i s t h
  obtain ⟨hhb, hload, hsplit, hlfo, hcmp, haaf, hfx, -⟩ := actions_performed_only_by i
  refine ⟨fun hne => hhb ?_, fun hne => hload ?_, fun hne => hsplit ?_, fun hne => hlfo ?_, fun hne => hcmp ?_,
    fun k hk hne => haaf k (aaf_g_changes_by k hk h hne), fun hne => hfx ?_⟩
  · exact register_changes_by (fun s => (s.hb.lookBehind, s.hb.maxBlock)) (fun _ hw => by cases hw <;> trivial) h hne
  · exact register_changes_by (fun s => s.pk.kLen) (fun _ hw => by cases hw <;> trivial) h hne
  · exact register_changes_by (fun s => (s.pk.nPhases, s.pk.m)) (fun _ hw => by cases hw <;> trivial) h hne
  · exact register_changes_by (fun s => (s.lfo.point, s.lfo.scale, s.lfo.alpha)) (fun _ hw => by cases hw <;> trivial)
      h hne
  · exact register_changes_by (fun s => (s.cmp.attack, s.cmp.release)) (fun _ hw => by cases hw <;> trivial) h hne
  · exact register_changes_by (fun s => s.fx.fs) (fun _ hw => by cases hw <;> trivial) h hne

/-! ## Running -/

/-- Idle is left by a start alone. -/
theorem idle_invariant : Invariant (· ≠ .start) fun s => s.fx.run = false := by
  refine .of_blind (fun ha hw hs => ?_) (fun _ hs => hs) fun _ _ _ _ _ hs => hs
  cases hw with
  | start => exact absurd rfl ha
  | fxNew | stop => rfl
  | _ => exact hs

/-- Running is left by a stop or by the chain's construction alone. -/
theorem running_invariant : Invariant (fun a => a ≠ .stop ∧ a ≠ .fxNew) fun s => s.fx.run = true := by
  refine .of_blind (fun ha hw hs => ?_) (fun _ hs => hs) fun _ _ _ _ _ hs => hs
  obtain ⟨hstop, hnew⟩ := ha
  cases hw with
  | stop => exact absurd rfl hstop
  | fxNew => exact absurd rfl hnew
  | start => rfl
  | _ => exact hs

/-- Settles O20: FX.SETPROC 1 alone starts the chain; FX.SETPROC 0 alone stops it, and FX.NEW alone constructs it. -/
theorem runningChangesOnlyByNamedOperations : Obligations.RunningChangesOnlyByNamedOperations := by
  intro i s t h
  obtain ⟨-, -, -, -, -, -, hnew, hstart, hstop⟩ := actions_performed_only_by i
  refine ⟨fun hs ht => ?_, fun hs ht => ?_⟩
  · obtain ⟨a, ha, hna⟩ := idle_invariant.broken_by h hs (by simp [ht])
    exact hstart (not_not.mp hna ▸ ha)
  · obtain ⟨a, ha, hna⟩ := running_invariant.broken_by h hs (by simp [ht])
    rcases not_and_or.mp hna with hna | hna
    · exact .inl (hstop (not_not.mp hna ▸ ha))
    · exact .inr (hnew (not_not.mp hna ▸ ha))

end Sys2Proof.Machine
end

section
/-!
Frames (rules R24, R27, R58, R158): a path of one unit's writes changes that unit's registers and words alone; the
chain's writes leave filter 3 and the count of draws, and those of its resets and of FX.PROCESS the kernel store.
-/

namespace Sys2Proof.Machine

/-! ## Units -/

/-- The frame of a write of each kind: `t` is `s` but for the registers and words of one unit, or one filter. -/
def Frame (s t : State) : Action → Prop
  | .lfoNew | .lfoRun => ∃ lfo, t = { s with lfo }
  | .hbNew | .hbRun => ∃ hb hbuf, t = { s with hb, hbuf }
  | .load => ∃ pk kram, t = { s with pk, kram }
  | .split => ∃ pk pram, t = { s with pk, pram }
  | .cmpNew | .cmpRun => ∃ cmp, t = { s with cmp }
  | .aafNew k | .aafRun k => ∃ aaf : AafBank, t = { s with aaf } ∧ ∀ j, j < 4 → j ≠ k → aaf.get j = s.aaf.get j
  | .fxNew | .start | .stop => ∃ fx, t = { s with fx }

section
variable {s t u : State} {a : Action}

theorem Writes.frame (h : Writes s a t) : Frame s t a := by
  cases h with
  | lfoNew | lfoStep | lfoReset | cmpNew | cmpRun | fxNew | start | stop => exact ⟨_, rfl⟩
  | hbNew | hbProcess | hbRelease | load | split => exact ⟨_, _, rfl⟩
  | hbReset => exact ⟨s.hb, _, rfl⟩
  | aafNew k _ hk | aafRun k _ _ hk => exact ⟨_, rfl, fun j hj hjk => AafBank.get_set_other _ j k _ hj hk hjk⟩

theorem Frame.refl (s : State) (a : Action) : Frame s s a := by
  cases a with
  | hbNew | hbRun | load | split => exact ⟨_, _, rfl⟩
  | aafNew | aafRun => exact ⟨s.aaf, rfl, fun _ _ _ => rfl⟩
  | _ => exact ⟨_, rfl⟩

theorem Frame.trans (hst : Frame s t a) (htu : Frame t u a) : Frame s u a := by
  cases a with
  | hbNew | hbRun | load | split =>
    obtain ⟨_, _, rfl⟩ := hst
    obtain ⟨_, _, rfl⟩ := htu
    exact ⟨_, _, rfl⟩
  | aafNew | aafRun =>
    obtain ⟨_, rfl, hother⟩ := hst
    obtain ⟨_, rfl, hother'⟩ := htu
    exact ⟨_, rfl, fun j hj hjk => (hother' j hj hjk).trans (hother j hj hjk)⟩
  | _ =>
    obtain ⟨_, rfl⟩ := hst
    obtain ⟨_, rfl⟩ := htu
    exact ⟨_, rfl⟩

theorem Reaches.frame (h : Reaches [a] s u) : Frame s u a :=
  h.keeps (p := (Frame s · a)) (fun _ hb _ _ hw hv => hv.trans (List.mem_singleton.mp hb ▸ hw.frame)) (.refl s a)

theorem Reaches.nil (h : Reaches [] s u) : u = s := h.keeps (p := (· = s)) (by simp) rfl

/-- An answer or a fault without a draw writes the response, `FAULT` and `CAUSE` alone. -/
theorem Answered.unit_frame {as : List Action} (h : Answered false as s t) :
    ∃ u fault cause resp, Reaches as s u ∧ t = { u with fault, cause, resp } := by
  obtain ⟨u, hu, ⟨ws, rfl⟩ | ⟨-, c, rfl | ⟨hd, -⟩⟩⟩ := h
  · exact ⟨u, u.fault, u.cause, ws, hu, rfl⟩
  · unfold State.raise
    split
    · exact ⟨u, u.fault, u.cause, [], hu, rfl⟩
    · exact ⟨u, true, causeCode c, [], hu, rfl⟩
  · simp at hd

end

/-! ## The chain -/

/-- The writes the chain performs leave filter 3, the count of draws and `FAULT`. -/
theorem Reaches.chain_frame {as : List Action} {s u : State} (h : Reaches as s u)
    (has : as ⊆ .start :: .stop :: fxRuns ++ fxBuilds) :
    u.aaf.f3 = s.aaf.f3 ∧ u.freed = s.freed ∧ u.fault = s.fault := by
  refine h.keeps (p := fun u => u.aaf.f3 = s.aaf.f3 ∧ u.freed = s.freed ∧ u.fault = s.fault) (fun a ha v w hw hv => ?_)
    ⟨rfl, rfl, rfl⟩
  have hmem := has ha
  obtain ⟨h3, hfreed, hfault⟩ := hv
  cases hw with
  | aafNew k _ hk | aafRun k _ _ hk =>
    have hk3 : 3 ≠ k := by rintro rfl; simp at hmem
    exact ⟨(AafBank.get_set_other _ 3 k _ (by decide) hk hk3).trans h3, hfreed, hfault⟩
  | _ => exact ⟨h3, hfreed, hfault⟩

/-- A chain operation keeps the chain's frame: it draws only where it faults, and once (rule R172 item 3). -/
theorem Answered.chainFrame {as : List Action} {s t : State} (h : Answered true as s t)
    (has : as ⊆ .start :: .stop :: fxRuns ++ fxBuilds) : ChainFrame s t := by
  obtain ⟨u, hu, ht⟩ := h
  obtain ⟨h3, hfreed, hfault⟩ := hu.chain_frame has
  rcases ht with ⟨ws, rfl⟩ | ⟨hclear, c, rfl | ⟨-, rfl⟩⟩
  · exact .of_eq s _ h3 hfreed
  · exact .of_eq s _ (by simpa using h3) (by simpa using hfreed)
  · refine ⟨fun hf => by simp [hclear] at hf, fun _ => .inr ⟨?_, ?_⟩⟩
    · rw [State.raise_aaf, ← h3, ← hfreed]
      rfl
    · rw [State.raise_freed, State.unspecified_freed, hfreed]

/-- The chain's resets, its modes and FX.PROCESS leave the kernel store (rules R156, R158, R159). -/
theorem kernel_invariant (s : State) :
    Invariant (· ∈ .start :: .stop :: fxRuns) fun t => t.pk = s.pk ∧ t.kram = s.kram ∧ t.pram = s.pram := by
  refine .of_blind (fun ha hw hs => ?_) (fun _ hs => hs) fun _ _ _ _ _ hs => hs
  cases hw <;> simp_all

theorem fxSetproc_actions_subset (on : Word) : actionsOf (.fxSetproc on) ⊆ .start :: .stop :: fxRuns := by
  have hstart : .start :: fxRuns ⊆ .start :: .stop :: fxRuns := by simp
  intro a ha
  rcases fxSetproc_actions ha with ⟨-, ha⟩ | ⟨-, rfl⟩
  · exact hstart ha
  · simp

/-- A chain operation but FX.NEW keeps the kernel store, filter 3 and the count of draws. -/
theorem kernelFrame_of_chain {i : Instr} {s t : State} (hi : isChainOp i = true)
    (hsub : actionsOf i ⊆ .start :: .stop :: fxRuns) (h : exec i s = .next t) :
    t.pk = s.pk ∧ t.kram = s.kram ∧ t.pram = s.pram ∧ ChainFrame s t := by
  obtain ⟨hpk, hkram, hpram⟩ := (kernel_invariant s).exec hsub h ⟨rfl, rfl, rfl⟩
  have hans := exec_answered i h
  rw [hi] at hans
  exact ⟨hpk, hkram, hpram, hans.chainFrame fun _ ha => List.mem_append_left _ (hsub ha)⟩

/-- No operation changes the port: the step that runs it has taken the packet (rule R70). -/
theorem exec_port {i : Instr} {s t : State} (h : exec i s = .next t) : t.port = s.port := by
  obtain ⟨u, hu, ht⟩ := exec_answered i h
  have hport : u.port = s.port := hu.keeps (p := (·.port = s.port)) (fun _ _ _ _ hw hs => by cases hw <;> exact hs) rfl
  rcases ht with ⟨ws, rfl⟩ | ⟨-, c, rfl | ⟨-, rfl⟩⟩ <;> simpa using hport

/-- Settles O25: a unit's command is a path of its writes and an answer; a chain operation's writes leave the rest. -/
theorem operationsChangeOnlyTheirUnit : Obligations.OperationsChangeOnlyTheirUnit := by
  intro i s t h
  refine ⟨exec_cfg i h, exec_port h, ?_⟩
  have hans := exec_answered i h
  cases i
  case lfoNew | lfoStep | lfoReset =>
    obtain ⟨u, _, _, _, hu, rfl⟩ := Answered.unit_frame hans
    obtain ⟨_, rfl⟩ := hu.frame
    rfl
  case hbNew | hbProcess | hbRelease | hbReset =>
    obtain ⟨u, _, _, _, hu, rfl⟩ := Answered.unit_frame hans
    obtain ⟨_, _, rfl⟩ := hu.frame
    rfl
  case pkLpf | pkLoadk =>
    obtain ⟨u, _, _, _, hu, rfl⟩ := Answered.unit_frame hans
    obtain ⟨_, _, rfl⟩ := hu.frame
    rfl
  case pkSplit =>
    obtain ⟨u, _, _, _, hu, rfl⟩ := Answered.unit_frame hans
    obtain ⟨_, _, rfl⟩ := hu.frame
    rfl
  case cmpNew | cmpDetect | cmpReset =>
    obtain ⟨u, _, _, _, hu, rfl⟩ := Answered.unit_frame hans
    obtain ⟨_, rfl⟩ := hu.frame
    rfl
  case aafNew | aafStep | aafReset =>
    obtain ⟨u, _, _, _, hu, rfl⟩ := Answered.unit_frame hans
    obtain ⟨_, rfl, hother⟩ := hu.frame
    exact ⟨rfl, hother⟩
  case fxNew => exact Answered.chainFrame hans (by simp)
  case fxSetproc on => exact kernelFrame_of_chain rfl (fxSetproc_actions_subset on) h
  case fxProcess | fxReset => exact kernelFrame_of_chain rfl (by simp) h
  all_goals
    obtain ⟨u, _, _, _, hu, rfl⟩ := Answered.unit_frame hans
    obtain rfl := hu.nil
    rfl

end Sys2Proof.Machine
end

section
/-!
Command packets (rules R70 to R75): a header selects the one row with its opcode byte, and its `inst` and `n` are zero
where that operation has none; a row's operands are read back from its packet's words and from no others.
-/

namespace Sys2Proof

/-! ## The rows of the opcode map -/

/-- The operations with an `inst` field (rule R74). -/
def Opcode.hasInst : Opcode → Bool
  | .aafNew | .aafStep | .aafReset => true
  | _ => false

/-- The operations with a count `n` (rule R74). -/
def Opcode.hasCount : Opcode → Bool
  | .hbProcess | .pkLoadk | .fxParams | .fxProcess => true
  | _ => false

/-- The row of an operation: all bits are fixed but those of a field the operation has. -/
def Opcode.row (op : Opcode) : OpcodeRow where
  op := op
  pattern := header op 0 0
  mask := (BitVec.allOnes 8 ++ (if op.hasInst then 0#8 else .allOnes 8) : BitVec 16) ++
    (if op.hasCount then 0#16 else .allOnes 16)

theorem eq_row_of_mem : ∀ r ∈ opcodeMap, r = r.op.row := by decide

theorem row_mem (op : Opcode) : op.row ∈ opcodeMap := by cases op <;> decide

/-- Two headers are equal iff their fields are. -/
theorem append_fields_inj (a b i j : BitVec 8) (m n : BitVec 16) :
    ((a ++ i : BitVec 16) ++ m : BitVec 32) = (b ++ j : BitVec 16) ++ n ↔ a = b ∧ i = j ∧ m = n := by
  refine ⟨fun h => ⟨?_, ?_, ?_⟩, fun ⟨ha, hi, hm⟩ => by rw [ha, hi, hm]⟩
  · simpa only [headerOpcode_append] using congrArg headerOpcode h
  · simpa only [headerInst_append] using congrArg headerInst h
  · exact (headerCount_append _ m).symm.trans ((congrArg headerCount h).trans (headerCount_append _ n))

/-- A header is its fields (rule R72). -/
theorem eq_append_fields (h : Word) : h = (headerOpcode h ++ headerInst h : BitVec 16) ++ headerCount h := by
  have hhigh : (headerOpcode h ++ headerInst h : BitVec 16) = h.extractLsb' 16 16 :=
    BitVec.extractLsb'_append_extractLsb'_eq_extractLsb' rfl
  rw [hhigh]
  exact eq_append_halves h

/-- What a header of an operation's row fixes: the opcode byte, and a zero in each field the operation has not. -/
theorem matches_row_iff (h : Word) (op : Opcode) :
    h &&& op.row.mask = op.row.pattern ↔
      headerOpcode h = op.byte ∧ (op.hasInst = false → headerInst h = 0) ∧
        (op.hasCount = false → headerCount h = 0) := by
  conv_lhs => rw [eq_append_fields h]
  rw [Opcode.row, header, BitVec.and_append, BitVec.and_append, append_fields_inj]
  cases op.hasInst <;> cases op.hasCount <;> simp [-BitVec.reduceAllOnes]

theorem Opcode.byte_injective : Function.Injective Opcode.byte := by
  intro op op' h
  have hsel : selectOpcode (header op 0 0) = selectOpcode (header op' 0 0) := by rw [header, header, h]
  simpa only [selectOpcode_plain, Option.some.injEq] using hsel

theorem headerOpcode_of_matches {h : Word} {r : OpcodeRow} (hr : r ∈ opcodeMap) (hmatch : h &&& r.mask = r.pattern) :
    headerOpcode h = r.op.byte := by
  rw [eq_row_of_mem r hr] at hmatch
  exact ((matches_row_iff h r.op).mp hmatch).1

/-- The opcode byte tells the row. -/
theorem eq_row_of_matches {h : Word} {r : OpcodeRow} {op : Opcode} (hr : r ∈ opcodeMap)
    (hmatch : h &&& r.mask = r.pattern) (hbyte : headerOpcode h = op.byte) : r = op.row := by
  rw [eq_row_of_mem r hr, Opcode.byte_injective ((headerOpcode_of_matches hr hmatch).symm.trans hbyte)]

/-- Settles O3: both rows fix the header's opcode byte, and no two operations have one byte. -/
theorem opcodeRowsAreDisjoint : Obligations.OpcodeRowsAreDisjoint := by
  intro h r q hr hq hhr hhq
  rw [eq_row_of_mem q hq]
  exact eq_row_of_matches hr hhr (headerOpcode_of_matches hq hhq)

/-! ## The operation a header selects -/

theorem selectOpcode_eq_none_iff (h : Word) :
    selectOpcode h = none ↔ ∀ r ∈ opcodeMap, h &&& r.mask ≠ r.pattern := by
  simp [selectOpcode]

theorem selectOpcode_eq_some_iff (h : Word) (op : Opcode) :
    selectOpcode h = some op ↔ h &&& op.row.mask = op.row.pattern := by
  constructor
  · intro hsel
    obtain ⟨r, hr, rfl⟩ := Option.map_eq_some_iff.mp hsel
    rw [← eq_row_of_mem r (List.mem_of_find?_eq_some hr)]
    simpa using List.find?_some hr
  · intro hop
    obtain ⟨r, hr⟩ : ∃ r, opcodeMap.find? (fun r => h &&& r.mask == r.pattern) = some r :=
      Option.isSome_iff_exists.mp (List.find?_isSome.mpr ⟨_, row_mem op, beq_iff_eq.mpr hop⟩)
    have hrow : r = op.row := eq_row_of_matches (List.mem_of_find?_eq_some hr) (by simpa using List.find?_some hr)
      ((matches_row_iff h op).mp hop).1
    rw [selectOpcode, hr, hrow]
    rfl

/-- A header of an operation selects it, where the fields it has not are zero (rule R74). -/
theorem selectOpcode_header (op : Opcode) (inst : BitVec 8) (n : Nat)
    (hinst : op.hasInst = false → inst = 0) (hcount : op.hasCount = false → n = 0) :
    selectOpcode (header op inst n) = some op := by
  rw [selectOpcode_eq_some_iff, matches_row_iff, header, headerOpcode_append, headerInst_append, headerCount_append]
  exact ⟨rfl, hinst, fun h => by rw [hcount h]; rfl⟩

/-- A header that selects an operation is a header of it, and the fields it has not are zero (rules R74, R75). -/
theorem header_of_selectOpcode {h : Word} {op : Opcode} (hsel : selectOpcode h = some op) :
    h = header op (headerInst h) (headerCount h).toNat ∧ (op.hasInst = false → headerInst h = 0) ∧
      (op.hasCount = false → (headerCount h).toNat = 0) := by
  obtain ⟨hbyte, hinst, hcount⟩ := (matches_row_iff h op).mp ((selectOpcode_eq_some_iff h op).mp hsel)
  refine ⟨?_, hinst, fun hc => by rw [hcount hc]; rfl⟩
  rw [header, ← hbyte, BitVec.ofNat_toNat, BitVec.setWidth_eq]
  exact eq_append_fields h

/-! ## Operands -/

theorem takeOne_eq_ok {ws rest : List Word} {k : Word → Instr} {i : Instr} (h : takeOne ws k = .ok (i, rest)) :
    ∃ a, ws = a :: rest ∧ i = k a := by
  unfold takeOne at h
  split at h <;> cases h
  exact ⟨_, rfl, rfl⟩

theorem takeTwo_eq_ok {ws rest : List Word} {k : Word → Word → Instr} {i : Instr}
    (h : takeTwo ws k = .ok (i, rest)) : ∃ a b, ws = a :: b :: rest ∧ i = k a b := by
  unfold takeTwo at h
  split at h <;> cases h
  exact ⟨_, _, rfl, rfl⟩

theorem takeMany_eq_ok {count : Nat} {ws rest : List Word} {k : List Word → Instr} {i : Instr}
    (h : takeMany count ws k = .ok (i, rest)) : ∃ us, us.length = count ∧ ws = us ++ rest ∧ i = k us := by
  unfold takeMany at h
  split at h <;> cases h
  exact ⟨_, List.length_take_of_le ‹_›, (List.take_append_drop ..).symm, rfl⟩

@[simp] theorem takeMany_append {count : Nat} {us : List Word} (rest : List Word) (k : List Word → Instr)
    (h : us.length = count) : takeMany count (us ++ rest) k = .ok (k us, rest) := by
  simp [takeMany, ← h]

theorem paramSamplesOf_paramSampleWords (ps : List ParamSample) : paramSamplesOf (paramSampleWords ps) = ps := by
  induction ps with
  | nil => rfl
  | cons p ps ih => rw [paramSampleWords, paramSamplesOf, ih]

theorem paramSampleWords_paramSamplesOf (n : Nat) (us : List Word) (h : us.length = 4 * n) :
    paramSampleWords (paramSamplesOf us) = us := by
  induction n generalizing us with
  | zero => rw [List.length_eq_zero_iff.mp h]; rfl
  | succ n ih =>
    match us with
    | _ :: _ :: _ :: _ :: us =>
      rw [paramSamplesOf, paramSampleWords, ih us (by simp only [List.length_cons] at h; omega)]
    | [] | [_] | [_, _] | [_, _, _] => simp only [List.length_cons, List.length_nil] at h; omega

theorem length_paramSamplesOf (n : Nat) (us : List Word) (h : us.length = 4 * n) : (paramSamplesOf us).length = n := by
  have hlen := congrArg List.length (paramSampleWords_paramSamplesOf n us h)
  rw [Laws.PacketLength.paramSampleWords_length] at hlen
  omega

/-- The samples of a block, from its tuples and its inputs, as many of each. -/
theorem fxSamples_fields {ps : List ParamSample} {xs : List F32} (h : ps.length = xs.length) :
    (List.zipWith FxSample.mk ps xs).map FxSample.params = ps ∧
      (List.zipWith FxSample.mk ps xs).map FxSample.x = xs := by
  rw [← List.map_uncurry_zip_eq_zipWith, List.map_map, List.map_map]
  exact ⟨List.map_fst_zip h.le, List.map_snd_zip h.ge⟩

theorem fxSamples_eta (block : List FxSample) :
    List.zipWith FxSample.mk (block.map FxSample.params) (block.map FxSample.x) = block := by
  rw [List.zipWith_map, List.zipWith_self, List.map_id']

/-! ## Packets -/

/-- The row of an operation (rule R73). -/
def Instr.opcode : Instr → Opcode
  | .lfoNew .. => .lfoNew | .lfoStep .. => .lfoStep | .lfoReset => .lfoReset
  | .hbNew .. => .hbNew | .hbProcess .. => .hbProcess | .hbView => .hbView
  | .hbRead .. => .hbRead | .hbRelease => .hbRelease | .hbReset => .hbReset
  | .pkLpf .. => .pkLpf | .pkLoadk .. => .pkLoadk | .pkSplit .. => .pkSplit
  | .dlRead .. => .dlRead
  | .cmpNew .. => .cmpNew | .cmpDetect .. => .cmpDetect | .cmpReset => .cmpReset
  | .cmpCompress .. => .cmpCompress | .cmpExpand .. => .cmpExpand
  | .nlShape .. => .nlShape
  | .aafNew .. => .aafNew | .aafStep .. => .aafStep | .aafReset .. => .aafReset
  | .fxNew .. => .fxNew | .fxSetproc .. => .fxSetproc | .fxParams .. => .fxParams
  | .fxProcess .. => .fxProcess | .fxReset => .fxReset

/-- The filter an operation names, or 0 (rule R72). -/
def Instr.inst : Instr → BitVec 8
  | .aafNew k _ | .aafStep k _ | .aafReset k => k
  | _ => 0

/-- The count of an operation's elements, or 0 (rule R72). -/
def Instr.count : Instr → Nat
  | .hbProcess xs | .pkLoadk xs => xs.length
  | .fxParams params => params.length
  | .fxProcess block => block.length
  | _ => 0

theorem wellFormed_iff (i : Instr) : i.WellFormed = true ↔ i.count ≤ maxCount := by
  cases i <;> simp [Instr.WellFormed, Instr.count]

theorem encode_eq_header_cons (i : Instr) : encode i = header i.opcode i.inst i.count :: (encode i).tail := by
  cases i <;> rfl

/-- An operation without `inst` names filter 0, and one without count counts no elements. -/
theorem absent_fields_zero (i : Instr) :
    (i.opcode.hasInst = false → i.inst = 0) ∧ (i.opcode.hasCount = false → i.count = 0) := by
  cases i <;> simp [Instr.opcode, Instr.inst, Instr.count, Opcode.hasInst, Opcode.hasCount]

/-- The operands are read back from the words of the packet (rule R73). -/
theorem readOperands_encode (i : Instr) (rest : List Word) :
    readOperands i.opcode i.inst i.count ((encode i).tail ++ rest) = .ok (i, rest) := by
  cases i with
  | hbProcess xs => exact takeMany_append rest _ rfl
  | pkLoadk xs => exact takeMany_append rest _ rfl
  | fxParams params =>
    rw [Instr.opcode, readOperands]
    refine (takeMany_append rest _ (Laws.PacketLength.paramSampleWords_length params)).trans ?_
    rw [paramSamplesOf_paramSampleWords]
  | fxProcess block =>
    have hparams := Laws.PacketLength.paramSampleWords_length (block.map FxSample.params)
    rw [List.length_map] at hparams
    have hwords : (paramSampleWords (block.map FxSample.params) ++ block.map FxSample.x).length = 5 * block.length := by
      rw [List.length_append, hparams, List.length_map]; omega
    rw [Instr.opcode, readOperands]
    refine (takeMany_append rest _ hwords).trans ?_
    rw [Instr.count, List.take_left' hparams, List.drop_left' hparams, paramSamplesOf_paramSampleWords, fxSamples_eta]
  | _ => rfl

/-- Where the operands are read, the header and the words read are the packet of what is read (rule R73). -/
theorem encode_of_readOperands {op : Opcode} {inst : BitVec 8} {n : Nat} {ws rest : List Word} {i : Instr}
    (h : readOperands op inst n ws = .ok (i, rest)) (hinst : op.hasInst = false → inst = 0)
    (hcount : op.hasCount = false → n = 0) : i.count = n ∧ header op inst n :: ws = encode i ++ rest := by
  cases op
  case lfoReset | hbView | hbRelease | hbReset | cmpReset | fxReset =>
    obtain rfl := hinst rfl
    obtain rfl := hcount rfl
    cases h
    exact ⟨rfl, rfl⟩
  case pkSplit | cmpNew | cmpDetect | nlShape | fxSetproc =>
    obtain rfl := hinst rfl
    obtain rfl := hcount rfl
    obtain ⟨a, rfl, rfl⟩ := takeOne_eq_ok h
    exact ⟨rfl, rfl⟩
  case lfoNew | lfoStep | hbNew | hbRead | pkLpf | dlRead | cmpCompress | cmpExpand | fxNew =>
    obtain rfl := hinst rfl
    obtain rfl := hcount rfl
    obtain ⟨a, b, rfl, rfl⟩ := takeTwo_eq_ok h
    exact ⟨rfl, rfl⟩
  case aafNew | aafStep =>
    obtain rfl := hcount rfl
    obtain ⟨a, rfl, rfl⟩ := takeOne_eq_ok h
    exact ⟨rfl, rfl⟩
  case aafReset =>
    obtain rfl := hcount rfl
    cases h
    exact ⟨rfl, rfl⟩
  case hbProcess | pkLoadk =>
    obtain rfl := hinst rfl
    obtain ⟨us, rfl, rfl, rfl⟩ := takeMany_eq_ok h
    exact ⟨rfl, rfl⟩
  case fxParams =>
    obtain rfl := hinst rfl
    rw [readOperands] at h
    obtain ⟨us, hus, rfl, rfl⟩ := takeMany_eq_ok h
    have hlen := length_paramSamplesOf n us hus
    refine ⟨hlen, ?_⟩
    rw [encode, hlen, paramSampleWords_paramSamplesOf n us hus, List.cons_append]
  case fxProcess =>
    obtain rfl := hinst rfl
    rw [readOperands] at h
    obtain ⟨us, hus, rfl, rfl⟩ := takeMany_eq_ok h
    have htake : (us.take (4 * n)).length = 4 * n := List.length_take_of_le (by omega)
    have hparams : (paramSamplesOf (us.take (4 * n))).length = n := length_paramSamplesOf n _ htake
    have hinputs : (us.drop (4 * n)).length = n := by rw [List.length_drop]; omega
    obtain ⟨hfst, hsnd⟩ := fxSamples_fields (hparams.trans hinputs.symm)
    have hlen := congrArg List.length hfst
    rw [List.length_map, hparams] at hlen
    refine ⟨hlen, ?_⟩
    rw [encode, hlen, hfst, hsnd, paramSampleWords_paramSamplesOf n _ htake, List.take_append_drop, List.cons_append]

/-- Decoding answers an operation exactly where its packet stands in front (rules R72 to R75). -/
theorem decode_eq_ok_iff (ws rest : List Word) (i : Instr) :
    decode ws = .ok (i, rest) ↔ i.WellFormed = true ∧ ws = encode i ++ rest := by
  constructor
  · intro h
    cases ws with
    | nil => cases h
    | cons hd tl =>
      rw [decode] at h
      split at h
      next op hsel =>
        obtain ⟨hheader, hinst, hcount⟩ := header_of_selectOpcode hsel
        obtain ⟨hn, hws⟩ := encode_of_readOperands h hinst hcount
        rw [← hws, ← hheader, wellFormed_iff, hn]
        exact ⟨Nat.le_of_lt_succ (headerCount hd).isLt, rfl⟩
      next => cases h
  · rintro ⟨hwf, rfl⟩
    obtain ⟨hinst, hcount⟩ := absent_fields_zero i
    have hn : i.count < 2 ^ 16 := Nat.lt_succ_of_le ((wellFormed_iff i).mp hwf)
    rw [encode_eq_header_cons, List.cons_append, decode, selectOpcode_header _ _ _ hinst hcount]
    rw [header, headerInst_append, headerCount_append, BitVec.toNat_ofNat, Nat.mod_eq_of_lt hn]
    exact readOperands_encode i rest

/-- Settles O1: the header selects the operation's row, whose operands are read back. -/
theorem decodeOfEncodeIsIdentity : Obligations.DecodeOfEncodeIsIdentity :=
  fun i rest h => (decode_eq_ok_iff _ rest i).mpr ⟨h, rfl⟩

/-- Settles O2: a header that selects a row is that row's header, and the words read are the operands' words. -/
theorem encodeOfDecodeIsIdentity : Obligations.EncodeOfDecodeIsIdentity :=
  fun ws rest i h => (decode_eq_ok_iff ws rest i).mp h

end Sys2Proof
end

section
/-!
The front of the command port (rules R21, R70, R75): which headers are illegal, and what a step does with a packet, an
illegal header and less than a packet.
-/

namespace Sys2Proof

/-! ## Illegal headers -/

/-- A header's fields as the digits of its number (rule R72). -/
theorem header_fields_toNat (h : Word) :
    (headerOpcode h).toNat / 16 = h.toNat / 2 ^ 28 ∧ (headerOpcode h).toNat % 16 = h.toNat / 2 ^ 24 % 16 ∧
      (headerInst h).toNat = h.toNat / 2 ^ 16 % 256 ∧ (headerCount h).toNat = h.toNat % 65536 := by
  have hunit : h.toNat / 2 ^ 24 % 2 ^ 8 / 16 = h.toNat / 2 ^ 28 := by
    rw [Nat.mod_eq_of_lt (by have := h.isLt; omega), Nat.div_div_eq_div_mul]
    rfl
  simpa [headerOpcode, headerInst, headerCount, Nat.shiftRight_eq_div_pow] using hunit

/-- The unit is reserved or does not define the function (rules R74, R75). -/
def UndefinedFunc (unit func : Nat) : Prop :=
  unit = 0 ∨ 9 ≤ unit ∨
  (unit = 1 ∧ 3 ≤ func) ∨ (unit = 2 ∧ 6 ≤ func) ∨ (unit = 3 ∧ 3 ≤ func) ∨ (unit = 4 ∧ 1 ≤ func) ∨
  (unit = 5 ∧ 5 ≤ func) ∨ (unit = 6 ∧ 1 ≤ func) ∨ (unit = 7 ∧ 3 ≤ func) ∨ (unit = 8 ∧ 5 ≤ func)

/-- HB.PROCESS, PK.LOADK, FX.PARAMS or FX.PROCESS (rule R75). -/
def CountedFunc (unit func : Nat) : Prop :=
  (unit = 2 ∧ func = 1) ∨ (unit = 3 ∧ func = 1) ∨ (unit = 8 ∧ (func = 2 ∨ func = 3))

theorem no_row_with_byte_iff (b : BitVec 8) :
    (∀ r ∈ opcodeMap, b ≠ r.op.byte) ↔ UndefinedFunc (b.toNat / 16) (b.toNat % 16) := by
  revert b
  unfold UndefinedFunc
  decide +kernel

theorem hasInst_eq_false_iff (op : Opcode) : op.hasInst = false ↔ op.byte.toNat / 16 ≠ 7 := by
  cases op <;> decide

theorem hasCount_eq_false_iff (op : Opcode) :
    op.hasCount = false ↔ ¬ CountedFunc (op.byte.toNat / 16) (op.byte.toNat % 16) := by
  unfold CountedFunc
  cases op <;> decide

/-- A header with an operation's byte is illegal exactly where a field the operation has not is not zero. -/
theorem no_row_matches_iff {h : Word} {op : Opcode} (hbyte : headerOpcode h = op.byte) :
    (∀ r ∈ opcodeMap, h &&& r.mask ≠ r.pattern) ↔
      (headerInst h ≠ 0 ∧ op.hasInst = false) ∨ (headerCount h ≠ 0 ∧ op.hasCount = false) := by
  have hrow : (∀ r ∈ opcodeMap, h &&& r.mask ≠ r.pattern) ↔ h &&& op.row.mask ≠ op.row.pattern :=
    ⟨fun hno => hno _ (row_mem op), fun hno r hr hmatch => hno (eq_row_of_matches hr hmatch hbyte ▸ hmatch)⟩
  rw [hrow, ne_eq, matches_row_iff]
  simp only [hbyte, true_and]
  tauto

/-- Rule R75's list of illegal headers, in the header's bytes. -/
theorem illegal_header_iff (h : Word) :
    (∀ r ∈ opcodeMap, h &&& r.mask ≠ r.pattern) ↔
      let unit := (headerOpcode h).toNat / 16
      let func := (headerOpcode h).toNat % 16
      UndefinedFunc unit func ∨ (headerInst h ≠ 0 ∧ unit ≠ 7) ∨ (headerCount h ≠ 0 ∧ ¬ CountedFunc unit func) := by
  dsimp only
  rw [← no_row_with_byte_iff]
  by_cases hbyte : ∀ r ∈ opcodeMap, headerOpcode h ≠ r.op.byte
  · exact iff_of_true (fun r hr hmatch => hbyte r hr (headerOpcode_of_matches hr hmatch)) (.inl hbyte)
  · rw [or_iff_right hbyte]
    push Not at hbyte
    obtain ⟨r, -, hr⟩ := hbyte
    rw [no_row_matches_iff hr, hasInst_eq_false_iff, hasCount_eq_false_iff, hr]

end Sys2Proof

namespace Sys2Proof.Machine

/-! ## The step -/

theorem step_of_decode_ok {s : State} {i : Instr} {rest : List Word} (h : decode s.port = .ok (i, rest)) :
    step s = exec i { s with port := rest } := by
  simp [step, h]

theorem step_of_incomplete {s : State} (h : decode s.port = .error .incomplete) : step s = .next s := by
  simp [step, h]

theorem illegalReason_ne_incomplete (h : Word) : illegalReason h ≠ .incomplete := by
  unfold illegalReason
  dsimp only
  split_ifs <;> simp

/-- An illegal header is a packet of one word (rule R75). -/
theorem step_of_illegal {s : State} {h : Word} {rest : List Word} (hport : s.port = h :: rest)
    (hsel : selectOpcode h = none) : step s = illegalCommand { s with port := rest } := by
  have hdecode : decode s.port = .error (illegalReason h) := by rw [hport, decode, hsel]
  rw [step, hdecode]
  cases hreason : illegalReason h with
  | incomplete => exact absurd hreason (illegalReason_ne_incomplete h)
  | reservedUnit | undefinedFunc | mustBeZero => rw [hport]; rfl

/-- A command whose operation faults and writes nothing changes `FAULT`, `CAUSE` and the response alone. -/
theorem command_of_precise_trap {α : Type} (words : α → List Word) {op : State → Res α} {s : State} {c : Cause}
    (h : s.fault = false) (hop : op s = .trap c s) : command words op s = .next (s.faulted (causeCode c)) := by
  rw [command_of_trap words op s s c h hop, State.raise_of_clear s c h]
  rfl

/-- Settles O6 by the decoded case of the step. -/
theorem stepRunsTheDecodedInstruction : Obligations.StepRunsTheDecodedInstruction :=
  fun _ _ _ => step_of_decode_ok

/-- Settles O7 by the waiting case of the step. -/
theorem stepWaitsForAWholePacket : Obligations.StepWaitsForAWholePacket :=
  fun _ => step_of_incomplete

/-- Settles O5: the bytes of the map are those of rule R75's list; a step and an AAF operation take the fault. -/
theorem illegalHeadersRaiseIllegalCmd : Obligations.IllegalHeadersRaiseIllegalCmd := by
  refine ⟨fun h => ?_, fun s h rest hf hport hno => ?_, fun s k w hf hk => ⟨?_, ?_, ?_⟩⟩
  · obtain ⟨hunit, hfunc, hinst, hn⟩ := header_fields_toNat h
    have hzero {w : Nat} (b : BitVec w) : b = 0 ↔ b.toNat = 0 := BitVec.toNat_inj.symm
    rw [illegal_header_iff, ← hunit, ← hfunc, ← hinst, ← hn]
    simp only [UndefinedFunc, CountedFunc, or_assoc, ne_eq, hzero]
  · rw [step_of_illegal hport ((selectOpcode_eq_none_iff h).mpr hno)]
    exact command_of_precise_trap (c := .illegalCmd) noWords hf rfl
  · exact command_of_precise_trap noWords hf ((aafNew_eq_trap _ _ _ _ _).mpr ⟨rfl, .inl ⟨hk, rfl⟩⟩)
  · exact command_of_precise_trap oneWord hf ((aafStep_eq_trap _ _ _ _ _).mpr ⟨rfl, .inl ⟨hk, rfl⟩⟩)
  · exact command_of_precise_trap noWords hf ((aafReset_eq_trap _ _ _ _).mpr ⟨rfl, .inl ⟨hk, rfl⟩⟩)

/-! ## The words of the test vectors -/

/-- Settles O4: each packet is the encoding of its operation. -/
theorem specWordsDecodeToTheirInstructions : Obligations.SpecWordsDecodeToTheirInstructions := by
  refine ⟨?_, ?_, ?_, ?_, ?_, ?_, ?_, ?_⟩ <;> exact (decode_eq_ok_iff _ _ _).mpr ⟨rfl, rfl⟩

end Sys2Proof.Machine
end

section
/-!
`LFO.RUN` (rules R78, R93): its LFO.STEPs all complete, and each answers the next pair of delays of the two passes.
-/

namespace Sys2Proof.Machine

/-! ## The two passes -/

/-- A pass answers its half of each pair of delays. -/
theorem onePass_eq_map {combine : F32 → F32 → F32} {pick : F32 × F32 → F32}
    (hpick : ∀ a b, pick (F32.add a b, F32.sub a b) = combine a b) (lfo : Lfo) (samples : List (F32 × F32)) :
    onePass combine lfo samples = (delaysOver lfo samples).map pick := by
  induction samples generalizing lfo with
  | nil => rfl
  | cons p ps ih => rw [onePass, delaysOver, List.map_cons, hpick, ih]

theorem length_onePass (combine : F32 → F32 → F32) (lfo : Lfo) (samples : List (F32 × F32)) :
    (onePass combine lfo samples).length = samples.length := by
  induction samples generalizing lfo with
  | nil => rfl
  | cons p ps ih => rw [onePass, List.length_cons, ih, List.length_cons]

/-! ## The commands -/

theorem issueAll_cons {i : Instr} {is : List Instr} {s t u : State} {rs : List (List Word)} (hi : exec i s = .next t)
    (his : issueAll is t = .next (rs, u)) : issueAll (i :: is) s = .next (t.resp :: rs, u) := by
  rw [issueAll, hi]
  dsimp only
  rw [his]

/-- Only `LFO.phase` and `LFO.output` change, and the response. -/
theorem issueAll_lfoSteps (samples : List (F32 × F32)) (s : State) (hf : s.fault = false) (hc : s.lfo.c = true)
    (hrange : ∀ p ∈ samples, isNonNegative p.1 = true ∧ isPercent p.2 = true) :
    ∃ resp phase output, issueAll (samples.map fun p => .lfoStep p.1 p.2) s =
      .next ((delaysOver s.lfo samples).map fun d => [d.1, d.2],
        { s with resp, lfo := { s.lfo with phase, output } }) := by
  induction samples generalizing s with
  | nil => exact ⟨s.resp, s.lfo.phase, s.lfo.output, rfl⟩
  | cons p ps ih =>
    obtain ⟨⟨hincr, hdepth⟩, hps⟩ := List.forall_mem_cons.mp hrange
    obtain ⟨r, t, hop⟩ : ∃ r t, lfoStep p.1 p.2 s = .ok r t :=
      ⟨_, _, (lfoStep_eq_ok ..).mpr ⟨hc, hincr, hdepth, rfl, rfl⟩⟩
    have hstep : exec (.lfoStep p.1 p.2) s = .next (t.respond [r.1, r.2]) := command_of_ok _ _ s t r hf hop
    have hrest := ih (t.respond [r.1, r.2])
    obtain ⟨-, -, -, rfl, rfl⟩ := (lfoStep_eq_ok ..).mp hop
    obtain ⟨resp, phase, output, hrest⟩ := hrest hf hc hps
    exact ⟨resp, phase, output, issueAll_cons hstep hrest⟩

/-- Settles O32: the steps answer the pairs of delays, whose first and second words are the two passes. -/
theorem lfoRunAnswersTwoPasses : Obligations.LfoRunAnswersTwoPasses := by
  intro s samples hf hc hrange
  obtain ⟨resp, phase, output, hrun⟩ := issueAll_lfoSteps samples s hf hc hrange
  refine ⟨{ s with resp, lfo := { s.lfo with phase, output } }, ?_, hf, length_onePass .., rfl, rfl, rfl, rfl, rfl, rfl,
    rfl, rfl, rfl, rfl⟩
  rw [issuePseudo, Pseudo.expand, hrun, onePass_eq_map (pick := Prod.fst) fun _ _ => rfl,
    onePass_eq_map (pick := Prod.snd) fun _ _ => rfl, List.map_eq_flatMap (f := Prod.fst),
    List.map_eq_flatMap (f := Prod.snd)]
  simp [Pseudo.arrange, List.flatMap_map]

end Sys2Proof.Machine
end

section
/-!
The LFO's commands (rules R90, R91, R92): each faults as its operation does, or answers and writes what its rule gives.
-/

namespace Sys2Proof.Machine

/-! ## The operands and the laws -/

/-- The two checks of `LFO.STEP` as one list of conditions (rule R91). -/
theorem isNonNegative_and_isPercent (incr depth : F32) :
    (isNonNegative incr && isPercent depth) =
      (F32.isFinite incr && F32.le F32.zero incr && F32.isFinite depth && F32.le F32.zero depth &&
        F32.le depth 0x42C80000#32) := by
  simp only [isNonNegative, isPercent, F32.hundred, Bool.and_assoc]

/-- `f32(50.0)`, the divisor of the default scale (rule R90). -/
theorem ofNat_fifty : F32.ofNat 50 = 0x42480000#32 := by decide

/-! ## The registers after a sample -/

/-- The smoothed value from its two cases: without and with an earlier output (rule R91). -/
theorem eq_lfoSmoothed {output : Option F32} {alpha instant smoothed : F32}
    (hnone : output = none → smoothed = instant)
    (hsome : ∀ o, output = some o → smoothed = F32.add o (F32.mul alpha (F32.sub instant o))) :
    smoothed = lfoSmoothed output alpha instant := by
  cases output with
  | none => exact hnone rfl
  | some o => exact hsome o rfl

/-- The next phase from its three cases: frozen, advanced and wrapped (rule R91). -/
theorem eq_lfoAdvance {phase incr phase' : F32} (hfrozen : F32.lt incr F32.half = false → phase' = phase)
    (hadvanced : F32.lt incr F32.half = true → F32.le F32.one (F32.add phase incr) = false →
      phase' = F32.add phase incr)
    (hwrapped : F32.lt incr F32.half = true → F32.le F32.one (F32.add phase incr) = true →
      phase' = F32.sub (F32.add phase incr) F32.one) :
    phase' = lfoAdvance phase incr := by
  unfold lfoAdvance
  dsimp only
  split_ifs with hincr hwrap
  · exact hwrapped hincr hwrap
  · exact hadvanced hincr (Bool.eq_false_of_not_eq_true hwrap)
  · exact hfrozen (Bool.eq_false_of_not_eq_true hincr)

/-! ## The commands -/

/-- Settles O29 by the two outcomes of the operation, according to its check. -/
theorem lfoNewConstructsTheLfo : Obligations.LfoNewConstructsTheLfo := by
  refine fun s lo hi => ⟨command_of_fault _ _ s, fun hf => ⟨fun hbounds => ?_, fun hbounds => ?_, rfl, ?_⟩⟩
  · exact command_of_ok _ _ s _ () hf ((lfoNew_eq_ok ..).mpr ⟨hbounds, rfl⟩)
  · exact command_of_precise_trap _ hf ((lfoNew_eq_trap ..).mpr ⟨hbounds, rfl, rfl⟩)
  · rw [lfoScaleOf, ofNat_fifty]

/-- Settles O30: the values the rule names case by case are those the operation computes. -/
theorem lfoStepAdvancesOneSample : Obligations.LfoStepAdvancesOneSample := by
  intro s incr depth
  refine ⟨command_of_fault _ _ s, fun hf hc => ?_, fun hf hc => ?_⟩
  · exact command_of_precise_trap _ hf ((lfoStep_eq_trap ..).mpr ⟨rfl, .inl ⟨hc, rfl⟩⟩)
  rw [← isNonNegative_and_isPercent]
  refine ⟨fun hrange tri instant smoothed phase htri hinstant hnone hsome hfrozen hadvanced hwrapped => ?_,
    fun hrange => ?_⟩
  · obtain ⟨hincr, hdepth⟩ := Bool.and_eq_true_iff.mp hrange
    obtain rfl : tri = triangle s.lfo.phase := htri
    obtain rfl : instant = lfoInstant depth s.lfo.scale s.lfo.phase := hinstant
    obtain rfl := eq_lfoSmoothed hnone hsome
    obtain rfl := eq_lfoAdvance hfrozen hadvanced hwrapped
    exact command_of_ok _ _ s _ _ hf ((lfoStep_eq_ok ..).mpr ⟨hc, hincr, hdepth, rfl, rfl⟩)
  · exact command_of_precise_trap _ hf ((lfoStep_eq_trap ..).mpr ⟨rfl, .inr ⟨hc, hrange, rfl⟩⟩)

/-- Settles O31 by the two outcomes of the operation. -/
theorem lfoResetRestoresTheStart : Obligations.LfoResetRestoresTheStart := by
  refine fun s => ⟨command_of_fault _ _ s, fun hf hc => ?_, fun hf hc => ?_⟩
  · exact command_of_precise_trap _ hf ((lfoReset_eq_trap ..).mpr ⟨hc, rfl, rfl⟩)
  · exact command_of_ok _ _ s _ () hf ((lfoReset_eq_ok ..).mpr ⟨hc, rfl⟩)

end Sys2Proof.Machine
end

section
/-!
The history buffer's commands (rules R100 to R105): each faults as its operation does, or answers and writes, word by
word, what its rule gives.
-/

namespace Sys2Proof.Machine

/-! ## Ranges of a memory -/

theorem Mem.readList_eq_map (m : Mem) (a n : Nat) : m.readList a n = (List.range n).map fun j => m.read (a + j) := by
  rw [Mem.readList, List.range'_eq_map_range, List.map_map]
  rfl

theorem Mem.readList_add (m : Mem) (a n k : Nat) : m.readList a (n + k) = m.readList a n ++ m.readList (a + n) k := by
  rw [Mem.readList, ← List.range'_append_1, List.map_append]
  rfl

/-! ## Fit -/

/-- A block that fits a constructed buffer fits HBUF (rule R24). -/
theorem State.Inv.block_fits {s : State} (hs : s.Inv) (hc : s.hb.c = true) {n : Nat} (hn : n ≤ s.hb.maxBlock) :
    s.hb.lookBehind + n ≤ s.cfg.hbufWords := by
  obtain ⟨-, -, hfit⟩ := hs.sized hc
  omega

/-- The view of a constructed buffer fits HBUF (rules R24, R26). -/
theorem State.Inv.view_fits {s : State} (hs : s.Inv) (hc : s.hb.c = true) :
    s.hb.lookBehind + s.hb.len ≤ s.cfg.hbufWords :=
  hs.block_fits hc (hs.blockFits hc)

/-! ## The commands -/

/-- Settles O33 by the two outcomes of the operation, according to its check. -/
theorem hbNewConstructsAZeroedBuffer : Obligations.HbNewConstructsAZeroedBuffer := by
  refine fun s lb mb => ⟨command_of_fault _ _ s, fun hf => ⟨fun hlow hhigh hfit => ?_, fun hbad => ?_⟩⟩
  · have hmb : isBlockLength (countOf mb) = true := (isBlockLength_iff _).mpr ⟨hlow, hhigh⟩
    exact ⟨_, command_of_ok _ _ s _ () hf ((hbNew_eq_ok ..).mpr ⟨isCount_countOf lb, hmb, hfit, rfl⟩), rfl,
      Mem.read_zeroFill _ _⟩
  · refine command_of_precise_trap _ hf ((hbNew_eq_trap ..).mpr ⟨fun ⟨_, hmb, hfit⟩ => hbad ?_, rfl, rfl⟩)
    obtain ⟨hlow, hhigh⟩ := (isBlockLength_iff _).mp hmb
    exact ⟨hlow, hhigh, hfit⟩

/-- Settles O34: a block that passes the checks fits HBUF. -/
theorem hbProcessWritesTheBlockAfterTheHistory : Obligations.HbProcessWritesTheBlockAfterTheHistory := by
  intro s xs hs
  have htrap {c : Cause} := hbProcess_eq_trap xs s s c
  refine ⟨command_of_fault _ _ s, fun hf hc => ?_, fun hf hc => ⟨fun hlen hv => ?_, fun hlen => ?_, fun hlen hv => ?_⟩⟩
  · exact command_of_precise_trap _ hf (htrap.mpr ⟨rfl, .inl ⟨hc, rfl⟩⟩)
  · exact ⟨_, command_of_ok _ _ s _ () hf ((hbProcess_eq_ok ..).mpr ⟨hc, hlen, hv, hs.block_fits hc hlen, rfl⟩), rfl,
      fun a => Mem.read_writeList _ _ a xs hs.hbufCanonical⟩
  · exact command_of_precise_trap _ hf (htrap.mpr ⟨rfl, .inr (.inl ⟨hc, hlen, rfl⟩)⟩)
  · exact command_of_precise_trap _ hf (htrap.mpr ⟨rfl, .inr (.inr ⟨hc, hlen, hv, rfl⟩)⟩)

/-- Settles O35: the view fits HBUF, and its words are those from index 0 on. -/
theorem hbViewAnswersTheWholeView : Obligations.HbViewAnswersTheWholeView := by
  intro s hs
  refine ⟨command_of_fault _ _ s, fun hf hc => ?_, fun hf hc => ⟨fun hv => ?_, fun hv => ?_⟩⟩
  · exact command_of_precise_trap _ hf ((hbView_eq_trap ..).mpr ⟨rfl, .inl ⟨hc, rfl⟩⟩)
  · have hanswer := (hbView_eq_ok s s _).mpr ⟨hc, hv, hs.view_fits hc, rfl, rfl⟩
    rw [Mem.readList, ← List.range_eq_range'] at hanswer
    exact command_of_ok _ _ s s _ hf hanswer
  · exact command_of_precise_trap _ hf ((hbView_eq_trap ..).mpr ⟨rfl, .inr ⟨hc, hv, rfl⟩⟩)

/-- Settles O36: a range within the view fits HBUF. -/
theorem hbReadAnswersASubRange : Obligations.HbReadAnswersASubRange := by
  intro s start count hs
  have htrap {c : Cause} := hbRead_eq_trap (countOf start) (countOf count) s s c
  refine ⟨command_of_fault _ _ s, fun hf hc => ?_, fun hf hc => ⟨fun hv hrange => ?_, fun hv => ?_, fun hv hrange => ?_⟩⟩
  · exact command_of_precise_trap _ hf (htrap.mpr ⟨rfl, .inl ⟨hc, rfl⟩⟩)
  · have hanswer := (hbRead_eq_ok (countOf start) (countOf count) s s _).mpr
      ⟨hc, hv, hrange, hrange.trans (hs.view_fits hc), rfl, rfl⟩
    rw [Mem.readList_eq_map] at hanswer
    exact command_of_ok _ _ s s _ hf hanswer
  · exact command_of_precise_trap _ hf (htrap.mpr ⟨rfl, .inr (.inl ⟨hc, hv, rfl⟩)⟩)
  · exact command_of_precise_trap _ hf (htrap.mpr ⟨rfl, .inr (.inr ⟨hc, hv, hrange, rfl⟩)⟩)

/-- Settles O37: the ascending copy reads each word before it writes it, however the ranges overlap. -/
theorem hbReleaseMovesTheNewestToTheFront : Obligations.HbReleaseMovesTheNewestToTheFront := by
  intro s hs
  refine ⟨command_of_fault _ _ s, fun hf hc => ?_, fun hf hc => ⟨fun hv => ?_, fun hv => ?_⟩⟩
  · exact command_of_precise_trap _ hf ((hbRelease_eq_trap ..).mpr ⟨rfl, .inl ⟨hc, rfl⟩⟩)
  · exact ⟨_, command_of_ok _ _ s _ () hf ((hbRelease_eq_ok ..).mpr ⟨hc, hv, hs.view_fits hc, rfl⟩), rfl,
      fun a => Mem.read_copyDown _ _ _ a hs.hbufCanonical⟩
  · exact command_of_precise_trap _ hf ((hbRelease_eq_trap ..).mpr ⟨rfl, .inr ⟨hc, hv, rfl⟩⟩)

/-- Settles O38: the whole buffer fits HBUF. -/
theorem hbResetZeroFillsTheBuffer : Obligations.HbResetZeroFillsTheBuffer := by
  intro s hs
  refine ⟨command_of_fault _ _ s, fun hf hc => ?_, fun hf hc => ⟨fun hv => ?_, fun hv => ?_⟩⟩
  · exact command_of_precise_trap _ hf ((hbReset_eq_trap ..).mpr ⟨rfl, .inl ⟨hc, rfl⟩⟩)
  · exact ⟨_, command_of_ok _ _ s _ () hf ((hbReset_eq_ok ..).mpr ⟨hc, hv, hs.block_fits hc le_rfl, rfl⟩), rfl,
      Mem.read_zeroFill _ _⟩
  · exact command_of_precise_trap _ hf ((hbReset_eq_trap ..).mpr ⟨rfl, .inr ⟨hc, hv, rfl⟩⟩)

end Sys2Proof.Machine
end

section
/-!
The block of FX.PROCESS (rule R158): its halves leave the history buffer, and its front half computes what the host's
own unit commands answer, whatever the last response.
-/

namespace Sys2Proof.Machine

variable {s t : State}

/-! ## What the halves of a block change -/

/-- A sample's front half changes filter 0, the envelope and the LFO alone. -/
theorem frontSample_frame {p : FxSample} {f : FrontSample} (h : frontSample p s = .ok f t) :
    ∃ aaf cmp lfo, t = { s with aaf, cmp, lfo } := by
  simp only [frontSample, Res.bind_eq_ok] at h
  obtain ⟨_, _, ha, _, _, hd, _, _, hcomp, _, _, hl, h⟩ := h
  obtain ⟨-, -, -, rfl⟩ := (aafStep_eq_ok ..).mp ha
  obtain ⟨-, -, rfl⟩ := (cmpDetect_eq_ok ..).mp hd
  cases hcomp
  obtain ⟨-, -, -, -, rfl⟩ := (lfoStep_eq_ok ..).mp hl
  cases h
  exact ⟨_, _, _, rfl⟩

theorem frontBlock_cons_eq_ok {p : FxSample} {ps : List FxSample} {front : List FrontSample}
    (h : frontBlock (p :: ps) s = .ok front t) :
    ∃ f fs u, frontSample p s = .ok f u ∧ frontBlock ps u = .ok fs t ∧ front = f :: fs := by
  simp only [frontBlock, Res.bind_eq_ok] at h
  obtain ⟨f, u, hf, fs, v, hfs, h⟩ := h
  cases h
  exact ⟨f, fs, u, hf, hfs, rfl⟩

theorem frontBlock_frame {block : List FxSample} {front : List FrontSample} (h : frontBlock block s = .ok front t) :
    ∃ aaf cmp lfo, t = { s with aaf, cmp, lfo } := by
  induction block generalizing s front with
  | nil => cases h; exact ⟨_, _, _, rfl⟩
  | cons p ps ih =>
    obtain ⟨f, fs, u, hf, hfs, -⟩ := frontBlock_cons_eq_ok h
    obtain ⟨_, _, _, rfl⟩ := frontSample_frame hf
    obtain ⟨_, _, _, rfl⟩ := ih hfs
    exact ⟨_, _, _, rfl⟩

/-- A tap changes its filter alone: the delay line is only read. -/
theorem backTap_frame {i tap : Nat} {delay out : F32} {f : FrontSample} (h : backTap i tap delay f s = .ok out t) :
    ∃ aaf, t = { s with aaf } := by
  simp only [backTap, Res.bind_eq_ok] at h
  obtain ⟨_, _, hr, _, _, hn, _, _, he, _, _, ha, h⟩ := h
  obtain ⟨-, -, -, -, -, -, -, -, rfl⟩ := dlRead_eq_ok _ _ _ _ _ hr
  cases hn
  cases he
  obtain ⟨-, -, -, rfl⟩ := (aafStep_eq_ok ..).mp ha
  cases h
  exact ⟨_, rfl⟩

theorem backBlock_frame {i : Nat} {front : List FrontSample} {outs : List (F32 × F32)}
    (h : backBlock i front s = .ok outs t) : ∃ aaf, t = { s with aaf } := by
  induction front generalizing i s t outs with
  | nil => cases h; exact ⟨_, rfl⟩
  | cons f fs ih =>
    simp only [backBlock, Res.bind_eq_ok] at h
    obtain ⟨_, _, h0, _, _, h1, _, _, hrest, h⟩ := h
    obtain ⟨_, rfl⟩ := backTap_frame h0
    obtain ⟨_, rfl⟩ := backTap_frame h1
    obtain ⟨_, rfl⟩ := ih hrest
    cases h
    exact ⟨_, rfl⟩

/-! ## The front half as unit commands -/

theorem command_respond_of_ok {α : Type} (words : α → List Word) {op : State → Res α} {a : α} {ws : List Word}
    (hop : op (s.respond ws) = .ok a (t.respond ws)) (hs : s.fault = false) :
    command words op (s.respond ws) = .next (t.respond (words a)) :=
  command_of_ok words op (s.respond ws) (t.respond ws) a hs hop

theorem ask_of_ok {i : Instr} {op : State → Res F32} {y : F32} {ws : List Word}
    (hexec : exec i (s.respond ws) = command oneWord op (s.respond ws))
    (hop : op (s.respond ws) = .ok y (t.respond ws)) (hs : s.fault = false) (ht : t.fault = false) :
    ask i (s.respond ws) = .ok (y, t.respond [y]) :=
  ask_of_next i _ _ y (hexec.trans (command_respond_of_ok oneWord hop hs)) ht rfl

theorem ask_aafStep {k : BitVec 8} {x y : F32} (h : aafStep k.toNat x s = .ok y t) (hf : s.fault = false)
    (ws : List Word) : t.fault = false ∧ ask (.aafStep k x) (s.respond ws) = .ok (y, t.respond [y]) := by
  obtain ⟨hk, hc, rfl, rfl⟩ := (aafStep_eq_ok ..).mp h
  exact ⟨hf, ask_of_ok rfl ((aafStep_eq_ok ..).mpr ⟨hk, hc, rfl, rfl⟩) hf hf⟩

theorem ask_cmpDetect {x y : F32} (h : cmpDetect x s = .ok y t) (hf : s.fault = false) (ws : List Word) :
    t.fault = false ∧ ask (.cmpDetect x) (s.respond ws) = .ok (y, t.respond [y]) := by
  obtain ⟨hc, rfl, rfl⟩ := (cmpDetect_eq_ok ..).mp h
  exact ⟨hf, ask_of_ok rfl ((cmpDetect_eq_ok ..).mpr ⟨hc, rfl, rfl⟩) hf hf⟩

theorem ask_cmpCompress {signal level y : F32} (h : cmpCompress signal level s = .ok y t) (hf : s.fault = false)
    (ws : List Word) : t.fault = false ∧ ask (.cmpCompress signal level) (s.respond ws) = .ok (y, t.respond [y]) := by
  cases h
  exact ⟨hf, ask_of_ok rfl (cmpCompress_eq ..) hf hf⟩

theorem issue_lfoStep {incr depth : F32} {r : F32 × F32} (h : lfoStep incr depth s = .ok r t) (hf : s.fault = false)
    (ws : List Word) : issue (.lfoStep incr depth) (s.respond ws) = .ok (t.respond [r.1, r.2]) := by
  obtain ⟨hc, hincr, hdepth, rfl, rfl⟩ := (lfoStep_eq_ok ..).mp h
  exact (issue_eq_ok ..).mpr
    ⟨command_respond_of_ok _ ((lfoStep_eq_ok ..).mpr ⟨hc, hincr, hdepth, rfl, rfl⟩) hf, hf⟩

/-- The host's program for a sample's front half: the same words, and the same state but for the response. -/
theorem hostFront_cons {p : FxSample} {f : FrontSample} (h : frontSample p s = .ok f t) (hf : s.fault = false)
    (ws : List Word) (ps : List FxSample) :
    hostFront (p :: ps) (s.respond ws) =
      (hostFront ps (t.respond [f.forward, f.reverse])).map fun r => (f :: r.1, r.2) := by
  simp only [frontSample, Res.bind_eq_ok] at h
  obtain ⟨a, u, ha, level, v, hd, compressed, w, hcomp, delays, _, hl, h⟩ := h
  cases h
  obtain ⟨hu, hfilter⟩ := ask_aafStep (k := 0) ha hf ws
  obtain ⟨hv, hdetect⟩ := ask_cmpDetect hd hu [a]
  obtain ⟨hw, hcompress⟩ := ask_cmpCompress hcomp hv [level]
  have hdelays := issue_lfoStep hl hw [compressed]
  simp only [hostFront, hfilter, hdetect, hcompress, State.respond_fx, hdelays, Except.bind, State.respond_resp]

/-- The front half of a block issued as unit commands (rule R158). -/
theorem hostFront_of_frontBlock {block : List FxSample} {front : List FrontSample}
    (h : frontBlock block s = .ok front t) (hf : s.fault = false) (ws : List Word) :
    ∃ ws', hostFront block (s.respond ws) = .ok (front, t.respond ws') := by
  induction block generalizing s front ws with
  | nil => cases h; exact ⟨ws, rfl⟩
  | cons p ps ih =>
    obtain ⟨f, fs, u, hsample, hrest, rfl⟩ := frontBlock_cons_eq_ok h
    obtain ⟨_, _, _, hu⟩ := frontSample_frame hsample
    obtain ⟨ws', hhost⟩ := ih hrest (hu ▸ hf) [f.forward, f.reverse]
    exact ⟨ws', by rw [hostFront_cons hsample hf, hhost]; rfl⟩

end Sys2Proof.Machine
end

section
/-!
The history (rule R106): HB.PROCESS appends its block to the samples HBUF holds, HB.RELEASE keeps the last of them,
constructions and resets start again from none, and no other write touches them. FX.PROCESS appends what its front half
compresses (rule R158).
-/

namespace Sys2Proof.Machine

/-! ## The last samples -/

/-- More of the silence before the samples may be dropped with them. -/
theorem lastSamples_eq_drop (k n : Nat) (S : List F32) :
    lastSamples n S = (List.replicate (n + k) F32.zero ++ S).drop (k + S.length) := by
  rw [lastSamples, Nat.add_comm n k, List.replicate_add, List.append_assoc, ← List.drop_drop,
    List.drop_left' List.length_replicate]

@[simp] theorem lastSamples_nil (n : Nat) : lastSamples n [] = List.replicate n F32.zero := by simp [lastSamples]

theorem lastSamples_append (n : Nat) (S xs : List F32) :
    lastSamples (n + xs.length) (S ++ xs) = lastSamples n S ++ xs := by
  have hlen : xs.length + S.length ≤ (List.replicate (n + xs.length) F32.zero ++ S).length := by simp
  rw [lastSamples_eq_drop xs.length n S, ← List.drop_append_of_le_length hlen, lastSamples, List.append_assoc,
    List.length_append, Nat.add_comm S.length]

theorem lastSamples_eq_drop_lastSamples (k n : Nat) (S : List F32) :
    lastSamples n S = (lastSamples (n + k) S).drop k := by
  rw [lastSamples_eq_drop k n S, lastSamples, List.drop_drop, Nat.add_comm k]

/-! ## The words of HBUF after each write -/

theorem Mem.readList_writeList_same (m : Mem) (a : Nat) (ws : List Word) (h : m.wf = true) :
    (m.writeList a ws).readList a ws.length = ws := by
  refine List.ext_getElem (by simp) fun i _ hi => ?_
  rw [Mem.getElem_readList, Mem.read_writeList m a _ ws h, if_pos (by omega), Nat.add_sub_cancel_left,
    List.getD_eq_getElem _ _ hi]

theorem Mem.readList_writeList_below (m : Mem) (a : Nat) (ws : List Word) (h : m.wf = true) :
    (m.writeList a ws).readList 0 a = m.readList 0 a := by
  refine Mem.readList_congr _ _ 0 a fun c _ hc => ?_
  rw [Mem.read_writeList m a c ws h, if_neg (by omega)]

theorem Mem.readList_copyDown (m : Mem) (len n : Nat) (h : m.wf = true) :
    (m.copyDown len n).readList 0 n = m.readList len n := by
  refine List.ext_getElem (by simp) fun i hi _ => ?_
  have hin : i < n := by simpa using hi
  rw [Mem.getElem_readList, Mem.getElem_readList, Mem.read_copyDown m len n _ h, if_pos (by omega), Nat.zero_add,
    Nat.add_comm]

theorem Mem.readList_zeroFill (m : Mem) {k n : Nat} (h : k ≤ n) :
    (m.zeroFill n).readList 0 k = List.replicate k F32.zero := by
  refine List.ext_getElem (by simp) fun i hi _ => ?_
  have hik : i < k := by simpa using hi
  rw [Mem.getElem_readList, Mem.read_zeroFill, if_pos (by omega), List.getElem_replicate]
  rfl

/-! ## The history buffer's operations -/

section
variable {s t : State} {S : List F32} {u : Unit}

/-- Where no view is open over a zero fill that covers the history, HBUF holds silence. -/
theorem State.HistoryIs.of_zeroFill {m : Mem} {n : Nat} (hview : t.hb.view = false) (hbuf : t.hbuf = m.zeroFill n)
    (hn : t.hb.lookBehind ≤ n) : t.HistoryIs [] := by
  refine fun _ => ⟨fun _ => ?_, fun hv => by simp [hview] at hv⟩
  rw [hbuf, lastSamples_nil, Mem.readList_zeroFill m hn]

theorem State.HistoryIs.of_hbNew {lb mb : Nat} (h : hbNew lb mb s = .ok u t) : t.HistoryIs [] := by
  obtain ⟨-, -, -, rfl⟩ := (hbNew_eq_ok lb mb s t u).mp h
  exact .of_zeroFill rfl rfl (Nat.le_add_right lb mb)

theorem State.HistoryIs.of_hbReset (h : hbReset s = .ok u t) : t.HistoryIs [] := by
  obtain ⟨-, hv, -, rfl⟩ := (hbReset_eq_ok s t u).mp h
  exact .of_zeroFill hv rfl (Nat.le_add_right _ _)

theorem State.HistoryIs.of_hbProcess {xs : List F32} (h : hbProcess xs s = .ok u t) (hwf : s.hbuf.wf = true)
    (hs : s.HistoryIs S) : t.HistoryIs (S ++ xs) := by
  obtain ⟨hc, -, hv, -, rfl⟩ := (hbProcess_eq_ok xs s t u).mp h
  obtain ⟨hclosed, -⟩ := hs hc
  refine fun _ => ⟨fun hv' => by simp at hv', fun _ => ?_⟩
  rw [lastSamples_append, Mem.readList_add, Nat.zero_add, Mem.readList_writeList_below _ _ _ hwf,
    Mem.readList_writeList_same _ _ _ hwf, hclosed hv]

theorem State.HistoryIs.of_hbRelease (h : hbRelease s = .ok u t) (hwf : s.hbuf.wf = true) (hs : s.HistoryIs S) :
    t.HistoryIs S := by
  obtain ⟨hc, hv, -, rfl⟩ := (hbRelease_eq_ok s t u).mp h
  obtain ⟨-, hopen⟩ := hs hc
  refine fun _ => ⟨fun _ => ?_, fun hv' => by simp at hv'⟩
  rw [Mem.readList_copyDown _ _ _ hwf, lastSamples_eq_drop_lastSamples s.hb.len, ← hopen hv, Nat.add_comm s.hb.lookBehind,
    Mem.readList_add, Nat.zero_add, List.drop_left' (Mem.length_readList ..)]

/-! ## The chain controller's operations -/

theorem State.HistoryIs.of_fxHbNew {fs : F32} {mb : Nat} (h : fxHbNew fs mb s = .ok u t) : t.HistoryIs [] := by
  rcases fxHbNew_cases fs mb s with ⟨lb, hlb⟩ | htrap
  · exact .of_hbNew (hlb ▸ h)
  · simp [htrap] at h

/-- FX.NEW constructs the buffer empty, and its later constituents leave it. -/
theorem State.HistoryIs.of_fxConstruct {fs : F32} {mb : Nat} (h : fxConstruct fs mb s = .ok u t) : t.HistoryIs [] := by
  simp only [fxConstruct, Res.bind_eq_ok] at h
  obtain ⟨_, _, -, _, _, -, _, _, hhb, _, _, hlfo, _, _, hcmp, _, _, h0, _, _, h1, _, _, h2, h⟩ := h
  obtain ⟨-, rfl⟩ := (lfoNew_eq_ok ..).mp hlfo
  obtain ⟨-, rfl⟩ := (cmpNew_eq_ok ..).mp hcmp
  obtain ⟨-, -, rfl⟩ := (aafNew_eq_ok ..).mp h0
  obtain ⟨-, -, rfl⟩ := (aafNew_eq_ok ..).mp h1
  obtain ⟨-, -, rfl⟩ := (aafNew_eq_ok ..).mp h2
  cases h
  have hempty := State.HistoryIs.of_fxHbNew hhb
  exact hempty

/-- The chain's resets empty the buffer, and those after HB.RESET leave it. -/
theorem State.HistoryIs.of_resetStages (h : resetStages s = .ok u t) : t.HistoryIs [] := by
  simp only [resetStages, Res.bind_eq_ok] at h
  obtain ⟨_, _, -, _, _, hhb, _, _, hcmp, _, _, h0, _, _, h1, h2⟩ := h
  obtain ⟨-, rfl⟩ := (cmpReset_eq_ok ..).mp hcmp
  obtain ⟨-, -, rfl⟩ := (aafReset_eq_ok ..).mp h0
  obtain ⟨-, -, rfl⟩ := (aafReset_eq_ok ..).mp h1
  obtain ⟨-, -, rfl⟩ := (aafReset_eq_ok ..).mp h2
  have hempty := State.HistoryIs.of_hbReset hhb
  exact hempty

theorem State.HistoryIs.of_fxNew {fs : F32} {mb : Nat} (h : fxNew fs mb s = .ok u t) : t.HistoryIs [] := by
  unfold fxNew at h
  split_ifs at h
  exact .of_fxConstruct (chain_eq_ok _ _ _ _ h)

theorem State.HistoryIs.of_fxReset (h : fxReset s = .ok u t) : t.HistoryIs [] := by
  unfold fxReset at h
  split_ifs at h
  exact .of_resetStages (chain_eq_ok _ _ _ _ h)

theorem State.HistoryIs.of_fxSetproc {on : Word} (h : fxSetproc on s = .ok u t) (hs : s.HistoryIs S) :
    t.HistoryIs (if on = 1#32 then [] else S) := by
  unfold fxSetproc at h
  split_ifs at h ⊢
  · obtain ⟨_, v, hv, h⟩ := (Res.bind_eq_ok ..).mp h
    have hempty := State.HistoryIs.of_resetStages (chain_eq_ok _ _ _ _ hv)
    cases h
    exact hempty
  · cases h
    exact hs

/-- FX.PROCESS gives the buffer the samples its front half compresses, and releases the view it opens (rule R158). -/
theorem State.HistoryIs.of_fxProcess {block : List FxSample} {outs : List F32} (h : fxProcess block s = .ok outs t)
    (hf : s.fault = false) (hwf : s.hbuf.wf = true) (hs : s.HistoryIs S) :
    ∃ front u, hostFront block s = .ok (front, u) ∧ t.HistoryIs (S ++ front.map FrontSample.compressed) := by
  unfold fxProcess at h
  split_ifs at h
  replace h := chain_eq_ok _ _ _ _ h
  simp only [processBlock, Res.bind_eq_ok] at h
  obtain ⟨front, _, hfront, _, v, hprocess, _, _, hback, _, _, hrelease, h⟩ := h
  cases h
  obtain ⟨ws, hhost⟩ := hostFront_of_frontBlock hfront hf s.resp
  refine ⟨front, _, hhost, ?_⟩
  obtain ⟨_, _, _, rfl⟩ := frontBlock_frame hfront
  obtain ⟨_, rfl⟩ := backBlock_frame hback
  have hfed := State.HistoryIs.of_hbProcess hprocess hwf hs
  have hwf' : v.hbuf.wf = true := by
    obtain ⟨-, -, -, -, rfl⟩ := (hbProcess_eq_ok ..).mp hprocess
    exact Mem.wf_writeList _ _ _ hwf
  exact .of_hbRelease hrelease hwf' hfed

end

/-! ## Commands -/

/-- A command that ends without a fault has completed. -/
theorem completed_of_command {α : Type} {words : α → List Word} {op : State → Res α} {s t : State}
    (h : command words op s = .next t) (ht : t.fault = false) : ∃ a u, op s = .ok a u ∧ t = u.respond (words a) := by
  rcases (command_eq_next words op s t).mp h with ⟨hf, rfl⟩ | ⟨-, hok | ⟨c, u, -, rfl⟩⟩
  · simp [hf] at ht
  · exact hok
  · simp at ht

/-- Where a command ends without a fault, its answer leaves the history its operation leaves. -/
theorem State.HistoryIs.of_command {α : Type} {words : α → List Word} {op : State → Res α} {s t : State} {S : List F32}
    (h : command words op s = .next t) (ht : t.fault = false) (hop : ∀ a u, op s = .ok a u → u.HistoryIs S) :
    t.HistoryIs S := by
  obtain ⟨a, u, hu, rfl⟩ := completed_of_command h ht
  exact hop a u hu

/-- Operations of the other units, and the history buffer's own reads, leave the history. -/
theorem State.HistoryIs.of_exec {i : Instr} {s t : State} {S : List F32} (h : exec i s = .next t)
    (hchain : isChainOp i = false) (hnew : .hbNew ∉ actionsOf i) (hrun : .hbRun ∉ actionsOf i) (hs : s.HistoryIs S) :
    t.HistoryIs S := by
  have hans := exec_answered i h
  rw [hchain] at hans
  obtain ⟨u, _, _, _, hu, rfl⟩ := Answered.unit_frame hans
  have hkept : u.HistoryIs S := by
    refine hu.keeps (p := (·.HistoryIs S)) (fun a ha v w hw hv => ?_) hs
    cases hw with
    | hbNew => exact absurd ha hnew
    | hbProcess | hbRelease | hbReset => exact absurd ha hrun
    | _ => exact hv
  exact hkept

/-- Settles O23: nothing is constructed at power-on; then operation by operation, where it completes. -/
theorem historyHoldsTheLastSamples : Obligations.HistoryHoldsTheLastSamples := by
  refine ⟨fun cfg hc => by simp [State.powerOn] at hc, fun i s t S hinv hf hs h ht => ?_⟩
  have hwf := hinv.hbufCanonical
  cases i
  case hbNew => exact ⟨[], rfl, .of_command h ht fun _ _ => .of_hbNew⟩
  case hbProcess xs => exact ⟨S ++ xs, rfl, .of_command h ht fun _ _ hu => .of_hbProcess hu hwf hs⟩
  case hbRelease => exact ⟨S, rfl, .of_command h ht fun _ _ hu => .of_hbRelease hu hwf hs⟩
  case hbReset => exact ⟨[], rfl, .of_command h ht fun _ _ => .of_hbReset⟩
  case fxNew => exact ⟨[], rfl, .of_command h ht fun _ _ => .of_fxNew⟩
  case fxSetproc => exact ⟨_, rfl, .of_command h ht fun _ _ hu => .of_fxSetproc hu hs⟩
  case fxReset => exact ⟨[], rfl, .of_command h ht fun _ _ => .of_fxReset⟩
  case fxProcess block =>
    obtain ⟨outs, u, hu, rfl⟩ := completed_of_command h ht
    obtain ⟨front, v, hfront, hfed⟩ := State.HistoryIs.of_fxProcess hu hf hwf hs
    exact ⟨_, ⟨front, v, hfront, rfl⟩, hfed⟩
  all_goals exact ⟨S, rfl, hs.of_exec h rfl (by simp) (by simp)⟩

end Sys2Proof.Machine
end

section
/-!
The kernel's commands (rules R110 to R115): each faults as its operation does, or writes, word by word, what its rule
gives. The phases a split writes de-interleave to the kernel, loading another kernel clears `PK.sv`, and no other write
touches KRAM or PRAM (rules R112, R114).
-/

namespace Sys2Proof.Machine

/-! ## The words of KRAM after a kernel is loaded -/

/-- Every word of a memory after a list of words is written from index 0 on. -/
theorem Mem.read_writeList_zero (m : Mem) (ws : List Word) (a : Nat) (h : m.wf = true) :
    (m.writeList 0 ws).read a = if a < ws.length then ws.getD a 0#32 else m.read a := by
  simpa using Mem.read_writeList m 0 a ws h

theorem getD_lpfTaps_replaced (increment : F32) {n i : Nat} (hi : i < n) :
    (lpfTaps .replaced n increment).getD i 0#32 = Config.lpfTap n increment i := by
  simp [lpfTaps, hi]

theorem getD_lpfTaps_default (increment : F32) {n i : Nat} (hi : i < n) :
    (lpfTaps .specDefault n increment).getD i 0#32 = defaultTap n increment i := by
  simp [lpfTaps, hi]

theorem ofNat_two : F32.ofNat 2 = F32.two := by decide

/-! ## The words of PRAM after a split -/

/-- Entry `j` of row `p` of `n` rows of `m` entries each, laid end to end. -/
theorem getD_flatMap_range {α : Type} (f : Nat → List α) (d : α) {n m p j : Nat} (hf : ∀ r, (f r).length = m)
    (hp : p < n) (hj : j < m) : ((List.range n).flatMap f).getD (p * m + j) d = (f p).getD j d := by
  have hlen (k : Nat) : ((List.range k).flatMap f).length = k * m := by simp [hf]
  induction n with
  | zero => omega
  | succ n ih =>
    rw [List.range_succ, List.flatMap_append, List.flatMap_singleton]
    rcases Nat.lt_succ_iff_lt_or_eq.mp hp with hlt | rfl
    · have hin : p * m + j < n * m := Nat.mul_comm m p ▸ Nat.mul_add_lt_mul_of_lt_of_lt hlt hj
      rw [List.getD_append _ _ _ _ (by rwa [hlen]), ih hlt]
    · rw [List.getD_append_right _ _ _ _ (by rw [hlen]; omega), hlen, Nat.add_sub_cancel_left]

/-- The index law of rule R113. -/
theorem getD_splitTaps (kernel : List F32) {n m p j : Nat} (hp : p < n) (hj : j < m) :
    (splitTaps kernel n m).getD (p * m + j) 0#32 = kernel.getD ((m - 1 - j) * n + p) 0#32 := by
  rw [splitTaps, getD_flatMap_range _ _ (by simp) hp hj]
  simp [hj]

/-- A split of `n * m` taps writes phase `p` time-reversed at `p * m` (rules R52, R113). -/
theorem Mem.read_split_phase (kram pram : Mem) {n m p j : Nat} (hwf : pram.wf = true) (hp : p < n) (hj : j < m) :
    (pram.writeList 0 (splitTaps (kram.readList 0 (n * m)) n m)).read (p * m + j) =
      kram.read ((m - 1 - j) * n + p) := by
  have hphase : p * m + j < n * m := Nat.mul_comm m p ▸ Nat.mul_add_lt_mul_of_lt_of_lt hp hj
  have htap : (m - 1 - j) * n + p < n * m := by
    rw [Nat.mul_comm _ n, Nat.mul_comm n m]
    exact Nat.mul_add_lt_mul_of_lt_of_lt (by omega) hp
  rw [Mem.read_writeList_zero _ _ _ hwf, length_splitTaps, if_pos hphase, getD_splitTaps _ hp hj,
    Mem.getD_readList _ _ _ _ htap, Nat.zero_add]

/-- A split of `n * m` taps leaves PRAM from there on (rule R113). -/
theorem Mem.read_split_beyond (kernel : List F32) (pram : Mem) {n m a : Nat} (hwf : pram.wf = true) (ha : n * m ≤ a) :
    (pram.writeList 0 (splitTaps kernel n m)).read a = pram.read a := by
  rw [Mem.read_writeList_zero _ _ _ hwf, length_splitTaps, if_neg (by omega)]

/-! ## The split through every step -/

/-- Loading a kernel clears `PK.sv`, a split establishes the law, and no other write touches kernel or phases. -/
theorem Writes.keeps_splitMatches {s t : State} {a : Action} (h : Writes s a t) (hwf : s.pram.wf = true)
    (hs : s.splitMatches) : t.splitMatches := by
  cases h with
  | load => exact fun hsv => absurd hsv (by simp)
  | split n hkv hn hdvd hfit =>
    have hmul : n * (s.pk.kLen / n) = s.pk.kLen := Nat.mul_div_cancel' (Nat.dvd_of_mod_eq_zero hdvd)
    refine fun _ => ⟨hmul.symm, fun k p (hk : k < s.pk.kLen / n) (hp : p < n) => ?_⟩
    have hj : s.pk.kLen / n - 1 - k < s.pk.kLen / n := by omega
    have hread := Mem.read_split_phase s.kram s.pram hwf hp hj
    rw [hmul, Nat.sub_sub_self (Nat.le_sub_one_of_lt hk)] at hread
    exact hread.symm
  | _ => exact hs

theorem Writes.keeps_pram_wf {s t : State} {a : Action} (h : Writes s a t) (hwf : s.pram.wf = true) :
    t.pram.wf = true := by
  cases h with
  | split => exact Mem.wf_writeList _ _ _ hwf
  | _ => exact hwf

theorem splitMatches_invariant : Invariant (fun _ => True) fun s => s.pram.wf = true ∧ s.splitMatches :=
  .of_blind (fun _ hw ⟨hwf, hs⟩ => ⟨hw.keeps_pram_wf hwf, hw.keeps_splitMatches hwf hs⟩) (fun _ h => h)
    fun _ _ _ _ _ h => h

/-- Settles O22: nothing is split at power-on, and every write of an operation keeps the law in a canonical PRAM. -/
theorem phasesAlwaysMatchTheKernel : Obligations.PhasesAlwaysMatchTheKernel :=
  ⟨fun _ hsv => absurd hsv (by simp [State.powerOn]),
    fun _ _ hinv hs h => (splitMatches_invariant.step h ⟨hinv.pramCanonical, hs⟩).2⟩

/-! ## The commands -/

theorem isPositive_iff (w : F32) : isPositive w = true ↔ F32.isFinite w = true ∧ F32.lt F32.zero w = true := by
  simp [isPositive]

/-- Settles O41: a kernel whose length `n` divides fits KRAM and PRAM, and its phases are laid end to end. -/
theorem pkSplitDeinterleavesTheKernel : Obligations.PkSplitDeinterleavesTheKernel := by
  intro s n hs
  have htrap {c : Cause} := pkSplit_eq_trap (countOf n) s s c
  refine ⟨command_of_fault _ _ s, fun hf hkv => ?_, fun hf hkv => ⟨fun hn hdvd => ?_, fun hbad => ?_⟩⟩
  · exact command_of_precise_trap _ hf (htrap.mpr ⟨rfl, .inl ⟨hkv, rfl⟩⟩)
  · have hmul : n.toNat * (s.pk.kLen / n.toNat) = s.pk.kLen := Nat.mul_div_cancel' (Nat.dvd_of_mod_eq_zero hdvd)
    refine ⟨_, command_of_ok _ _ s _ () hf ((pkSplit_eq_ok ..).mpr ⟨hkv, hn, hdvd, (hs.kernelSized hkv).2, rfl⟩), rfl,
      fun p j hp hj => ?_, fun a ha => ?_⟩
    · have hread := Mem.read_split_phase s.kram s.pram hs.pramCanonical hp hj
      rwa [hmul] at hread
    · exact Mem.read_split_beyond _ _ hs.pramCanonical (hmul.trans_le ha)
  · exact command_of_precise_trap _ hf (htrap.mpr ⟨rfl, .inr ⟨hkv, hbad, rfl⟩⟩)

/-- Settles O39: the words below `length` are the taps of the machine's law. -/
theorem pkLpfBuildsTheKernel : Obligations.PkLpfBuildsTheKernel := by
  intro s length increment hs
  refine ⟨command_of_fault _ _ s, fun hf => ⟨fun hlow hhigh hfin hpos => ?_, fun hbad => ?_⟩⟩
  · have hok := (pkLpf_eq_ok (countOf length) increment s _ ()).mpr
      ⟨⟨isCount_countOf length, hlow, hhigh⟩, (isPositive_iff increment).mpr ⟨hfin, hpos⟩, rfl⟩
    have hread (a : Nat) := Mem.read_writeList_zero s.kram (lpfTaps s.cfg.lpf length.toNat increment) a hs.kramCanonical
    simp only [length_lpfTaps] at hread
    refine ⟨_, command_of_ok _ _ s _ () hf hok, rfl, fun a ha => ?_, fun hlaw i hi => ?_, fun hlaw i hi => ?_⟩
    · exact (hread a).trans (if_neg (by omega))
    · exact (hread i).trans (by rw [if_pos hi, hlaw, getD_lpfTaps_replaced increment hi])
    · rintro x u sinc window rfl rfl rfl rfl
      refine (hread i).trans ?_
      rw [if_pos hi, hlaw, getD_lpfTaps_default increment hi, ofNat_two]
      rfl
  · refine command_of_precise_trap _ hf ((pkLpf_eq_trap ..).mpr ⟨fun ⟨⟨_, hlow, hhigh⟩, hpos⟩ => hbad ?_, rfl, rfl⟩)
    exact ⟨hlow, hhigh, (isPositive_iff increment).mp hpos⟩

/-- Settles O40 by the two outcomes of the operation, according to its check. -/
theorem pkLoadkLoadsTheTaps : Obligations.PkLoadkLoadsTheTaps := by
  refine fun s taps hs => ⟨command_of_fault _ _ s, fun hf => ⟨fun hlow hhigh hcount => ?_, fun hbad => ?_⟩⟩
  · have hok := (pkLoadk_eq_ok taps s _ ()).mpr ⟨⟨(isCount_iff _).mpr hcount, hlow, hhigh⟩, rfl⟩
    exact ⟨_, command_of_ok _ _ s _ () hf hok, rfl, fun a => Mem.read_writeList_zero s.kram taps a hs.kramCanonical⟩
  · refine command_of_precise_trap _ hf ((pkLoadk_eq_trap ..).mpr ⟨fun ⟨hcount, hlow, hhigh⟩ => hbad ?_, rfl, rfl⟩)
    exact ⟨hlow, hhigh, (isCount_iff _).mp hcount⟩

end Sys2Proof.Machine
end

section
/-!
The delay line's command (rules R120 to R122): each check of a read in its order, the window and the phase a read takes,
and the one dot product it answers.
-/

namespace Sys2Proof.Machine

variable {s : State} {i : Nat} {delay : F32}

/-! ## The phase selector -/

/-- A phase index is below the number of phases, under either law (rules R120, R121; log 7). -/
theorem phaseSel_lt (law : Law) (delay : F32) {n : Nat} (m : Nat) (hn : 1 ≤ n) : (phaseSel law delay n m).2 < n := by
  cases law with
  | replaced => exact Nat.mod_lt _ hn
  | specDefault =>
    simp only [phaseSel, defaultPhaseSel]
    split
    · exact hn
    · exact Nat.sub_lt hn (Nat.pos_of_ne_zero ‹_›)

/-- The default window offset is `D - h`, or one sample further back (rule R121). -/
theorem defaultPhaseSel_back (delay : F32) (n m : Nat) :
    (defaultPhaseSel delay n m).1 = (F32.floorNat delay : Int) - (m / 2 : Nat) ∨
      (defaultPhaseSel delay n m).1 = (F32.floorNat delay : Int) + 1 - (m / 2 : Nat) := by
  simp only [defaultPhaseSel]
  split
  · exact .inl rfl
  · exact .inr rfl

/-! ## The dot product -/

/-- The dot product of two ranges of words, in ascending order (rule R120). -/
theorem dotProduct_readList (pram hbuf : Mem) (a b n : Nat) :
    dotProduct (pram.readList a n) (hbuf.readList b n) =
      (List.range n).foldl (fun acc j => F32.add acc (F32.mul (pram.read (a + j)) (hbuf.read (b + j)))) F32.zero := by
  rw [dotProduct, Mem.readList_eq_map, Mem.readList_eq_map, List.zip_map', List.foldl_map]

/-! ## Fit -/

/-- A phase of a split kernel fits PRAM (rules R24, R114). -/
theorem State.Inv.phase_fits (hs : s.Inv) (hsv : s.pk.sv = true) {p : Nat} (hp : p < s.pk.nPhases) :
    p * s.pk.m + s.pk.m ≤ s.cfg.kramWords := by
  obtain ⟨hkv, -, -, hsize⟩ := hs.splitSized hsv
  calc p * s.pk.m + s.pk.m = (p + 1) * s.pk.m := (Nat.succ_mul p s.pk.m).symm
    _ ≤ s.pk.nPhases * s.pk.m := Nat.mul_le_mul_right _ hp
    _ = s.pk.kLen := hsize
    _ ≤ s.cfg.kramWords := (hs.kernelSized hkv).2

/-! ## The checks of a read, in order -/

theorem dlRead_of_not_constructed (h : s.hb.c = false ∨ s.pk.sv = false) :
    dlRead i delay s = .trap .notConstructed s := by
  rcases h with h | h <;> simp [dlRead, h]

section Constructed

variable (hc : s.hb.c = true) (hsv : s.pk.sv = true)
include hc hsv

theorem dlRead_of_closed (hv : s.hb.view = false) : dlRead i delay s = .trap .viewState s := by
  simp [dlRead, hc, hsv, hv]

variable (hv : s.hb.view = true)
include hv

theorem dlRead_of_sample_outside (hi : s.hb.len ≤ i) : dlRead i delay s = .trap .range s := by
  simp [dlRead, hc, hsv, hv, hi]

variable (hi : i < s.hb.len)
include hi

theorem dlRead_of_bad_delay (hd : isNonNegative delay = false) : dlRead i delay s = .trap .badParam s := by
  simp [dlRead, hc, hsv, hv, hi, hd]

variable (hd : isNonNegative delay = true)
include hd

theorem dlRead_of_window_outside
    (h : (readWindow i delay s).2 < 0 ∨ (s.hb.lookBehind : Int) + s.hb.len - 1 < (readWindow i delay s).1) :
    dlRead i delay s = .trap .range s := by
  simp only [dlRead, hc, hsv, hv, hd, not_le.mpr hi, Bool.and_self, Bool.not_true, Bool.false_eq_true, ↓reduceIte]
  exact if_pos h

/-- A window inside the view fits HBUF and its phase fits PRAM, so the read completes and writes nothing. -/
theorem dlRead_of_window_inside (hs : s.Inv) (hlow : 0 ≤ (readWindow i delay s).2)
    (hhigh : (readWindow i delay s).1 ≤ (s.hb.lookBehind : Int) + s.hb.len - 1) :
    dlRead i delay s = .ok (dotProduct
      (s.pram.readList ((phaseSel s.cfg.phaseSel delay s.pk.nPhases s.pk.m).2 * s.pk.m) s.pk.m)
      (s.hbuf.readList (readWindow i delay s).2.toNat s.pk.m)) s := by
  obtain ⟨-, hphases, -, -⟩ := hs.splitSized hsv
  have hview := hs.view_fits hc
  have hfit : (readWindow i delay s).2.toNat + s.pk.m ≤ s.cfg.hbufWords := by
    simp only [readWindow] at hlow hhigh ⊢
    omega
  have htaps := (memRead_pram_eq_ok _ _ s s _).mpr
    ⟨hs.phase_fits hsv (phaseSel_lt s.cfg.phaseSel delay s.pk.m hphases), rfl, rfl⟩
  have hwindow := (memRead_hbuf_eq_ok _ _ s s _).mpr ⟨hfit, rfl, rfl⟩
  simp only [readWindow] at hlow hhigh hwindow ⊢
  simp [dlRead, hc, hsv, hv, not_le.mpr hi, hd, htaps, hwindow, not_lt.mpr hlow, not_lt.mpr hhigh]

end Constructed

/-! ## The command -/

/-- Settles O42: the selector's words are the model's, so the window is the one the operation checks and reads. -/
theorem dlReadIsOneDotProduct : Obligations.DlReadIsOneDotProduct := by
  refine fun s i delay back p hs => ⟨command_of_fault _ _ s, fun hf hnew => ?_, fun hf hc hsv hreplaced hdefault => ?_⟩
  · exact command_of_precise_trap _ hf (dlRead_of_not_constructed hnew)
  have hsel : phaseSel s.cfg.phaseSel delay s.pk.nPhases s.pk.m = (back, p) := by
    cases hlaw : s.cfg.phaseSel with
    | specDefault =>
      obtain ⟨hwhole, hpart⟩ := hdefault hlaw _ _ rfl rfl
      simp only [phaseSel, defaultPhaseSel]
      split <;> rename_i hr
      · obtain ⟨rfl, rfl⟩ := hwhole hr
        rfl
      · obtain ⟨rfl, rfl⟩ := hpart hr
        rfl
    | replaced =>
      obtain ⟨rfl, rfl⟩ := hreplaced hlaw
      rfl
  refine ⟨fun hv => ?_, fun hv hi => ?_, fun hv hi hd => ?_, fun hv hi hd a start ha hstart => ?_⟩
  · exact command_of_precise_trap _ hf (dlRead_of_closed hc hsv hv)
  · exact command_of_precise_trap _ hf (dlRead_of_sample_outside hc hsv hv hi)
  · exact command_of_precise_trap _ hf (dlRead_of_bad_delay hc hsv hv hi hd)
  · have hwindow : readWindow i.toNat delay s = (a, start) := by
      rw [readWindow, hsel, hstart, ha]
    refine ⟨fun hout => ?_, fun hlow hhigh => ?_⟩
    · exact command_of_precise_trap _ hf (dlRead_of_window_outside hc hsv hv hi hd (by rwa [hwindow]))
    · have hread := dlRead_of_window_inside hc hsv hv hi hd hs (by rwa [hwindow]) (by rwa [hwindow])
      rw [hsel, hwindow, dotProduct_readList] at hread
      exact command_of_ok _ _ s s _ hf hread

/-- Settles O43: the default offset puts the window's last word at sample `i` or before, its first at index 0 or after. -/
theorem sizedDelaysAreReadable : Obligations.SizedDelaysAreReadable := by
  rintro s i delay hs hf hc hsv hv hlaw hi ⟨hd, hcausal, hsized⟩
  have hback := defaultPhaseSel_back delay s.pk.nPhases s.pk.m
  have hread := dlRead_of_window_inside (i := countOf i) hc hsv hv hi hd hs
  simp only [readWindow, hlaw, phaseSel, countOf] at hread
  exact ⟨_, command_of_ok _ _ s s _ hf (hread (by omega) (by omega))⟩

end Sys2Proof.Machine
end

section
/-!
The compander's commands (rules R130 to R134): each faults as its operation does, or answers and writes what its rule
gives.
-/

namespace Sys2Proof.Machine

/-- `f32(0.010)`, the release time in seconds (rule R130). -/
theorem tauRelease_eq : tauRelease = 0x3C23D70A#32 := by decide

/-- Settles O44: the coefficients are those of the two time constants, and the check is the operation's own. -/
theorem cmpNewConstructsTheDetector : Obligations.CmpNewConstructsTheDetector := by
  refine fun s fs => ⟨command_of_fault _ _ s, fun hf => ⟨fun hpos => ?_, fun hpos => ?_⟩⟩
  · rw [← tauRelease_eq]
    exact command_of_ok _ _ s _ () hf ((cmpNew_eq_ok ..).mpr ⟨hpos, rfl⟩)
  · exact command_of_precise_trap _ hf ((cmpNew_eq_trap ..).mpr ⟨hpos, rfl, rfl⟩)

/-- Settles O45: the envelope the rule names is the one the operation computes. -/
theorem cmpDetectMovesTheEnvelope : Obligations.CmpDetectMovesTheEnvelope := by
  refine fun s x c env => ⟨command_of_fault _ _ s, fun hf hc => ?_, fun hf hc hcoeff henv => ?_⟩
  · exact command_of_precise_trap _ hf ((cmpDetect_eq_trap ..).mpr ⟨hc, rfl, rfl⟩)
  · obtain rfl : env = envelopeAfter s.cmp x := by rw [henv, hcoeff, envelopeAfter]
    exact command_of_ok _ _ s _ _ hf ((cmpDetect_eq_ok ..).mpr ⟨hc, rfl, rfl⟩)

/-- Settles O46 by the two outcomes of the operation. -/
theorem cmpResetRestoresOne : Obligations.CmpResetRestoresOne := by
  refine fun s => ⟨command_of_fault _ _ s, fun hf hc => ?_, fun hf hc => ?_⟩
  · exact command_of_precise_trap _ hf ((cmpReset_eq_trap ..).mpr ⟨hc, rfl, rfl⟩)
  · exact command_of_ok _ _ s _ () hf ((cmpReset_eq_ok ..).mpr ⟨hc, rfl⟩)

/-- Settles O47: both operations complete in every state and leave it as it is. -/
theorem compressAndExpandAreStateless : Obligations.CompressAndExpandAreStateless := by
  refine fun s signal level => ⟨command_of_fault oneWord (cmpCompress signal level) s,
    command_of_fault oneWord (cmpExpand signal level) s, fun hf => ⟨?_, ?_⟩⟩
  · exact command_of_ok _ _ s s _ hf (cmpCompress_eq signal level s)
  · exact command_of_ok _ _ s s _ hf (cmpExpand_eq signal level s)

end Sys2Proof.Machine
end

section
/-!
The waveshaper's command (rule R140): it answers the shaped sample and changes nothing else.
-/

namespace Sys2Proof

/-! ## NaN -/

theorem F32.mag_abs (w : F32) : F32.mag (F32.abs w) = F32.mag w := by
  have habs : (F32.abs w).toNat = w.toNat &&& (2 ^ 31 - 1) := BitVec.toNat_and w 0x7FFFFFFF#32
  rw [F32.mag, F32.mag, habs, Nat.and_two_pow_sub_one_eq_mod, Nat.mod_mod]

theorem F32.isNaN_abs (w : F32) : F32.isNaN (F32.abs w) = F32.isNaN w := by
  rw [F32.isNaN, F32.mag_abs, F32.isNaN]

/-- The exponent field and the quiet bit are set whatever the free value is (log 8). -/
theorem F32.isNaN_madeNaN (op : FloatOp) (a b : F32) : F32.isNaN (F32.madeNaN op a b) = true := by
  have hquiet : 0x7FC00000 ≤ F32.mag (F32.madeNaN op a b) := by
    rw [F32.madeNaN, F32.mag, BitVec.toNat_or, Nat.or_mod_two_pow]
    exact Nat.right_le_or
  exact decide_eq_true (lt_of_lt_of_le (by decide) hquiet)

theorem F32.isNaN_sub_of_left {a : F32} (b : F32) (ha : F32.isNaN a = true) : F32.isNaN (F32.sub a b) = true := by
  rw [F32.sub, if_pos (.inl ha)]
  exact F32.isNaN_madeNaN ..

end Sys2Proof

namespace Sys2Proof.Machine

/-! ## The regions -/

theorem nlA_eq : nlA = 0x3B800000#32 := by decide

theorem nlB_eq : nlB = 0x3AE38E39#32 := by decide

theorem shape_of_above_one {x : F32} (hout : F32.lt F32.one (F32.abs x) = true) (hpos : F32.lt F32.zero x = true) :
    shape x = F32.sub x (F32.add 0x3B800000#32 0x3AE38E39#32) := by
  rw [shape, if_pos hout, if_pos hpos, nlA_eq, nlB_eq]

theorem shape_of_below_minus_one {x : F32} (hout : F32.lt F32.one (F32.abs x) = true)
    (hneg : F32.lt F32.zero x = false) : shape x = F32.add x (F32.add 0x3B800000#32 0x3AE38E39#32) := by
  rw [shape, if_pos hout, if_neg (Bool.eq_false_iff.mp hneg), nlA_eq, nlB_eq]

theorem shape_of_inside {x : F32} (hin : F32.lt F32.one (F32.abs x) = false) :
    shape x = F32.sub (F32.sub x (F32.mul 0x3B800000#32 (F32.mul x x)))
      (F32.mul 0x3AE38E39#32 (F32.mul (F32.mul x x) x)) := by
  rw [shape, if_neg (Bool.eq_false_iff.mp hin), nlA_eq, nlB_eq]

/-- The cubic at -0.0 is `(-0.0) - (-0.0)`, which rounds to +0.0. -/
theorem shape_of_zero {x : F32} (hx : x = 0x00000000#32 ∨ x = 0x80000000#32) : shape x = 0x00000000#32 := by
  obtain rfl | rfl := hx <;> decide

/-- A NaN is not above 1, and each difference of the cubic has it on the left. -/
theorem isNaN_shape {x : F32} (hx : F32.isNaN x = true) : F32.isNaN (shape x) = true := by
  have hin : F32.lt F32.one (F32.abs x) = false := by simp [F32.lt, F32.isNaN_abs, hx]
  rw [shape_of_inside hin]
  exact F32.isNaN_sub_of_left _ (F32.isNaN_sub_of_left _ hx)

/-! ## The command -/

/-- Settles O48: the command answers the shaped sample, whose regions, zeros and NaN the lemmas above give. -/
theorem nlShapeIsTheCubic : Obligations.NlShapeIsTheCubic := by
  refine fun s x => ⟨command_of_fault oneWord (nlShape x) s, fun hf => ?_⟩
  have hanswer : exec (.nlShape x) s = .next { s with resp := [shape x] } :=
    command_of_ok _ _ s s _ hf (nlShape_eq x s)
  rw [hanswer]
  refine ⟨fun hout hpos => ?_, fun hout hneg => ?_, fun hin => ?_, fun hzero => ?_, fun hnan => ?_⟩
  · rw [shape_of_above_one hout hpos]
  · rw [shape_of_below_minus_one hout hneg]
  · rw [shape_of_inside hin]
  · rw [shape_of_zero hzero]
  · exact ⟨shape x, isNaN_shape hnan, rfl⟩

end Sys2Proof.Machine
end

section
/-!
The filters' commands (rules R145 to R149): each faults as its operation does, or answers and writes what its rule gives;
a disabled filter in its zero state is silent.
-/

namespace Sys2Proof.Machine

/-! ## The constants -/

theorem aafCutoff_eq : aafCutoff = 0x461C4000#32 := by decide

/-- The threshold is exactly 22000 Hz (rule R145). -/
theorem aafThreshold_eq : aafThreshold = 0x46ABE000#32 := by decide

/-! ## The coefficient -/

/-- A coefficient described case by case, as rules R145 and R148 do, is the one AAF.NEW writes. -/
theorem eq_aafCoefficient {law : Law} {fs : F32} {g : Option F32} (hdisabled : F32.le fs 0x46ABE000#32 = true → g = none)
    (hdefault : F32.le fs 0x46ABE000#32 = false → law = .specDefault →
      g = some (Config.tan (F32.div (F32.mul F32.pi 0x461C4000#32) fs)))
    (hreplaced : F32.le fs 0x46ABE000#32 = false → law = .replaced → g = some (Config.svfG 0x461C4000#32 fs)) :
    g = if F32.le fs aafThreshold then none else some (svfCoefficient law aafCutoff fs) := by
  rw [aafThreshold_eq, aafCutoff_eq]
  split_ifs with hle
  · exact hdisabled hle
  · have habove := Bool.eq_false_of_not_eq_true hle
    cases law with
    | specDefault => exact hdefault habove rfl
    | replaced => exact hreplaced habove rfl

/-! ## The cascade -/

/-- A stage runs `SVF_FN` once; without a coefficient on the input +0.0 (rule R146). -/
theorem stageStep_of_svf {law : Law} {g : Option F32} {kd x : F32} {st : Stage} {r : F32 × F32 × F32}
    (hr : r = svf law (g.getD 0#32) kd st.s0 st.s1 (if g = none then 0#32 else x)) :
    stageStep law g kd st x = (⟨r.1, r.2.1⟩, r.2.2) := by
  subst hr
  cases g <;> rfl

/-- Stage 1 runs on stage 0's output. -/
theorem aafFilter_of_svf {law : Law} {f : Aaf} {x : F32} {r0 r1 : F32 × F32 × F32}
    (h0 : r0 = svf law (f.g.getD 0#32) 0x3F43EF15#32 f.stage0.s0 f.stage0.s1 (if f.g = none then 0#32 else x))
    (h1 : r1 = svf law (f.g.getD 0#32) 0x3FEC835E#32 f.stage1.s0 f.stage1.s1 (if f.g = none then 0#32 else r0.2.2)) :
    aafFilter law f x = ({ f with stage0 := ⟨r0.1, r0.2.1⟩, stage1 := ⟨r1.1, r1.2.1⟩ }, r1.2.2) := by
  rw [aafFilter, aafK0, aafK1, stageStep_of_svf h0, stageStep_of_svf h1]

/-! ## Silence -/

/-- With the filter's own dampings the recursion keeps silence; a replaced one does so by rule R148 (log 7). -/
theorem svf_silent (law : Law) {kd : F32} (hkd : kd = aafK0 ∨ kd = aafK1) :
    svf law F32.zero kd F32.zero F32.zero F32.zero = (F32.zero, F32.zero, F32.zero) := by
  cases law with
  | specDefault => obtain rfl | rfl := hkd <;> decide
  | replaced => simp [svf]

theorem stageStep_disabled (law : Law) {kd : F32} (hkd : kd = aafK0 ∨ kd = aafK1) (x : F32) :
    stageStep law none kd zeroStage x = (zeroStage, F32.zero) := by
  simp [stageStep, zeroStage, svf_silent law hkd]

theorem aafFilter_disabled (law : Law) (c : Bool) (x : F32) :
    aafFilter law ⟨c, none, zeroStage, zeroStage⟩ x = (⟨c, none, zeroStage, zeroStage⟩, F32.zero) := by
  simp only [aafFilter, stageStep_disabled law (.inl rfl), stageStep_disabled law (.inr rfl)]

/-! ## The commands -/

/-- Settles O52: both stages of the disabled filter keep silence, whatever the input. -/
theorem disabledFilterIsSilent : Obligations.DisabledFilterIsSilent := by
  intro s k x hf hk hfilter
  have hrun : aafFilter s.cfg.svf (s.aaf.get k.toNat) x = (s.aaf.get k.toNat, F32.zero) := by
    rw [hfilter]
    exact aafFilter_disabled s.cfg.svf true x
  have hok := (aafStep_eq_ok k.toNat x s _ _).mpr ⟨hk, by rw [hfilter], rfl, rfl⟩
  rw [hrun] at hok
  exact ⟨_, command_of_ok _ _ s _ _ hf hok, rfl, AafBank.get_set_same ..⟩

/-- Settles O49: the coefficient is that of the machine's law, and the checks are the operation's own. -/
theorem aafNewConstructsTheInstance : Obligations.AafNewConstructsTheInstance := by
  intro s k fs
  have htrap {c : Cause} := aafNew_eq_trap k.toNat fs s s c
  refine ⟨command_of_fault _ _ s, fun hf hk => ?_, fun hf hk => ⟨fun hpos g hdisabled hdefault hreplaced => ?_,
    fun hpos => ?_⟩⟩
  · exact command_of_precise_trap _ hf (htrap.mpr ⟨rfl, .inl ⟨hk, rfl⟩⟩)
  · rw [eq_aafCoefficient hdisabled hdefault hreplaced]
    exact command_of_ok _ _ s _ () hf ((aafNew_eq_ok ..).mpr ⟨hk, hpos, rfl⟩)
  · exact command_of_precise_trap _ hf (htrap.mpr ⟨rfl, .inr ⟨hk, hpos, rfl⟩⟩)

/-- Settles O50: the two runs of `SVF_FN` the rule names are the operation's, and so is the default recursion. -/
theorem aafStepRunsTheTwoStages : Obligations.AafStepRunsTheTwoStages := by
  intro s k x f r0 r1
  have htrap {c : Cause} := aafStep_eq_trap k.toNat x s s c
  refine ⟨command_of_fault _ _ s, fun hf hk => ?_, fun hf hk hc => ?_, fun hf hk hget hc h0 h1 => ⟨?_, ?_⟩⟩
  · exact command_of_precise_trap _ hf (htrap.mpr ⟨rfl, .inl ⟨hk, rfl⟩⟩)
  · exact command_of_precise_trap _ hf (htrap.mpr ⟨rfl, .inr ⟨hk, hc, rfl⟩⟩)
  · subst hget
    have hok := (aafStep_eq_ok k.toNat x s _ _).mpr ⟨hk, hc, rfl, rfl⟩
    rw [aafFilter_of_svf h0 h1] at hok
    exact command_of_ok _ _ s _ _ hf hok
  · rintro g kd s0 s1 y d hp v1 bp v2 lp rfl rfl rfl rfl rfl rfl
    rfl

/-- Settles O51 by the outcomes of the operation. -/
theorem aafResetZeroesTheState : Obligations.AafResetZeroesTheState := by
  intro s k
  have htrap {c : Cause} := aafReset_eq_trap k.toNat s s c
  refine ⟨command_of_fault _ _ s, fun hf hk => ?_, fun hf hk hc => ?_, fun hf hk hc => ?_⟩
  · exact command_of_precise_trap _ hf (htrap.mpr ⟨rfl, .inl ⟨hk, rfl⟩⟩)
  · exact command_of_precise_trap _ hf (htrap.mpr ⟨rfl, .inr ⟨hk, hc, rfl⟩⟩)
  · exact command_of_ok _ _ s _ () hf ((aafReset_eq_ok ..).mpr ⟨hk, hc, rfl⟩)

end Sys2Proof.Machine
end

section
/-!
The chain controller's resets and modes (rules R156, R159): in a constructed chain without an open view every reset
completes, and the checks before them fault in their order.
-/

namespace Sys2Proof.Machine

variable {s : State}

/-! ## The resets -/

/-- A filter as AAF.RESET leaves it (rule R147). -/
def Aaf.cleared (f : Aaf) : Aaf := { f with stage0 := zeroStage, stage1 := zeroStage }

/-- The state that the resets of rules R156 and R159 leave. -/
def State.stagesReset (s : State) : State :=
  { s with
    lfo := { s.lfo with phase := F32.zero, output := none }
    hbuf := s.hbuf.zeroFill (s.hb.lookBehind + s.hb.maxBlock)
    cmp := { s.cmp with env := F32.one }
    aaf := { s.aaf with f0 := s.aaf.f0.cleared, f1 := s.aaf.f1.cleared, f2 := s.aaf.f2.cleared } }

theorem resetStages_of_constructed (hs : s.Inv) (hc : s.fx.c = true) (hv : s.hb.view = false) :
    resetStages s = .ok () s.stagesReset := by
  obtain ⟨hlfo, hhb, hcmp, h0, h1, h2, hn⟩ := hs.chainConstructed hc
  simp only [resetStages, Res.bind_eq_ok]
  exact ⟨(), _, (lfoReset_eq_ok ..).mpr ⟨hlfo, rfl⟩, (), _,
    (hbReset_eq_ok ..).mpr ⟨hhb, hv, hs.block_fits hhb le_rfl, rfl⟩, (), _, (cmpReset_eq_ok ..).mpr ⟨hcmp, rfl⟩, (), _,
    (aafReset_eq_ok ..).mpr ⟨Nat.lt_of_lt_of_le (by decide) hn, h0, rfl⟩, (), _,
    (aafReset_eq_ok ..).mpr ⟨Nat.lt_of_lt_of_le (by decide) hn, h1, rfl⟩, (aafReset_eq_ok ..).mpr ⟨hn, h2, rfl⟩⟩

theorem fxReset_of_constructed (hs : s.Inv) (hc : s.fx.c = true) (hv : s.hb.view = false) :
    fxReset s = .ok () s.stagesReset := by
  simp [fxReset, hc, hv, resetStages_of_constructed hs hc hv, chain_of_ok]

/-- The state FX.SETPROC 1 leaves: every stage reset, Running. -/
def State.started (s : State) : State := { s.stagesReset with fx := { s.fx with run := true } }

theorem fxSetproc_one (hs : s.Inv) (hc : s.fx.c = true) (hv : s.hb.view = false) :
    fxSetproc 1#32 s = .ok () s.started := by
  simp [fxSetproc, isBoolWord, hc, hv, resetStages_of_constructed hs hc hv, chain_of_ok]
  rfl

/-! ## The commands -/

/-- Settles O54: with a view closed the resets complete; each check in front of them faults precisely. -/
theorem fxSetprocSwitchesTheMode : Obligations.FxSetprocSwitchesTheMode := by
  intro s on hs
  refine ⟨command_of_fault _ _ s, fun hf hc => ?_, fun hf hc => ⟨fun hon hv => ?_, fun hon => ?_, fun h0 h1 => ?_,
    fun hon hv => ?_⟩⟩
  · exact command_of_precise_trap (c := .notConstructed) _ hf (by simp [fxSetproc, hc])
  · subst hon
    exact ⟨_, command_of_ok _ _ s _ () hf (fxSetproc_one hs hc hv), rfl, Mem.read_zeroFill _ _⟩
  · subst hon
    have hok : fxSetproc 0#32 s = .ok () { s with fx := { s.fx with run := false } } := by
      simp [fxSetproc, hc, isBoolWord]
    exact command_of_ok _ _ s _ () hf hok
  · exact command_of_precise_trap (c := .badParam) _ hf (by simp [fxSetproc, hc, isBoolWord, h0, h1])
  · exact command_of_precise_trap (c := .viewState) _ hf (by simp [fxSetproc, hc, isBoolWord, hon, hv])

/-- Settles O55: with a view closed the resets complete; each check in front of them faults precisely. -/
theorem fxResetResetsEveryStage : Obligations.FxResetResetsEveryStage := by
  refine fun s hs => ⟨command_of_fault _ _ s, fun hf hc => ?_, fun hf hc => ⟨fun hv => ?_, fun hv => ?_⟩⟩
  · exact command_of_precise_trap (c := .notConstructed) _ hf (by simp [fxReset, hc])
  · exact ⟨_, command_of_ok _ _ s _ () hf (fxReset_of_constructed hs hc hv), rfl, Mem.read_zeroFill _ _⟩
  · exact command_of_precise_trap (c := .viewState) _ hf (by simp [fxReset, hc, hv])

end Sys2Proof.Machine
end

section
/-!
Replay (rules R163, R192, R195): two states that differ at most in the last response and, where no view is open, in
`HB.len` go on alike under every operation, since none reads the response, and none the length of a closed view.
-/

namespace Sys2Proof.Machine

/-! ## States alike -/

/-- The state with another last response and another `HB.len`. -/
def State.relabel (s : State) (ws : List Word) (n : Nat) : State := { s with resp := ws, hb := { s.hb with len := n } }

/-- `t` is `s` but for the last response and for `HB.len`, which agrees where a view is open. -/
def State.Alike (s t : State) : Prop := ∃ ws n, t = s.relabel ws n ∧ (s.hb.view = true → n = s.hb.len)

/-- Two operations go on alike: both complete with the same result, fault with the same cause, or stop alike. -/
inductive Res.Alike {α : Type} : Res α → Res α → Prop
  | ok (a : α) {s t : State} (h : s.Alike t) : Alike (.ok a s) (.ok a t)
  | trap (c : Cause) {s t : State} (h : s.Alike t) : Alike (.trap c s) (.trap c t)
  | stop (f : Fault) : Alike (.stop f) (.stop f)

/-- An operation that goes on alike from states alike. -/
def KeepsAlike {α : Type} (op : State → Res α) : Prop := ∀ s t, s.Alike t → (op s).Alike (op t)

section
variable {α β : Type}

theorem State.Alike.respond {s t : State} (h : s.Alike t) (ws : List Word) : (s.respond ws).Alike (t.respond ws) := by
  obtain ⟨_, n, rfl, hn⟩ := h
  exact ⟨ws, n, rfl, hn⟩

theorem State.Alike.unspecified {s t : State} (h : s.Alike t) : s.unspecified.Alike t.unspecified := by
  obtain ⟨ws, n, rfl, -⟩ := h
  exact ⟨ws, _, rfl, fun _ => rfl⟩

theorem Res.Alike.bind {r r' : Res α} {k k' : α → State → Res β} (hr : r.Alike r')
    (hk : ∀ a s t, s.Alike t → (k a s).Alike (k' a t)) : (r.bind k).Alike (r'.bind k') := by
  cases hr with
  | ok a h => exact hk a _ _ h
  | trap c h => exact .trap c h
  | stop f => exact .stop f

/-- Chains whose constituents go on alike do, and draw the same free values where they fault. -/
theorem Res.Alike.chain {first first' : Res α} {whole whole' : Res β} (hf : first.Alike first')
    (hw : whole.Alike whole') : (chain first whole).Alike (Machine.chain first' whole') := by
  cases hf with
  | trap => exact hw
  | ok | stop =>
    cases hw with
    | ok a h => exact .ok a h
    | trap c h => exact .trap c h.unspecified
    | stop f => exact .stop f

theorem Res.Alike.ite {b : Prop} [Decidable b] {r₁ r₂ t₁ t₂ : Res α} (h₁ : b → r₁.Alike t₁) (h₂ : ¬b → r₂.Alike t₂) :
    (if b then r₁ else r₂).Alike (if b then t₁ else t₂) := by
  split
  · exact h₁ ‹_›
  · exact h₂ ‹_›

theorem KeepsAlike.bind {op : State → Res α} {k : α → State → Res β} (hop : KeepsAlike op)
    (hk : ∀ a, KeepsAlike (k a)) : KeepsAlike fun s => (op s).bind k :=
  fun s t h => (hop s t h).bind hk

theorem KeepsAlike.chain {first : State → Res α} {whole : State → Res β} (hf : KeepsAlike first)
    (hw : KeepsAlike whole) : KeepsAlike fun s => chain (first s) (whole s) :=
  fun s t h => (hf s t h).chain (hw s t h)

/-- A check that reads neither the response nor `HB.len`. -/
theorem KeepsAlike.check {b : State → Prop} [∀ s, Decidable (b s)] {c : Cause} {op : State → Res α}
    (hb : ∀ {s ws n}, b (s.relabel ws n) = b s) (hop : KeepsAlike op) :
    KeepsAlike fun s => if b s then .trap c s else op s := by
  rintro s _ ⟨ws, n, rfl, hn⟩
  simp only [hb]
  exact .ite (fun _ => .trap c ⟨ws, n, rfl, hn⟩) fun _ => hop _ _ ⟨ws, n, rfl, hn⟩

/-- An access to words that exist alike in both states, or in neither. -/
theorem KeepsAlike.exists {b : State → Prop} [∀ s, Decidable (b s)] {f : Fault} {op : State → Res α}
    (hb : ∀ {s ws n}, b (s.relabel ws n) = b s) (hop : KeepsAlike op) :
    KeepsAlike fun s => if b s then op s else .stop f := by
  rintro s _ ⟨ws, n, rfl, hn⟩
  simp only [hb]
  exact .ite (fun _ => hop _ _ ⟨ws, n, rfl, hn⟩) fun _ => .stop f

/-- The rest of an operation, chosen by what reads neither the response nor `HB.len`. -/
theorem KeepsAlike.read {γ : Type} {g : State → γ} {op : γ → State → Res α} (hg : ∀ {s ws n}, g (s.relabel ws n) = g s)
    (hop : ∀ x, KeepsAlike (op x)) : KeepsAlike fun s => op (g s) s := by
  rintro s _ ⟨ws, n, rfl, hn⟩
  simp only [hg]
  exact hop (g s) _ _ ⟨ws, n, rfl, hn⟩

/-- A result that does not depend on what may differ, and a write after which the states are alike. -/
theorem KeepsAlike.ok_of {a : State → α} {f : State → State} (ha : ∀ {s ws n}, a (s.relabel ws n) = a s)
    (hf : ∀ s t, s.Alike t → (f s).Alike (f t)) : KeepsAlike fun s => .ok (a s) (f s) := by
  rintro s _ ⟨ws, n, rfl, hn⟩
  simp only [ha]
  exact .ok _ (hf _ _ ⟨ws, n, rfl, hn⟩)

/-- A write that neither reads nor writes the response, `HB.len` and `HB.view`. -/
theorem KeepsAlike.ok {a : State → α} {f : State → State} (ha : ∀ {s ws n}, a (s.relabel ws n) = a s)
    (hf : ∀ {s ws n}, f (s.relabel ws n) = (f s).relabel ws n ∧ (f s).hb.view = s.hb.view ∧ (f s).hb.len = s.hb.len) :
    KeepsAlike fun s => .ok (a s) (f s) := by
  refine .ok_of ha ?_
  rintro s _ ⟨ws, n, rfl, hn⟩
  obtain ⟨heq, hview, hlen⟩ := hf (s := s) (ws := ws) (n := n)
  exact ⟨ws, n, heq, by rwa [hview, hlen]⟩

/-- An answer that writes nothing. -/
theorem KeepsAlike.answer (a : α) : KeepsAlike (Res.ok a) := .ok rfl ⟨rfl, rfl, rfl⟩

theorem State.alike_respond (s : State) (ws : List Word) : s.Alike (s.respond ws) := ⟨ws, s.hb.len, rfl, fun _ => rfl⟩

/-- An operation that needs an open view: with one, the states differ in the response alone. -/
theorem KeepsAlike.opened {op : State → Res α} (hop : ∀ s ws, (op s).Alike (op (s.respond ws))) :
    KeepsAlike fun s => if !s.hb.view then .trap .viewState s else op s := by
  rintro s _ ⟨ws, n, rfl, hn⟩
  refine .ite (fun _ => .trap .viewState ⟨ws, n, rfl, hn⟩) fun hv => ?_
  obtain rfl := hn (by simpa using hv)
  exact hop s ws

end

/-! ## The units' operations -/

theorem memRead_alike (space : Space) (a n : Nat) : KeepsAlike (memRead space a n) := by
  cases space <;> exact .exists rfl (.ok rfl ⟨rfl, rfl, rfl⟩)

theorem memWrite_alike (space : Space) (a : Nat) (ws : List Word) : KeepsAlike (memWrite space a ws) := by
  cases space <;> exact .exists rfl (.ok rfl ⟨rfl, rfl, rfl⟩)

theorem lfoNew_alike (lo hi : F32) : KeepsAlike (lfoNew lo hi) := .check rfl (.ok rfl ⟨rfl, rfl, rfl⟩)

theorem lfoStep_alike (incr depth : F32) : KeepsAlike (lfoStep incr depth) :=
  .check rfl (.check rfl (.ok rfl ⟨rfl, rfl, rfl⟩))

theorem lfoReset_alike : KeepsAlike lfoReset := .check rfl (.ok rfl ⟨rfl, rfl, rfl⟩)

theorem hbNew_alike (lb mb : Nat) : KeepsAlike (hbNew lb mb) := by
  refine .check rfl (.ok_of rfl ?_)
  rintro s _ ⟨ws, n, rfl, -⟩
  exact ⟨ws, 0, rfl, fun _ => rfl⟩

theorem hbProcess_alike (xs : List F32) : KeepsAlike (hbProcess xs) := by
  refine .check rfl (.check rfl (.check rfl (.bind (.read (op := fun lb => memWrite .hbuf lb xs) rfl
    fun lb => memWrite_alike .hbuf lb xs) fun _ => .ok_of rfl ?_)))
  rintro s _ ⟨ws, n, rfl, -⟩
  exact ⟨ws, xs.length, rfl, fun _ => rfl⟩

theorem hbView_alike : KeepsAlike hbView :=
  .check rfl (.opened fun s ws => memRead_alike .hbuf 0 (s.hb.lookBehind + s.hb.len) s _ (s.alike_respond ws))

theorem hbRead_alike (start count : Nat) : KeepsAlike (hbRead start count) :=
  .check rfl (.opened fun s ws => .ite (fun _ => .trap _ (s.alike_respond ws))
    fun _ => memRead_alike .hbuf start count s _ (s.alike_respond ws))

theorem hbRelease_alike : KeepsAlike hbRelease :=
  .check rfl (.opened fun _ ws => .ite (fun _ => .ok () ⟨ws, _, rfl, fun _ => rfl⟩) fun _ => .stop _)

theorem hbReset_alike : KeepsAlike hbReset :=
  .check rfl (.check rfl (.read (g := fun s => s.hb.lookBehind + s.hb.maxBlock) (op := hbufZero) rfl fun _ =>
    .exists rfl (.ok rfl ⟨rfl, rfl, rfl⟩)))

theorem loadKernel_alike (taps : List F32) : KeepsAlike (loadKernel taps) :=
  .bind (memWrite_alike .kram 0 taps) fun _ => .ok rfl ⟨rfl, rfl, rfl⟩

theorem pkLpf_alike (n : Nat) (increment : F32) : KeepsAlike (pkLpf n increment) :=
  .check rfl (.read (g := fun s => lpfTaps s.cfg.lpf n increment) rfl loadKernel_alike)

theorem pkLoadk_alike (taps : List F32) : KeepsAlike (pkLoadk taps) := .check rfl (loadKernel_alike taps)

theorem pkSplit_alike (n : Nat) : KeepsAlike (pkSplit n) := by
  refine .check rfl (.check rfl ?_)
  rintro s t ⟨ws, len, rfl, hlen⟩
  exact .bind (memRead_alike .kram 0 s.pk.kLen s _ ⟨ws, len, rfl, hlen⟩) fun kernel _ _ h =>
    .bind (memWrite_alike .pram 0 (splitTaps kernel n (s.pk.kLen / n)) _ _ h)
      fun _ => KeepsAlike.ok rfl ⟨rfl, rfl, rfl⟩

theorem dlRead_alike (i : Nat) (delay : F32) : KeepsAlike (dlRead i delay) := by
  refine .check rfl (.opened fun s ws => ?_)
  have hs := s.alike_respond ws
  refine .ite (fun _ => .trap _ hs) fun _ => .ite (fun _ => .trap _ hs) fun _ => .ite (fun _ => .trap _ hs) fun _ => ?_
  exact .bind (memRead_alike .pram _ _ s _ hs) fun _ t u htu =>
    .bind (memRead_alike .hbuf _ _ t u htu) fun _ _ _ h => .ok _ h

theorem cmpNew_alike (fs : F32) : KeepsAlike (cmpNew fs) := .check rfl (.ok rfl ⟨rfl, rfl, rfl⟩)

theorem cmpDetect_alike (x : F32) : KeepsAlike (cmpDetect x) := .check rfl (.ok rfl ⟨rfl, rfl, rfl⟩)

theorem cmpReset_alike : KeepsAlike cmpReset := .check rfl (.ok rfl ⟨rfl, rfl, rfl⟩)

theorem cmpCompress_alike (signal level : F32) : KeepsAlike (cmpCompress signal level) := .ok rfl ⟨rfl, rfl, rfl⟩

theorem cmpExpand_alike (signal level : F32) : KeepsAlike (cmpExpand signal level) := .ok rfl ⟨rfl, rfl, rfl⟩

theorem nlShape_alike (x : F32) : KeepsAlike (nlShape x) := .ok rfl ⟨rfl, rfl, rfl⟩

theorem aafNew_alike (k : Nat) (fs : F32) : KeepsAlike (aafNew k fs) :=
  .check rfl (.check rfl (.ok rfl ⟨rfl, rfl, rfl⟩))

theorem aafStep_alike (k : Nat) (x : F32) : KeepsAlike (aafStep k x) :=
  .check rfl (.check rfl (.ok rfl ⟨rfl, rfl, rfl⟩))

theorem aafReset_alike (k : Nat) : KeepsAlike (aafReset k) :=
  .check rfl (.check rfl (.ok rfl ⟨rfl, rfl, rfl⟩))

/-! ## The chain controller -/

theorem fxHbNew_alike (fs : F32) (mb : Nat) : KeepsAlike (fxHbNew fs mb) :=
  .check rfl (.read (g := fun s => (fxLookBehind s.cfg fs).toNat) rfl fun lb => hbNew_alike lb mb)

/-- A constituent whose operands are the machine's parameters. -/
theorem KeepsAlike.ofParams {α : Type} {op : Params → State → Res α} (hop : ∀ cfg, KeepsAlike (op cfg)) :
    KeepsAlike fun s => op s.cfg s :=
  .read rfl hop

theorem fxConstruct_alike (fs : F32) (mb : Nat) : KeepsAlike (fxConstruct fs mb) :=
  .bind (.ofParams (op := fun cfg => pkLpf cfg.kLen cfg.kInc) fun _ => pkLpf_alike _ _) fun _ =>
  .bind (.ofParams (op := fun cfg => pkSplit cfg.nPhases) fun _ => pkSplit_alike _) fun _ =>
  .bind (fxHbNew_alike fs mb) fun _ =>
  .bind (.ofParams (op := fun cfg => lfoNew (fxLfoBounds cfg fs).1 (fxLfoBounds cfg fs).2) fun _ => lfoNew_alike _ _)
    fun _ =>
  .bind (cmpNew_alike fs) fun _ =>
  .bind (aafNew_alike 0 fs) fun _ => .bind (aafNew_alike 1 fs) fun _ => .bind (aafNew_alike 2 fs) fun _ =>
  .ok rfl ⟨rfl, rfl, rfl⟩

theorem fxNew_alike (fs : F32) (mb : Nat) : KeepsAlike (fxNew fs mb) :=
  .check rfl (.chain (.ofParams (op := fun cfg => pkLpf cfg.kLen cfg.kInc) fun _ => pkLpf_alike _ _)
    (fxConstruct_alike fs mb))

theorem resetStages_alike : KeepsAlike resetStages :=
  .bind lfoReset_alike fun _ => .bind hbReset_alike fun _ => .bind cmpReset_alike fun _ =>
    .bind (aafReset_alike 0) fun _ => .bind (aafReset_alike 1) fun _ => aafReset_alike 2

theorem fxSetproc_alike (on : Word) : KeepsAlike (fxSetproc on) := by
  refine .check rfl (.check rfl ?_)
  by_cases h : on = 1#32
  · simp only [if_pos h]
    exact .check rfl (.bind (.chain lfoReset_alike resetStages_alike) fun _ => .ok rfl ⟨rfl, rfl, rfl⟩)
  · simp only [if_neg h]
    exact .ok rfl ⟨rfl, rfl, rfl⟩

theorem fxReset_alike : KeepsAlike fxReset := .check rfl (.check rfl (.chain lfoReset_alike resetStages_alike))

theorem fxParams_alike (params : List ParamSample) : KeepsAlike (fxParams params) :=
  .check rfl (.check rfl (.ok rfl ⟨rfl, rfl, rfl⟩))

theorem frontSample_alike (p : FxSample) : KeepsAlike (frontSample p) :=
  .bind (aafStep_alike 0 p.x) fun a => .bind (cmpDetect_alike a) fun level =>
    .bind (cmpCompress_alike a level) fun _ =>
      .bind (.read (g := fun s => F32.div p.params.rate s.fx.fs) rfl fun incr => lfoStep_alike incr p.params.depth)
        fun _ => .answer _

theorem frontBlock_alike (block : List FxSample) : KeepsAlike (frontBlock block) := by
  induction block with
  | nil => exact .answer _
  | cons p ps ih => exact .bind (frontSample_alike p) fun _ => .bind ih fun _ => .answer _

theorem backTap_alike (t tap : Nat) (delay : F32) (f : FrontSample) : KeepsAlike (backTap t tap delay f) :=
  .bind (dlRead_alike t delay) fun r => .bind (nlShape_alike r) fun shaped => .bind (cmpExpand_alike shaped f.level)
    fun e => .bind (aafStep_alike (1 + tap) e) fun _ => .answer _

theorem backBlock_alike (t : Nat) (front : List FrontSample) : KeepsAlike (backBlock t front) := by
  induction front generalizing t with
  | nil => exact .answer _
  | cons f fs ih =>
    exact .bind (backTap_alike t 0 f.forward f) fun _ => .bind (backTap_alike t 1 f.reverse f) fun _ =>
      .bind (ih (t + 1)) fun _ => .answer _

theorem processBlock_alike (block : List FxSample) : KeepsAlike (processBlock block) :=
  .bind (frontBlock_alike block) fun front => .bind (hbProcess_alike _) fun _ => .bind (backBlock_alike 0 front)
    fun _ => .bind hbRelease_alike fun _ => .answer _

theorem firstOfProcess_alike (block : List FxSample) : KeepsAlike (firstOfProcess block) := by
  cases block with
  | nil => exact hbProcess_alike []
  | cons p ps => exact .bind (aafStep_alike 0 p.x) fun _ => .answer _

theorem fxProcess_alike (block : List FxSample) : KeepsAlike (fxProcess block) :=
  .check rfl (.check rfl (.check rfl (.check rfl (.check rfl
    (.chain (firstOfProcess_alike block) (processBlock_alike block))))))

/-! ## Commands -/

/-- Two commands go on alike: they answer the same words and leave states alike, or stop alike. -/
inductive AlikeOutcomes : Host.Outcome State Fault Refusal → Host.Outcome State Fault Refusal → Prop
  | next {u v : State} (hr : u.resp = v.resp) (h : u.Alike v) : AlikeOutcomes (.next u) (.next v)
  | fault (f : Fault) : AlikeOutcomes (.fault f) (.fault f)

theorem State.Alike.fault {s t : State} (h : s.Alike t) : t.fault = s.fault := by
  obtain ⟨ws, n, rfl, -⟩ := h
  rfl

theorem State.Alike.raise {s t : State} (h : s.Alike t) (c : Cause) : (s.raise c).Alike (t.raise c) := by
  unfold State.raise
  rw [h.fault]
  obtain ⟨ws, n, rfl, hn⟩ := h
  split <;> exact ⟨[], n, rfl, hn⟩

theorem KeepsAlike.command {α : Type} {words : α → List Word} {op : State → Res α} (hop : KeepsAlike op) {s t : State}
    (h : s.Alike t) : AlikeOutcomes (command words op s) (command words op t) := by
  have hr := hop s t h
  unfold Machine.command
  rw [h.fault]
  split
  · exact .next rfl (h.respond [])
  · generalize op s = r, op t = r' at hr
    cases hr with
    | ok a h => exact .next rfl (h.respond _)
    | trap c h => exact .next (by simp) (h.raise c)
    | stop f => exact .fault f

/-- Every operation goes on alike from states alike. -/
theorem exec_alike {s t : State} (h : s.Alike t) : ∀ i : Instr, AlikeOutcomes (exec i s) (exec i t)
  | .lfoNew lo hi => (lfoNew_alike lo hi).command h
  | .lfoStep incr depth => (lfoStep_alike incr depth).command h
  | .lfoReset => lfoReset_alike.command h
  | .hbNew lb mb => (hbNew_alike (countOf lb) (countOf mb)).command h
  | .hbProcess samples => (hbProcess_alike samples).command h
  | .hbView => hbView_alike.command h
  | .hbRead start count => (hbRead_alike (countOf start) (countOf count)).command h
  | .hbRelease => hbRelease_alike.command h
  | .hbReset => hbReset_alike.command h
  | .pkLpf length increment => (pkLpf_alike (countOf length) increment).command h
  | .pkLoadk taps => (pkLoadk_alike taps).command h
  | .pkSplit n => (pkSplit_alike (countOf n)).command h
  | .dlRead i delay => (dlRead_alike (countOf i) delay).command h
  | .cmpNew fs => (cmpNew_alike fs).command h
  | .cmpDetect x => (cmpDetect_alike x).command h
  | .cmpReset => cmpReset_alike.command h
  | .cmpCompress signal level => (cmpCompress_alike signal level).command h
  | .cmpExpand signal level => (cmpExpand_alike signal level).command h
  | .nlShape x => (nlShape_alike x).command h
  | .aafNew k fs => (aafNew_alike k.toNat fs).command h
  | .aafStep k x => (aafStep_alike k.toNat x).command h
  | .aafReset k => (aafReset_alike k.toNat).command h
  | .fxNew fs mb => (fxNew_alike fs (countOf mb)).command h
  | .fxSetproc on => (fxSetproc_alike on).command h
  | .fxParams params => (fxParams_alike params).command h
  | .fxProcess block => (fxProcess_alike block).command h
  | .fxReset => fxReset_alike.command h

theorem State.Alike.status {s t : State} (h : s.Alike t) : s.status = t.status := by
  obtain ⟨ws, n, rfl, -⟩ := h
  rfl

/-- Whatever operations follow, the same is observed from states alike. -/
theorem observations_of_alike {s t : State} (h : s.Alike t) (is : List Instr) :
    observations is s = observations is t := by
  induction is generalizing s t with
  | nil => rfl
  | cons i is ih =>
    have hexec := exec_alike h i
    generalize hs : exec i s = o, ht : exec i t = o' at hexec
    cases hexec with
    | next hresp huv => exact observations_congr i is s t _ _ hs ht hresp huv.status (ih huv)
    | fault f => simp [observations, observed, hs, ht]

/-! ## Setting Running -/

theorem State.Alike.sameObservable {s t : State} (h : s.Alike t) (hr : s.resp = t.resp) : SameObservable s t := by
  obtain ⟨ws, n, rfl, hn⟩ := h
  constructor
  case resp => exact hr
  case hbLen => exact fun hv => (hn hv).symm
  all_goals simp [State.relabel, State.aafGv]

/-- Setting Running overwrites all that chains constructed alike may differ in, but for `HB.len`. -/
theorem started_alike {s t : State} (hs : s.Inv) (ht : t.Inv) (h : SameConstruction s t) (hv : s.hb.view = false) :
    s.started.Alike t.started := by
  obtain ⟨hcfg, hport, hfault, hcause, ⟨hlc, hlp, hls, hla⟩, ⟨hhc, hhv, hhl, hhm⟩, hbeyond, hpk, hkram, hpram,
    ⟨hcc, hca, hcr⟩, ⟨⟨h0c, h0g⟩, ⟨h1c, h1g⟩, ⟨h2c, h2g⟩, h3⟩, ⟨hfc, hfs⟩, hfreed⟩ := h
  have hbuf : s.hbuf.zeroFill (t.hb.lookBehind + t.hb.maxBlock) =
      t.hbuf.zeroFill (t.hb.lookBehind + t.hb.maxBlock) := by
    refine Mem.ext_read _ _ (Mem.wf_zeroFill _ _ hs.hbufCanonical) (Mem.wf_zeroFill _ _ ht.hbufCanonical) fun a => ?_
    rw [Mem.read_zeroFill, Mem.read_zeroFill]
    split
    · rfl
    · exact hbeyond a (by omega)
  refine ⟨t.resp, t.hb.len, ?_, fun hopen => absurd (hv.symm.trans hopen) Bool.false_ne_true⟩
  clear hv
  simp [State.started, State.stagesReset, State.relabel, Aaf.cleared, *]

/-- Settles O27: FX.SETPROC 1 takes chains constructed alike to states alike, which every operation keeps alike. -/
theorem settingRunningReplaysBitForBit : Obligations.SettingRunningReplaysBitForBit := by
  intro s t hs ht hst hf hc hv
  have hf' : t.fault = false := hst.fault ▸ hf
  have hc' : t.fx.c = true := hst.fx.1 ▸ hc
  have hv' : t.hb.view = false := hst.hb.2.1 ▸ hv
  have halike := (started_alike hs ht hst hv).respond []
  exact ⟨_, _, command_of_ok _ _ s _ () hf (fxSetproc_one hs hc hv),
    command_of_ok _ _ t _ () hf' (fxSetproc_one ht hc' hv'), hf, hf', rfl, rfl, halike.sameObservable rfl,
    observations_of_alike halike⟩

end Sys2Proof.Machine
end

section
/-!
FX.PROCESS as the host's program (rules R135, R158): each unit command the host issues does what the constituent it
stands for does, whatever the last response, and no constituent stops the model from a state that meets the invariant.
-/

namespace Sys2Proof.Machine

/-! ## Constituents that never stop the model -/

theorem hbProcess_ne_stop {s : State} (hs : s.Inv) (xs : List F32) (f : Fault) : hbProcess xs s ≠ .stop f := by
  unfold hbProcess
  split_ifs with hc hlen hv
  · simp
  · simp
  · simp
  · have hfit := hs.block_fits (by simpa using hc) (not_lt.mp hlen)
    simp [memWrite, hfit]

theorem hbRelease_ne_stop {s : State} (hs : s.Inv) (f : Fault) : hbRelease s ≠ .stop f := by
  unfold hbRelease
  split_ifs with hc hv hfit
  · simp
  · simp
  · simp
  · exact absurd (hs.view_fits (by simpa using hc)) hfit

theorem dlRead_ne_stop {s : State} (hs : s.Inv) (i : Nat) (delay : F32) (f : Fault) : dlRead i delay s ≠ .stop f := by
  by_cases hnew : s.hb.c = false ∨ s.pk.sv = false
  · simp [dlRead_of_not_constructed hnew]
  simp only [not_or, Bool.not_eq_false] at hnew
  obtain ⟨hc, hsv⟩ := hnew
  cases hv : s.hb.view with
  | false => simp [dlRead_of_closed hc hsv hv]
  | true =>
    rcases Nat.lt_or_ge i s.hb.len with hi | hi
    · cases hd : isNonNegative delay with
      | false => simp [dlRead_of_bad_delay hc hsv hv hi hd]
      | true =>
        by_cases hout : (readWindow i delay s).2 < 0 ∨ (s.hb.lookBehind : Int) + s.hb.len - 1 < (readWindow i delay s).1
        · simp [dlRead_of_window_outside hc hsv hv hi hd hout]
        · simp only [not_or, not_lt] at hout
          simp [dlRead_of_window_inside hc hsv hv hi hd hs hout.1 hout.2]
    · simp [dlRead_of_sample_outside hc hsv hv hi]

/-! ## The host's commands beside the constituents -/

/-- The host's commands go as an operation goes: where it completes they do, with a result that `Q` ties to its own,
and where it faults they end with that `CAUSE`. It leaves a state without a fault that meets the invariant. -/
inductive Mirrors {α β : Type} (Q : α → State → β → Prop) : Res α → Except (BitVec 4) β → Prop
  | ok {a : α} {t : State} {b : β} (ht : t.Inv) (hf : t.fault = false) (hq : Q a t b) : Mirrors Q (.ok a t) (.ok b)
  | trap {t : State} (c : Cause) (hf : t.fault = false) : Mirrors Q (.trap c t) (.error (causeCode c))

/-- The host has the operation's result, and a state alike. -/
def SameAnswer {α : Type} (a : α) (t : State) (b : α × State) : Prop := b.1 = a ∧ t.Alike b.2

section
variable {α β γ δ : Type} {Q : α → State → β → Prop} {Q' : γ → State → δ → Prop}

theorem Mirrors.bind {r : Res α} {h : Except (BitVec 4) β} {k : α → State → Res γ} {k' : β → Except (BitVec 4) δ}
    (hr : Mirrors Q r h) (hk : ∀ a t b, t.Inv → t.fault = false → Q a t b → Mirrors Q' (k a t) (k' b)) :
    Mirrors Q' (r.bind k) (h.bind k') := by
  cases hr with
  | ok ht hf hq => exact hk _ _ _ ht hf hq
  | trap c hf => exact .trap c hf

theorem Mirrors.map {r : Res α} {h : Except (BitVec 4) β} {g : α → γ} {f : β → δ} (hr : Mirrors Q r h)
    (hk : ∀ a t b, Q a t b → Q' (g a) t (f b)) : Mirrors Q' (r.bind fun a t => .ok (g a) t) (h.map f) := by
  cases hr with
  | ok ht hf hq => exact .ok ht hf (hk _ _ _ hq)
  | trap c hf => exact .trap c hf

end

theorem Res.bind_assoc {α β γ : Type} (r : Res α) (k : α → State → Res β) (l : β → State → Res γ) :
    (r.bind k).bind l = r.bind fun a s => (k a s).bind l := by
  cases r <;> rfl

/-- The writes of an operation keep the invariant and the absence of a fault. -/
theorem Reaches.keeps_clear {as : List Action} {s t : State} (h : Reaches as s t) (hs : s.Inv) (hf : s.fault = false) :
    t.Inv ∧ t.fault = false :=
  h.keeps (p := fun t => t.Inv ∧ t.fault = false)
    (fun _ _ _ _ hw hu => ⟨hw.keeps_inv hu.1, by cases hw <;> exact hu.2⟩) ⟨hs, hf⟩

theorem State.Alike.respond_right {s t : State} (h : s.Alike t) (ws : List Word) : s.Alike (t.respond ws) := by
  obtain ⟨_, n, rfl, hn⟩ := h
  exact ⟨ws, n, rfl, hn⟩

theorem State.Alike.fx {s t : State} (h : s.Alike t) : t.fx = s.fx := by
  obtain ⟨_, _, rfl, -⟩ := h
  rfl

section
variable {s s' : State} {i : Instr}

theorem mirrors_issue {α : Type} {words : α → List Word} {op : State → Res α}
    (hexec : exec i s' = command words op s') (hop : KeepsAlike op) (hperf : (op s).Performs false fxRuns s)
    (hstop : ∀ f, op s ≠ .stop f) (hs : s.Inv) (hf : s.fault = false) (h : s.Alike s') :
    Mirrors (fun a t t' => t'.resp = words a ∧ t.Alike t') (op s) (issue i s') := by
  have hr := hop s s' h
  have hf' : s'.fault = false := h.fault.trans hf
  obtain ⟨hok, htrap⟩ := hperf
  generalize hs₁ : op s = r, hs₂ : op s' = r' at *
  cases hr with
  | @ok a t t' htt =>
    obtain ⟨ht, hft⟩ := (hok a t rfl).keeps_clear hs hf
    have hnext := hexec.trans (command_of_ok words op s' t' a hf' hs₂)
    rw [(issue_eq_ok ..).mpr ⟨hnext, htt.fault.trans hft⟩]
    exact .ok ht hft ⟨rfl, htt.respond_right (words a)⟩
  | @trap c t t' htt =>
    obtain ⟨ht, hft⟩ := ((htrap c t rfl).resolve_right (by simp)).keeps_clear hs hf
    have hft' := htt.fault.trans hft
    have hnext := hexec.trans (command_of_trap words op s' t' c hf' hs₂)
    rw [issue_of_fault i s' _ hnext (State.raise_fault ..), State.raise_cause, hft']
    exact .trap c hft
  | stop f => exact absurd rfl (hstop f)

theorem mirrors_ask {op : State → Res F32}
    (hexec : exec i s' = command oneWord op s') (hop : KeepsAlike op) (hperf : (op s).Performs false fxRuns s)
    (hstop : ∀ f, op s ≠ .stop f) (hs : s.Inv) (hf : s.fault = false) (h : s.Alike s') :
    Mirrors SameAnswer (op s) (ask i s') := by
  have hissue := mirrors_issue hexec hop hperf hstop hs hf h
  unfold ask
  generalize op s = r, issue i s' = o at hissue
  cases hissue with
  | ok ht hft hq =>
    obtain ⟨hresp, htt⟩ := hq
    simp only [Except.bind, hresp, oneWord]
    exact .ok ht hft ⟨rfl, htt⟩
  | trap c hft => exact .trap c hft

/-! ## The constituents of FX.PROCESS -/

section
variable (hs : s.Inv) (hf : s.fault = false) (h : s.Alike s')
include hs hf h

theorem mirrors_aafStep (k : BitVec 8) (x : F32) (hk : .aafRun k.toNat ∈ fxRuns) :
    Mirrors SameAnswer (aafStep k.toNat x s) (ask (.aafStep k x) s') :=
  mirrors_ask rfl (aafStep_alike k.toNat x) (aafStep_performs k.toNat x hk) (aafStep_ne_stop k.toNat x s) hs hf h

theorem mirrors_cmpDetect (x : F32) : Mirrors SameAnswer (cmpDetect x s) (ask (.cmpDetect x) s') :=
  mirrors_ask rfl (cmpDetect_alike x) (cmpDetect_performs x) (cmpDetect_ne_stop x s) hs hf h

theorem mirrors_cmpCompress (signal level : F32) :
    Mirrors SameAnswer (cmpCompress signal level s) (ask (.cmpCompress signal level) s') :=
  mirrors_ask rfl (cmpCompress_alike signal level) (cmpCompress_performs signal level) (by simp) hs hf h

theorem mirrors_cmpExpand (signal level : F32) :
    Mirrors SameAnswer (cmpExpand signal level s) (ask (.cmpExpand signal level) s') :=
  mirrors_ask rfl (cmpExpand_alike signal level) (cmpExpand_performs signal level) (by simp) hs hf h

theorem mirrors_nlShape (x : F32) : Mirrors SameAnswer (nlShape x s) (ask (.nlShape x) s') :=
  mirrors_ask rfl (nlShape_alike x) (nlShape_performs x) (by simp) hs hf h

theorem mirrors_dlRead {i : Nat} (hi : i < 2 ^ 32) (delay : F32) :
    Mirrors SameAnswer (dlRead i delay s) (ask (.dlRead (BitVec.ofNat 32 i) delay) s') := by
  have hcount : countOf (BitVec.ofNat 32 i) = i := by rw [countOf, BitVec.toNat_ofNat, Nat.mod_eq_of_lt hi]
  have hexec : exec (.dlRead (BitVec.ofNat 32 i) delay) s' = command oneWord (dlRead i delay) s' :=
    congrArg (fun n => command oneWord (dlRead n delay) s') hcount
  exact mirrors_ask hexec (dlRead_alike i delay) (dlRead_performs i delay) (dlRead_ne_stop hs i delay) hs hf h

/-- The view is open where HB.RELEASE completes, so the host's state differs in the response alone. -/
theorem mirrors_hbRelease : Mirrors (fun _ t t' => ∃ ws, t' = t.respond ws) (hbRelease s) (issue .hbRelease s') := by
  have hissue := mirrors_issue (s := s) (i := .hbRelease) rfl hbRelease_alike hbRelease_performs
    (hbRelease_ne_stop hs) hs hf h
  generalize hr : hbRelease s = r, ho : issue .hbRelease s' = o at hissue
  cases hissue with
  | trap c hft => exact .trap c hft
  | @ok _ t t' ht hft hq =>
    obtain ⟨hc, hv, hfit, rfl⟩ := (hbRelease_eq_ok ..).mp hr
    obtain ⟨ws, n, rfl, hn⟩ := h
    obtain rfl := hn hv
    have hok : hbRelease (s.relabel ws s.hb.len) = .ok () _ := (hbRelease_eq_ok ..).mpr ⟨hc, hv, hfit, rfl⟩
    have hissue' : issue .hbRelease (s.relabel ws s.hb.len) = .ok _ :=
      (issue_eq_ok ..).mpr ⟨command_of_ok noWords hbRelease _ _ () hf hok, hf⟩
    rw [hissue'] at ho
    cases ho
    exact .ok ht hft ⟨[], rfl⟩

end

/-! ## The block -/

theorem mirrors_hostFront {block : List FxSample} (hs : s.Inv) (hf : s.fault = false) (h : s.Alike s') :
    Mirrors (fun front t b => SameAnswer front t b ∧ front.length = block.length) (frontBlock block s)
      (hostFront block s') := by
  induction block generalizing s s' with
  | nil => exact .ok hs hf ⟨⟨rfl, h⟩, rfl⟩
  | cons p ps ih =>
    simp only [frontBlock, frontSample, Res.bind_assoc, Res.bind_ok]
    refine (mirrors_aafStep hs hf h 0 p.x (by simp)).bind ?_
    rintro a t ⟨_, t'⟩ ht hft ⟨rfl, htt⟩
    refine (mirrors_cmpDetect ht hft htt _).bind ?_
    rintro level u ⟨_, u'⟩ hu hfu ⟨rfl, huu⟩
    refine (mirrors_cmpCompress hu hfu huu _ _).bind ?_
    rintro compressed v ⟨_, v'⟩ hv hfv ⟨rfl, hvv⟩
    have hlfo := mirrors_issue (i := .lfoStep (F32.div p.params.rate v.fx.fs) p.params.depth) rfl (lfoStep_alike _ _)
      (lfoStep_performs _ _) (lfoStep_ne_stop _ _ v) hv hfv hvv
    dsimp only
    rw [hvv.fx]
    refine hlfo.bind ?_
    rintro delays w w' hw hfw ⟨hresp, hww⟩
    simp only [hresp]
    refine (ih hw hfw hww).map ?_
    rintro fs x ⟨_, x'⟩ ⟨⟨rfl, hxx⟩, hlen⟩
    exact ⟨⟨rfl, hxx⟩, congrArg (· + 1) hlen⟩

theorem mirrors_hostTap {i tap : Nat} {k : BitVec 8} (hi : i < 2 ^ 32) (hk : k.toNat = 1 + tap) (htap : tap < 2)
    (delay : F32) (f : FrontSample) (hs : s.Inv) (hf : s.fault = false) (h : s.Alike s') :
    Mirrors SameAnswer (backTap i tap delay f s) (hostTap i k delay f s') := by
  refine (mirrors_dlRead hs hf h hi delay).bind ?_
  rintro r t ⟨_, t'⟩ ht hft ⟨rfl, htt⟩
  refine (mirrors_nlShape ht hft htt _).bind ?_
  rintro shaped u ⟨_, u'⟩ hu hfu ⟨rfl, huu⟩
  refine (mirrors_cmpExpand hu hfu huu _ _).bind ?_
  rintro e v ⟨_, v'⟩ hv hfv ⟨rfl, hvv⟩
  have hstep := mirrors_aafStep hv hfv hvv k
  rw [hk] at hstep
  refine (hstep _ (by interval_cases tap <;> simp)).map ?_
  rintro wet w ⟨_, w'⟩ ⟨rfl, hww⟩
  exact ⟨rfl, hww⟩

theorem mirrors_hostBack {front : List FrontSample} {i : Nat} (hi : i + front.length ≤ 2 ^ 32) (hs : s.Inv)
    (hf : s.fault = false) (h : s.Alike s') : Mirrors SameAnswer (backBlock i front s) (hostBack i front s') := by
  induction front generalizing i s s' with
  | nil => exact .ok hs hf ⟨rfl, h⟩
  | cons f fs ih =>
    rw [List.length_cons] at hi
    refine (mirrors_hostTap (by omega) rfl (by decide) f.forward f hs hf h).bind ?_
    rintro out0 t ⟨_, t'⟩ ht hft ⟨rfl, htt⟩
    refine (mirrors_hostTap (by omega) rfl (by decide) f.reverse f ht hft htt).bind ?_
    rintro out1 u ⟨_, u'⟩ hu hfu ⟨rfl, huu⟩
    refine (ih (by omega) hu hfu huu).map ?_
    rintro outs v ⟨_, v'⟩ ⟨rfl, hvv⟩
    exact ⟨rfl, hvv⟩

/-- The host's program goes as the constituents of FX.PROCESS do, and leaves their state but for the response. -/
theorem mirrors_hostChain {block : List FxSample} (hlen : block.length ≤ 2 ^ 32) (hs : s.Inv) (hf : s.fault = false) :
    Mirrors (fun outs t b => b.1 = outs ∧ ∃ ws, b.2 = t.respond ws) (processBlock block s) (hostChain block s) := by
  refine (mirrors_hostFront hs hf ⟨s.resp, s.hb.len, rfl, fun _ => rfl⟩).bind ?_
  rintro _ t ⟨front, t'⟩ ht hft ⟨⟨rfl, htt⟩, hfront⟩
  have hprocess := mirrors_issue (i := .hbProcess (front.map FrontSample.compressed)) rfl (hbProcess_alike _)
    (hbProcess_performs _) (hbProcess_ne_stop ht _) ht hft htt
  refine hprocess.bind ?_
  rintro - u u' hu hfu ⟨-, huu⟩
  refine (mirrors_hostBack (by simpa [hfront] using hlen) hu hfu huu).bind ?_
  rintro outs v ⟨_, v'⟩ hv hfv ⟨rfl, hvv⟩
  refine (mirrors_hbRelease hv hfv hvv).map ?_
  rintro - w w' hw
  exact ⟨rfl, hw⟩

end

/-! ## The command -/

/-- A command whose constituents fault, the first of them or a later one, takes that fault and answers nothing. -/
theorem command_of_chain_trap {α β : Type} (words : β → List Word) {op : State → Res β} {first : Res α}
    {whole : Res β} {s t : State} {c : Cause} (hf : s.fault = false) (hop : op s = chain first whole)
    (hwhole : whole = .trap c t) (ht : t.fault = false) :
    ∃ u, command words op s = .next u ∧ u.fault = true ∧ u.cause = causeCode c ∧ u.resp = [] := by
  have htrap : ∃ v, op s = .trap c v ∧ v.fault = false := by
    rw [hop, hwhole]
    cases first with
    | trap => exact ⟨t, rfl, ht⟩
    | ok | stop => exact ⟨t.unspecified, rfl, ht⟩
  obtain ⟨v, hv, hfv⟩ := htrap
  refine ⟨_, command_of_trap words op s v c hf hv, State.raise_fault .., ?_, State.raise_resp ..⟩
  rw [State.raise_cause, hfv]
  rfl

/-- The checks of FX.PROCESS passed, its constituents run. -/
theorem fxProcess_of_checks {s : State} {block : List FxSample} (hc : s.fx.c = true) (hrun : s.fx.run = true)
    (hlen : block.length ≤ s.hb.maxBlock) (hv : s.hb.view = false) (hrange : ∀ p ∈ block, isInRange p.params = true) :
    fxProcess block s = chain (firstOfProcess block s) (processBlock block s) := by
  have hall : block.all (fun p => isInRange p.params) = true := List.all_eq_true.mpr hrange
  simp [fxProcess, hc, hrun, not_lt.mpr hlen, hv, hall]

/-- Settles O59: the host's program mirrors the constituents, and FX.PROCESS answers and faults as they do. -/
theorem fxProcessIsTheUnitCommands : Obligations.FxProcessIsTheUnitCommands := by
  intro s block hs hf hc hrun hlen hv hrange
  have hop := fxProcess_of_checks hc hrun hlen hv hrange
  obtain ⟨-, hmb, -⟩ := hs.counts
  have hmirrors := mirrors_hostChain (hlen.trans hmb.le) hs hf
  generalize hwhole : processBlock block s = r, hhost : hostChain block s = o at hmirrors
  cases hmirrors with
  | @ok outs t b ht hft hb =>
    refine ⟨fun outs' t' h => ?_, fun cause h => nomatch h⟩
    obtain ⟨rfl, ws, hws⟩ := hb
    cases h
    obtain rfl : t' = t.respond ws := hws
    rw [hwhole, chain_of_ok] at hop
    exact command_of_ok id _ s t _ hf hop
  | trap c hft =>
    refine ⟨fun outs t h => (nomatch h), fun cause h => ?_⟩
    cases h
    exact ⟨⟨c, rfl⟩, command_of_chain_trap id hf hop hwhole hft⟩

end Sys2Proof.Machine
end

section
/-!
The checks of FX.PARAMS and FX.PROCESS (rules R157, R158, R160, R173), each in its order and without another write.
-/

namespace Sys2Proof.Machine

/-! ## Parameter tuples -/

/-- `RATE_MIN` and `RATE_MAX` as words (rule R160). -/
theorem rateBounds_eq : rateMin = 0x3DA3D70A#32 ∧ rateMax = 0x4121999A#32 := by decide

/-- The ranges of rule R160 as one list of conditions. -/
theorem isInRange_iff (p : ParamSample) :
    isInRange p = true ↔
      (F32.isFinite p.rate && F32.isFinite p.depth && F32.isFinite p.mix &&
        F32.le 0x3DA3D70A#32 p.rate && F32.le p.rate 0x4121999A#32 &&
        F32.le 0#32 p.depth && F32.le p.depth 0x42C80000#32 &&
        F32.le 0#32 p.mix && F32.le p.mix 0x42C80000#32) = true ∧ (p.bypass = 0#32 ∨ p.bypass = 1#32) := by
  simp only [isInRange, isRate, isPercent, isBoolWord, rateBounds_eq, F32.zero, F32.hundred, Bool.and_eq_true,
    Bool.or_eq_true, beq_iff_eq]
  tauto

/-! ## The commands -/

/-- Settles O56: the command's check is the list of conditions, tuple by tuple. -/
theorem fxParamsChecksAndChangesNothing : Obligations.FxParamsChecksAndChangesNothing := by
  intro s ps
  simp only [← isInRange_iff, ← List.all_eq_true]
  refine ⟨command_of_fault _ _ s, fun hf hc => ?_, fun hf hc => ⟨fun hall => ?_, fun hbad => ?_⟩⟩
  · exact command_of_precise_trap (c := .notConstructed) _ hf (by simp [fxParams, hc])
  · have hok : fxParams ps s = .ok () s := by simp only [fxParams, hc, hall]; rfl
    exact command_of_ok _ _ s s () hf hok
  · have htrap : fxParams ps s = .trap .badParam s := by
      simp only [fxParams, hc, Bool.eq_false_of_not_eq_true hbad]; rfl
    exact command_of_precise_trap _ hf htrap

/-- Settles O60: each check faults where those before it have passed. -/
theorem fxProcessChecksInOrder : Obligations.FxProcessChecksInOrder := by
  intro s block
  refine ⟨command_of_fault _ _ s, fun hf hc => ?_, fun hf hc => ⟨fun hrun => ?_, fun hrun hlen => ?_,
    fun hrun hlen hv => ?_, fun hrun hlen hv hbad => ?_⟩⟩
  · exact command_of_precise_trap (c := .notConstructed) _ hf (by simp [fxProcess, hc])
  · exact command_of_precise_trap (c := .badMode) _ hf (by simp [fxProcess, hc, hrun])
  · exact command_of_precise_trap (c := .badLength) _ hf (by simp [fxProcess, hc, hrun, hlen])
  · exact command_of_precise_trap (c := .viewState) _ hf (by simp [fxProcess, hc, hrun, not_lt.mpr hlen, hv])
  · have hall : block.all (fun p => isInRange p.params) = false := List.all_eq_false.mpr (by simpa using hbad)
    exact command_of_precise_trap (c := .badParam) _ hf (by simp [fxProcess, hc, hrun, not_lt.mpr hlen, hv, hall])

end Sys2Proof.Machine
end

section
/-!
A block of FX.PROCESS that completes (rules R122, R158): in a constructed chain the front half completes on parameters
in range and emits the LFO's delays, and the back half completes on delays the history is sized for. What a completed block
leaves is said once.
-/

namespace Sys2Proof.Machine

variable {s t : State}

/-! ## What a completed block leaves -/

theorem length_of_frontBlock {block : List FxSample} {front : List FrontSample} (h : frontBlock block s = .ok front t) :
    front.length = block.length := by
  induction block generalizing s front with
  | nil => cases h; rfl
  | cons p ps ih =>
    obtain ⟨f, fs, u, -, hfs, rfl⟩ := frontBlock_cons_eq_ok h
    exact congrArg (· + 1) (ih hfs)

theorem backBlock_cons_eq_ok {i : Nat} {f : FrontSample} {fs : List FrontSample} {outs : List (F32 × F32)} :
    backBlock i (f :: fs) s = .ok outs t ↔
      ∃ out0 u out1 v rest, backTap i 0 f.forward f s = .ok out0 u ∧ backTap i 1 f.reverse f u = .ok out1 v ∧
        backBlock (i + 1) fs v = .ok rest t ∧ outs = (out0, out1) :: rest := by
  simp only [backBlock, Res.bind_eq_ok, Res.ok.injEq]
  constructor
  · rintro ⟨out0, u, h0, out1, v, h1, rest, _, hrest, rfl, rfl⟩
    exact ⟨out0, u, out1, v, rest, h0, h1, hrest, rfl⟩
  · rintro ⟨out0, u, out1, v, rest, h0, h1, hrest, rfl⟩
    exact ⟨out0, u, h0, out1, v, h1, rest, t, hrest, rfl, rfl⟩

theorem length_of_backBlock {i : Nat} {front : List FrontSample} {outs : List (F32 × F32)}
    (h : backBlock i front s = .ok outs t) : outs.length = front.length := by
  induction front generalizing i s outs with
  | nil => cases h; rfl
  | cons f fs ih =>
    obtain ⟨_, _, _, _, rest, -, -, hrest, rfl⟩ := backBlock_cons_eq_ok.mp h
    exact congrArg (· + 1) (ih hrest)

/-- A completed block answers two words per sample; it changes the datapath, `HB.len`, and HBUF as HB.PROCESS and
HB.RELEASE do. -/
theorem processBlock_frame {block : List FxSample} {outs : List F32} (h : processBlock block s = .ok outs t) :
    ∃ aaf cmp lfo xs, xs.length = block.length ∧ outs.length = 2 * block.length ∧
      t = { s with
        aaf, cmp, lfo
        hb := { s.hb with len := block.length, view := false }
        hbuf := (s.hbuf.writeList s.hb.lookBehind xs).copyDown block.length s.hb.lookBehind } := by
  simp only [processBlock, Res.bind_eq_ok] at h
  obtain ⟨front, _, hfront, _, _, hprocess, pairs, _, hback, _, _, hrelease, h⟩ := h
  cases h
  have hlen : (front.map FrontSample.compressed).length = block.length := by simpa using length_of_frontBlock hfront
  have hpairs := length_of_backBlock hback
  obtain ⟨_, _, _, rfl⟩ := frontBlock_frame hfront
  obtain ⟨-, -, -, -, rfl⟩ := (hbProcess_eq_ok ..).mp hprocess
  obtain ⟨_, rfl⟩ := backBlock_frame hback
  obtain ⟨-, -, -, rfl⟩ := (hbRelease_eq_ok ..).mp hrelease
  rw [← hlen]
  refine ⟨_, _, _, front.map FrontSample.compressed, rfl, ?_, rfl⟩
  simp only [List.length_append, List.length_map]
  omega

/-! ## The front half -/

/-- In a constructed chain a sample in range completes, and the LFO emits the first delays of its trajectory. -/
theorem frontSample_of_inRange {p : FxSample} (hs : s.Inv) (hc : s.fx.c = true) (hp : isInRange p.params = true)
    (hincr : isNonNegative (F32.div p.params.rate s.fx.fs) = true) (ps : List (F32 × F32)) :
    ∃ f t, frontSample p s = .ok f t ∧
      delaysOver s.lfo ((F32.div p.params.rate s.fx.fs, p.params.depth) :: ps) =
        (f.forward, f.reverse) :: delaysOver t.lfo ps := by
  obtain ⟨hlfo, -, hcmp, h0, -, -, hn⟩ := hs.chainConstructed hc
  have hdepth : isPercent p.params.depth = true := by
    simp only [isInRange, Bool.and_eq_true] at hp
    exact hp.1.1.2
  simp only [frontSample, Res.bind_eq_ok]
  exact ⟨_, _, ⟨_, _, (aafStep_eq_ok ..).mpr ⟨Nat.lt_of_lt_of_le (by decide) hn, h0, rfl, rfl⟩,
    _, _, (cmpDetect_eq_ok ..).mpr ⟨hcmp, rfl, rfl⟩, _, _, cmpCompress_eq .., _, _,
    (lfoStep_eq_ok ..).mpr ⟨hlfo, hincr, hdepth, rfl, rfl⟩, rfl⟩, rfl⟩

theorem frontBlock_of_inRange {block : List FxSample} (hs : s.Inv) (hf : s.fault = false) (hc : s.fx.c = true)
    (hblock : ∀ p ∈ block, isInRange p.params = true ∧ isNonNegative (F32.div p.params.rate s.fx.fs) = true) :
    ∃ front t, frontBlock block s = .ok front t ∧
      front.map (fun f => (f.forward, f.reverse)) =
        delaysOver s.lfo (block.map fun p => (F32.div p.params.rate s.fx.fs, p.params.depth)) := by
  induction block generalizing s with
  | nil => exact ⟨[], s, rfl, rfl⟩
  | cons p ps ih =>
    obtain ⟨hp, hps⟩ := List.forall_mem_cons.mp hblock
    obtain ⟨f, u, hu, hdelays⟩ := frontSample_of_inRange hs hc hp.1 hp.2
      (ps.map fun p => (F32.div p.params.rate s.fx.fs, p.params.depth))
    obtain ⟨hs', hf'⟩ := ((frontSample_performs p s).1 f u hu).keeps_clear hs hf
    obtain ⟨_, _, _, hframe⟩ := frontSample_frame hu
    have hfx : u.fx = s.fx := by rw [hframe]
    obtain ⟨fs, t, ht, htail⟩ := ih hs' hf' (by rw [hfx]; exact hc) (by rw [hfx]; exact hps)
    refine ⟨f :: fs, t, by simp [frontBlock, hu, ht], ?_⟩
    rw [List.map_cons, List.map_cons, hdelays, htail, hfx]

/-! ## The back half -/

/-- A delay sized for is readable (rule R122). -/
theorem dlRead_of_fit {i : Nat} {delay : F32} (hs : s.Inv) (hc : s.hb.c = true) (hsv : s.pk.sv = true)
    (hv : s.hb.view = true) (hlaw : s.cfg.phaseSel = .specDefault) (hi : i < s.hb.len) (hfit : delayFits s i delay) :
    ∃ y, dlRead i delay s = .ok y s := by
  obtain ⟨hd, hcausal, hsized⟩ := hfit
  have hback := defaultPhaseSel_back delay s.pk.nPhases s.pk.m
  have hread := dlRead_of_window_inside (i := i) hc hsv hv hi hd hs
  simp only [readWindow, hlaw, phaseSel] at hread
  exact ⟨_, hread (by omega) (by omega)⟩

/-- The state of the back half: a constructed chain with an open view of `n` samples and a split kernel. -/
structure State.ReadyToRead (s : State) (n : Nat) : Prop where
  inv : s.Inv
  clear : s.fault = false
  constructed : s.fx.c = true
  split : s.pk.sv = true
  opened : s.hb.view = true
  law : s.cfg.phaseSel = .specDefault
  len : s.hb.len = n

theorem hbProcess_readyToRead {xs : List F32} (hs : s.Inv) (hf : s.fault = false) (hc : s.fx.c = true)
    (hlen : xs.length ≤ s.hb.maxBlock) (hv : s.hb.view = false) (hsv : s.pk.sv = true)
    (hlaw : s.cfg.phaseSel = .specDefault) :
    ∃ t, hbProcess xs s = .ok () t ∧ t.ReadyToRead xs.length ∧ ∀ j d, delayFits s j d → delayFits t j d := by
  obtain ⟨-, hhb, -⟩ := hs.chainConstructed hc
  have hok := (hbProcess_eq_ok xs s _ ()).mpr ⟨hhb, hlen, hv, hs.block_fits hhb hlen, rfl⟩
  obtain ⟨hinv, hclear⟩ := ((hbProcess_performs (draws := false) (as := fxRuns) xs).1 _ _ hok).keeps_clear hs hf
  exact ⟨_, hok, ⟨hinv, hclear, hc, hsv, rfl, hlaw, rfl⟩, fun _ _ => id⟩

theorem backTap_of_fit {n i tap : Nat} {delay : F32} (f : FrontSample) (hs : s.ReadyToRead n) (hi : i < n)
    (htap : tap < 2) (hfit : delayFits s i delay) :
    ∃ out t, backTap i tap delay f s = .ok out t ∧ t.ReadyToRead n ∧ ∀ j d, delayFits s j d → delayFits t j d := by
  obtain ⟨-, hhb, -, -, h1, h2, hn⟩ := hs.inv.chainConstructed hs.constructed
  obtain ⟨y, hy⟩ := dlRead_of_fit hs.inv hhb hs.split hs.opened hs.law (hs.len.symm ▸ hi) hfit
  have hfilter : (s.aaf.get (1 + tap)).c = true := by interval_cases tap <;> assumption
  have hok : ∃ out t, backTap i tap delay f s = .ok out t := by
    simp only [backTap, Res.bind_eq_ok]
    exact ⟨_, _, _, _, hy, _, _, nlShape_eq .., _, _, cmpExpand_eq .., _, _,
      (aafStep_eq_ok ..).mpr ⟨by omega, hfilter, rfl, rfl⟩, rfl⟩
  obtain ⟨out, t, hok⟩ := hok
  have hreach := (backTap_performs i tap delay f s (by interval_cases tap <;> simp)).1 _ _ hok
  obtain ⟨hinv, hclear⟩ := hreach.keeps_clear hs.inv hs.clear
  obtain ⟨aaf, rfl⟩ := backTap_frame hok
  exact ⟨out, _, hok, ⟨hinv, hclear, hs.constructed, hs.split, hs.opened, hs.law, hs.len⟩, fun _ _ => id⟩

theorem backBlock_of_fit {n i : Nat} {front : List FrontSample} (hs : s.ReadyToRead n) (hi : i + front.length ≤ n)
    (hfit : ∀ j f, front[j]? = some f → delayFits s (i + j) f.forward ∧ delayFits s (i + j) f.reverse) :
    ∃ outs t, backBlock i front s = .ok outs t ∧ t.ReadyToRead n := by
  induction front generalizing i s with
  | nil => exact ⟨[], s, rfl, hs⟩
  | cons f fs ih =>
    rw [List.length_cons] at hi
    obtain ⟨hforward, hreverse⟩ := hfit 0 f rfl
    obtain ⟨out0, u, h0, hu, hfitu⟩ := backTap_of_fit (tap := 0) f hs (by omega) (by decide) hforward
    obtain ⟨out1, v, h1, hv, hfitv⟩ := backTap_of_fit (tap := 1) f hu (by omega) (by decide) (hfitu _ _ hreverse)
    have hrest (j : Nat) (g : FrontSample) (hg : fs[j]? = some g) :
        delayFits v (i + 1 + j) g.forward ∧ delayFits v (i + 1 + j) g.reverse := by
      obtain ⟨hforward, hreverse⟩ := hfit (j + 1) g hg
      rw [show i + 1 + j = i + (j + 1) by omega]
      exact ⟨hfitv _ _ (hfitu _ _ hforward), hfitv _ _ (hfitu _ _ hreverse)⟩
    obtain ⟨outs, t, hrest, ht⟩ := ih hv (by omega) hrest
    exact ⟨_, t, backBlock_cons_eq_ok.mpr ⟨out0, _, out1, _, outs, h0, h1, hrest, rfl⟩, ht⟩

/-! ## The command -/

/-- A block in range on delays sized for completes (rules R122, R158). -/
theorem processBlock_of_sized {block : List FxSample} (hs : s.Inv) (hf : s.fault = false) (hc : s.fx.c = true)
    (hlen : block.length ≤ s.hb.maxBlock) (hv : s.hb.view = false) (hsv : s.pk.sv = true)
    (hlaw : s.cfg.phaseSel = .specDefault)
    (hblock : ∀ p ∈ block, isInRange p.params = true ∧ isNonNegative (F32.div p.params.rate s.fx.fs) = true)
    (hfit : ∀ i d, (delaysOver s.lfo
        (block.map fun p => (F32.div p.params.rate s.fx.fs, p.params.depth)))[i]? = some d →
      delayFits s i d.1 ∧ delayFits s i d.2) :
    ∃ outs t, processBlock block s = .ok outs t := by
  obtain ⟨front, u, hfront, hdelays⟩ := frontBlock_of_inRange hs hf hc hblock
  have hcount : (front.map FrontSample.compressed).length = block.length := by
    simpa using length_of_frontBlock hfront
  obtain ⟨hu, hfu⟩ := ((frontBlock_performs block s).1 front u hfront).keeps_clear hs hf
  obtain ⟨_, _, _, rfl⟩ := frontBlock_frame hfront
  obtain ⟨v, hprocess, hready, hfits⟩ := hbProcess_readyToRead hu hfu hc (hcount.trans_le hlen) hv hsv hlaw
  have hsized (j : Nat) (f : FrontSample) (hj : front[j]? = some f) :
      delayFits v (0 + j) f.forward ∧ delayFits v (0 + j) f.reverse := by
    obtain ⟨hforward, hreverse⟩ := hfit j (f.forward, f.reverse) (by rw [← hdelays, List.getElem?_map, hj]; rfl)
    rw [Nat.zero_add]
    exact ⟨hfits _ _ hforward, hfits _ _ hreverse⟩
  obtain ⟨outs, w, hback, hopen⟩ := backBlock_of_fit hready (by simp) hsized
  obtain ⟨-, hhb, -⟩ := hopen.inv.chainConstructed hopen.constructed
  have hrelease := (hbRelease_eq_ok w _ ()).mpr ⟨hhb, hopen.opened, hopen.inv.view_fits hhb, rfl⟩
  simp only [processBlock, Res.bind_eq_ok]
  exact ⟨_, _, _, _, hfront, _, _, hprocess, _, _, hback, _, _, hrelease, rfl⟩

/-- Settles O58: the block completes, and what a completed block leaves is the statement's. -/
theorem fxProcessCompletesOnSizedDelays : Obligations.FxProcessCompletesOnSizedDelays := by
  intro s block hs hf hc hrun hlen hv hsv hlaw hblock hfit
  obtain ⟨outs, t, hwhole⟩ := processBlock_of_sized hs hf hc hlen hv hsv hlaw hblock hfit
  have hop := fxProcess_of_checks hc hrun hlen hv fun p hp => (hblock p hp).1
  rw [hwhole, chain_of_ok] at hop
  have hexec : exec (.fxProcess block) s = .next (t.respond outs) := command_of_ok id _ s t outs hf hop
  obtain ⟨hpk, hkram, hpram, hkept, -⟩ := kernelFrame_of_chain rfl (by simp) hexec
  obtain ⟨-, -, -, hlfo, hcmp, -⟩ := configurationIsWrittenOnlyByConstructors _ _ _ hexec
  replace hlfo := not_ne_iff.mp fun hne => by simpa using hlfo hne
  replace hcmp := not_ne_iff.mp fun hne => by simpa using hcmp hne
  obtain ⟨aaf, cmp, lfo, xs, hxs, houts, rfl⟩ := processBlock_frame hwhole
  obtain ⟨hf3, hfreed⟩ := hkept rfl
  simp only [Prod.mk.injEq] at hlfo hcmp
  obtain ⟨hpoint, hscale, halpha⟩ := hlfo
  obtain ⟨hattack, hrelease⟩ := hcmp
  refine ⟨_, hexec, hf, houts, ?_, rfl, hpoint, hscale, halpha, hattack, hrelease, hf3, hpk, hkram, hpram, hfreed,
    fun a ha => ?_⟩
  · simp [hv]
  · have hwf := Mem.wf_writeList _ s.hb.lookBehind xs hs.hbufCanonical
    simp only [State.respond_hbuf]
    rw [Mem.read_copyDown _ _ _ _ hwf, if_neg (by omega), Mem.read_writeList _ _ _ _ hs.hbufCanonical,
      if_neg (by omega)]

end Sys2Proof.Machine
end

section
/-!
The mix (rule R161): a magnitude that a word holds rounds to itself, so multiplying by 1.0 and adding a zero keep every
value that is no NaN, and multiplying a finite value by zero gives a zero.
-/

namespace Sys2Proof

/-! ## Magnitudes that need no rounding -/

/-- Every magnitude field is a significand of at most 24 bits at some exponent. -/
theorem F32.exists_significand (m : Nat) :
    ∃ shift q, m = shift * 2 ^ 23 + q ∧ q < 2 ^ 24 ∧ (shift = 0 ∨ 2 ^ 23 ≤ q) := by
  by_cases h : m < 2 ^ 24
  · exact ⟨0, m, by omega, h, .inl rfl⟩
  · exact ⟨m / 2 ^ 23 - 1, 2 ^ 23 + m % 2 ^ 23, by omega, by omega, .inr (by omega)⟩

/-- The exponent `F32.roundMag` chooses for a significand at an exponent. -/
theorem F32.log2_significand {shift q : Nat} (hq : q < 2 ^ 24) (hn : shift = 0 ∨ 2 ^ 23 ≤ q) :
    Nat.log2 (q * 2 ^ shift) - 23 = shift := by
  rcases Nat.eq_zero_or_pos q with rfl | hpos
  · simp; omega
  have hlow : Nat.log2 (q * 2 ^ shift) < 24 + shift := by
    rw [Nat.log2_lt (by positivity), pow_add]
    exact Nat.mul_lt_mul_of_pos_right hq (Nat.two_pow_pos _)
  rcases hn with rfl | hn
  · omega
  · have hhigh : 23 + shift ≤ Nat.log2 (q * 2 ^ shift) := by
      rw [Nat.le_log2 (by positivity), pow_add]
      exact Nat.mul_le_mul_right _ hn
    omega

/-- A magnitude that a word holds rounds to itself. -/
theorem F32.roundMag_unitsOfMag {m den : Nat} (hm : m ≤ F32.infMag) (hden : 0 < den) :
    F32.roundMag (F32.unitsOfMag m * den) den = m := by
  obtain ⟨shift, q, rfl, hq, hn⟩ := F32.exists_significand m
  have hexact : q * 2 ^ shift * den = den * 2 ^ shift * q := by ring
  have hstep : 0 < den * 2 ^ shift := by positivity
  rw [F32.unitsOfMag_shift shift q hq hn, F32.roundMag]
  simp only [Nat.mul_div_cancel _ hden, F32.log2_significand hq hn]
  rw [hexact, Nat.mul_div_cancel_left _ hstep, Nat.mul_mod_right]
  rw [if_neg (by omega), Nat.add_zero, Nat.min_eq_left hm]

/-! ## Words by their fields -/

/-- A word is packed from its own sign and magnitude. -/
theorem F32.pack_fields (w : F32) : F32.pack (F32.neg? w) (F32.mag w) = w := by
  have hsum : (if F32.neg? w then 2 ^ 31 else 0) + F32.mag w = w.toNat := by
    have hlt : w.toNat < 2 ^ 32 := w.isLt
    simp only [F32.neg?, F32.mag, BitVec.msb_eq_decide, decide_eq_true_eq]
    split <;> omega
  rw [F32.pack, hsum, BitVec.ofNat_toNat, BitVec.setWidth_eq]

theorem F32.mag_le_of_not_isNaN {w : F32} (hw : F32.isNaN w = false) : F32.mag w ≤ F32.infMag :=
  not_lt.mp (of_decide_eq_false hw)

theorem F32.order_eq_zero_iff (w : F32) : F32.order w = 0 ↔ F32.mag w = 0 := by
  unfold F32.order
  split <;> omega

/-- A value that is no NaN is infinite or finite. -/
theorem F32.isFinite_of_not_isInf {w : F32} (hnan : F32.isNaN w = false) (hinf : F32.isInf w = false) :
    F32.isFinite w = true := by
  have hle := F32.mag_le_of_not_isNaN hnan
  have hne : F32.mag w ≠ F32.infMag := by simpa [F32.isInf] using hinf
  exact decide_eq_true (lt_of_le_of_ne hle hne)

theorem F32.unit_pos : 0 < F32.unit := Nat.two_pow_pos 149

theorem F32.units_one : F32.units F32.one = F32.unit := by decide

/-- The product with 1.0. -/
theorem F32.mul_one {w : F32} (hw : F32.isNaN w = false) : F32.mul w F32.one = w := by
  have hpack := F32.pack_fields w
  have hsign : (F32.neg? w ^^ F32.neg? F32.one) = F32.neg? w := Bool.xor_false _
  cases hinf : F32.isInf w with
  | true =>
    have hmag : F32.mag w = F32.infMag := by simpa [F32.isInf] using hinf
    have hone : F32.isNaN F32.one = false ∧ F32.mag F32.one ≠ 0 := by decide
    rw [hmag] at hpack
    simp [F32.mul, hw, hinf, hone, hmag, hsign, hpack, show F32.infMag ≠ 0 by decide]
  | false =>
    rw [Machine.mul_of_isFinite w F32.one (F32.isFinite_of_not_isInf hw hinf) (by decide), hsign, F32.units_one,
      F32.units, F32.roundMag_unitsOfMag (F32.mag_le_of_not_isNaN hw) F32.unit_pos, hpack]

/-- The product of a finite value and zero is a zero. -/
theorem F32.mag_mul_zero {w : F32} (hw : F32.isFinite w = true) : F32.mag (F32.mul w F32.zero) = 0 := by
  have hzero : F32.units w * F32.units F32.zero = F32.unitsOfMag 0 * F32.unit := by
    simp [F32.units, F32.unitsOfMag, show F32.mag F32.zero = 0 from rfl]
  rw [Machine.mul_of_isFinite w F32.zero hw (by decide), hzero,
    F32.roundMag_unitsOfMag (Nat.zero_le _) F32.unit_pos, F32.mag_pack _ _ (Nat.zero_le _)]

/-! ## Sums with a zero -/

/-- The same number as `w`, and the same word where `w` is not a zero. -/
def F32.SameValue (v w : F32) : Prop := F32.eq v w = true ∧ (F32.order w ≠ 0 → v = w)

theorem F32.sameValue_refl {w : F32} (hw : F32.isNaN w = false) : F32.SameValue w w :=
  ⟨by simp [F32.eq, hw], fun _ => rfl⟩

theorem F32.value_of_mag_zero {w : F32} (h : F32.mag w = 0) : F32.value w = 0 := by
  simp [F32.value, F32.units, F32.unitsOfMag, h]

theorem F32.isFinite_of_mag_zero {w : F32} (h : F32.mag w = 0) : F32.isFinite w = true := by
  rw [F32.isFinite, h]
  rfl

/-- A finite value that is not zero is the sum it rounds to. -/
theorem F32.ofUnits_value {w : F32} (hw : F32.isFinite w = true) (h0 : F32.mag w ≠ 0) (zeroNeg : Bool) :
    F32.ofUnits (F32.value w) zeroNeg = w := by
  have hpos : 0 < F32.units w := (Machine.units_pos_iff w).mpr h0
  have hfields : F32.value w ≠ 0 ∧ decide (F32.value w < 0) = F32.neg? w ∧ (F32.value w).natAbs = F32.units w := by
    unfold F32.value
    cases F32.neg? w <;> simp <;> omega
  obtain ⟨hne, hsign, habs⟩ := hfields
  have hround : F32.roundMag (F32.units w) 1 = F32.mag w := by
    simpa [F32.units] using F32.roundMag_unitsOfMag (den := 1) (of_decide_eq_true hw).le Nat.one_pos
  rw [F32.ofUnits, if_neg hne, hsign, habs, hround, F32.pack_fields]

/-- A sum that is exactly `w`, of either zero where `w` is one. -/
theorem F32.sameValue_ofUnits {w : F32} (hw : F32.isFinite w = true) (zeroNeg : Bool) :
    F32.SameValue (F32.ofUnits (F32.value w) zeroNeg) w := by
  by_cases h0 : F32.mag w = 0
  · have hord := (F32.order_eq_zero_iff w).mpr h0
    refine ⟨?_, fun h => absurd hord h⟩
    rw [F32.value_of_mag_zero h0, F32.eq, hord, Machine.not_isNaN_of_isFinite hw]
    cases zeroNeg <;> decide
  · rw [F32.ofUnits_value hw h0]
    exact F32.sameValue_refl (Machine.not_isNaN_of_isFinite hw)

/-- A zero added on either side keeps the value. -/
theorem F32.sameValue_add_zero {w z : F32} (hw : F32.isNaN w = false) (hz : F32.mag z = 0) :
    F32.SameValue (F32.add w z) w ∧ F32.SameValue (F32.add z w) w := by
  have hfin := F32.isFinite_of_mag_zero hz
  cases hinf : F32.isInf w with
  | true =>
    have hadd : F32.add w z = w ∧ F32.add z w = w := by
      simp [F32.add, F32.addCore, hw, hinf, Machine.not_isNaN_of_isFinite hfin, Machine.not_isInf_of_isFinite hfin]
    rw [hadd.1, hadd.2]
    exact ⟨F32.sameValue_refl hw, F32.sameValue_refl hw⟩
  | false =>
    have hwfin := F32.isFinite_of_not_isInf hw hinf
    rw [Machine.add_of_isFinite w z hwfin hfin, Machine.add_of_isFinite z w hfin hwfin, F32.value_of_mag_zero hz,
      Int.add_zero, Int.zero_add]
    exact ⟨F32.sameValue_ofUnits hwfin _, F32.sameValue_ofUnits hwfin _⟩

end Sys2Proof

namespace Sys2Proof.Machine

/-- The weights at `mix` 0 and 100 (rule R161). -/
theorem mixWeights :
    F32.div 0x00000000#32 F32.hundred = F32.zero ∧ F32.div 0x42C80000#32 F32.hundred = F32.one ∧
      F32.sub F32.one F32.zero = F32.one ∧ F32.sub F32.one F32.one = F32.zero := by
  refine ⟨?_, ?_, ?_, ?_⟩ <;> decide

/-- Settles O57: at the ends of the crossfade one product is the sample itself and the other a zero. -/
theorem mixIsALinearCrossfade : Obligations.MixIsALinearCrossfade := by
  intro dry wet mix bypass
  obtain ⟨hdry, hwet, hone, hzero⟩ := mixWeights
  refine ⟨fun h => if_pos h, fun h => if_neg h, fun h hfin hnan => ?_, fun h hfin hnan => ?_⟩
  · have hmix : mixSample dry wet 0x00000000#32 bypass = F32.add dry (F32.mul wet F32.zero) := by
      simp only [mixSample, if_neg h, hdry, hone, F32.mul_one hnan]
    rw [hmix]
    exact (F32.sameValue_add_zero hnan (F32.mag_mul_zero hfin)).1
  · have hmix : mixSample dry wet 0x42C80000#32 bypass = F32.add (F32.mul dry F32.zero) wet := by
      simp only [mixSample, if_neg h, hwet, hzero, F32.mul_one hnan]
    rw [hmix]
    exact (F32.sameValue_add_zero hnan (F32.mag_mul_zero hfin)).2

end Sys2Proof.Machine
end

section
/-!
FX.NEW (rule R155): its constituents complete where the machine's parameters fit them, and construct every unit; where
one does not fit, the first such constituent faults, and with fewer than three filters AAF.NEW does.
-/

namespace Sys2Proof.Machine

variable {s : State} {fs : F32} {mb : Nat}

/-! ## The kernel -/

theorem kernelFits_iff (cfg : Params) :
    KernelFits cfg ↔
      (isCount cfg.kLen = true ∧ 1 ≤ cfg.kLen ∧ cfg.kLen ≤ cfg.kramWords) ∧ isPositive cfg.kInc = true := by
  rw [KernelFits, isCount_iff, isPositive_iff, and_assoc, and_assoc]

/-- The state after PK.LPF with the machine's parameters. -/
def State.kernelLoaded (s : State) : State :=
  { s with
    kram := s.kram.writeList 0 (lpfTaps s.cfg.lpf s.cfg.kLen s.cfg.kInc)
    pk := { s.pk with kLen := s.cfg.kLen, kv := true, sv := false } }

/-- The state after PK.SPLIT with the machine's parameters. -/
def State.kernelSplit (s : State) : State :=
  { s.kernelLoaded with
    pram := s.pram.writeList 0
      (splitTaps (s.kernelLoaded.kram.readList 0 s.cfg.kLen) s.cfg.nPhases (s.cfg.kLen / s.cfg.nPhases))
    pk := ⟨true, true, s.cfg.kLen, s.cfg.nPhases, s.cfg.kLen / s.cfg.nPhases⟩ }

theorem pkLpf_of_fit (h : KernelFits s.cfg) : pkLpf s.cfg.kLen s.cfg.kInc s = .ok () s.kernelLoaded := by
  obtain ⟨hlen, hinc⟩ := (kernelFits_iff s.cfg).mp h
  exact (pkLpf_eq_ok ..).mpr ⟨hlen, hinc, rfl⟩

theorem pkLpf_of_not_fit (h : ¬KernelFits s.cfg) : pkLpf s.cfg.kLen s.cfg.kInc s = .trap .badConfig s :=
  (pkLpf_eq_trap ..).mpr ⟨mt (kernelFits_iff s.cfg).mpr h, rfl, rfl⟩

theorem pkSplit_of_fit (h : KernelFits s.cfg) (hn : 1 ≤ s.cfg.nPhases) (hdvd : s.cfg.kLen % s.cfg.nPhases = 0) :
    pkSplit s.kernelLoaded.cfg.nPhases s.kernelLoaded = .ok () s.kernelSplit := by
  obtain ⟨-, -, hfit, -⟩ := h
  exact (pkSplit_eq_ok ..).mpr ⟨rfl, hn, hdvd, hfit, rfl⟩

/-! ## The history -/

/-- The look-behind FX.NEW constructs, within the delay bounds LFO.NEW accepts (rule R155). -/
def historyLength (cfg : Params) (fs : F32) : Nat :=
  F32.floorNat (fxLfoBounds cfg fs).2 + (cfg.kLen / cfg.nPhases + 1) / 2

/-- Delay bounds in order have a finite upper bound at or above zero. -/
theorem upper_of_isDelayBounds {lo hi : F32} (h : isDelayBounds lo hi = true) :
    F32.isFinite hi = true ∧ F32.le F32.zero hi = true := by
  simp only [isDelayBounds, Bool.and_eq_true] at h
  obtain ⟨⟨⟨hlo, hhi⟩, h0⟩, hlt⟩ := h
  rw [F32.le_iff (by decide) hlo] at h0
  rw [F32.lt_iff hlo hhi] at hlt
  exact ⟨hhi, (F32.le_iff (by decide) hhi).mpr (h0.trans hlt.le)⟩

theorem fxHbNew_of_bounds (h : isDelayBounds (fxLfoBounds s.cfg fs).1 (fxLfoBounds s.cfg fs).2 = true) :
    fxHbNew fs mb s = hbNew (historyLength s.cfg fs) mb s := by
  obtain ⟨hfin, h0⟩ := upper_of_isDelayBounds h
  exact fxHbNew_of_nonneg fs mb s hfin h0

/-- The construction of the history completes and keeps the parameters and `FAULT`, or faults BAD_CONFIG. -/
theorem fxHbNew_ok_or_trap (fs : F32) (mb : Nat) (s : State) :
    (∃ u, fxHbNew fs mb s = .ok () u ∧ u.cfg = s.cfg ∧ u.fault = s.fault) ∨ fxHbNew fs mb s = .trap .badConfig s := by
  rcases fxHbNew_cases fs mb s with ⟨lb, h⟩ | h
  · rw [h]
    by_cases hfit : isCount lb = true ∧ isBlockLength mb = true ∧ lb + mb ≤ s.cfg.hbufWords
    · exact .inl ⟨_, (hbNew_eq_ok ..).mpr ⟨hfit.1, hfit.2.1, hfit.2.2, rfl⟩, rfl, rfl⟩
    · exact .inr ((hbNew_eq_trap ..).mpr ⟨hfit, rfl, rfl⟩)
  · exact .inr h

/-! ## The filters -/

/-- A filter as AAF.NEW constructs it (rule R145). -/
def Aaf.constructed (law : Law) (fs : F32) : Aaf :=
  ⟨true, if F32.le fs aafThreshold then none else some (svfCoefficient law aafCutoff fs), zeroStage, zeroStage⟩

/-- The last constituents of FX.NEW and its own registers (rule R155). -/
def constructFilters (fs : F32) (s : State) : Res Unit :=
  (aafNew 0 fs s).bind fun _ s =>
  (aafNew 1 fs s).bind fun _ s =>
  (aafNew 2 fs s).bind fun _ s =>
  .ok () { s with fx := { c := true, run := false, fs := fs } }

theorem constructFilters_of_three (hfs : isPositive fs = true) (hn : 3 ≤ s.cfg.nAaf.val) :
    constructFilters fs s = .ok () { s with
      aaf := ⟨.constructed s.cfg.svf fs, .constructed s.cfg.svf fs, .constructed s.cfg.svf fs, s.aaf.f3⟩
      fx := ⟨true, false, fs⟩ } := by
  simp only [constructFilters, Res.bind_eq_ok]
  exact ⟨(), _, (aafNew_eq_ok ..).mpr ⟨Nat.lt_of_lt_of_le (by decide) hn, hfs, rfl⟩,
    (), _, (aafNew_eq_ok ..).mpr ⟨Nat.lt_of_lt_of_le (by decide) hn, hfs, rfl⟩,
    (), _, (aafNew_eq_ok ..).mpr ⟨hn, hfs, rfl⟩, rfl⟩

/-- With a legal `fs` there is no filter of this number, or it is constructed. -/
theorem aafNew_trap_or_ok (k : Nat) (hfs : isPositive fs = true) :
    aafNew k fs s = .trap .badInstance s ∨
      k < s.cfg.nAaf.val ∧ ∃ t, aafNew k fs s = .ok () t ∧ t.cfg = s.cfg ∧ t.fault = s.fault := by
  by_cases hk : k < s.cfg.nAaf.val
  · exact .inr ⟨hk, _, (aafNew_eq_ok ..).mpr ⟨hk, hfs, rfl⟩, rfl, rfl⟩
  · exact .inl ((aafNew_eq_trap ..).mpr ⟨rfl, .inl ⟨not_lt.mp hk, rfl⟩⟩)

theorem constructFilters_of_few (hfs : isPositive fs = true) (hn : s.cfg.nAaf.val < 3) :
    ∃ t, constructFilters fs s = .trap .badInstance t ∧ t.fault = s.fault := by
  unfold constructFilters
  obtain h0 | ⟨-, t, h0, hcfg0, hf0⟩ := aafNew_trap_or_ok (s := s) 0 hfs
  · exact ⟨s, by rw [h0]; rfl, rfl⟩
  obtain h1 | ⟨-, u, h1, hcfg1, hf1⟩ := aafNew_trap_or_ok (s := t) 1 hfs
  · exact ⟨t, by rw [h0, Res.bind_ok, h1]; rfl, hf0⟩
  obtain h2 | ⟨hk, -⟩ := aafNew_trap_or_ok (s := u) 2 hfs
  · exact ⟨u, by rw [h0, Res.bind_ok, h1, Res.bind_ok, h2]; rfl, hf1.trans hf0⟩
  · rw [hcfg1, hcfg0] at hk
    omega

/-! ## The constituents in sequence -/

theorem Res.bind_of_ok {α β : Type} {r : Res α} {a : α} {t : State} (h : r = .ok a t) (k : α → State → Res β) :
    r.bind k = k a t := by
  rw [h, Res.bind_ok]

/-- The units but the filters as FX.NEW constructs them (rule R155). -/
def State.unitsBuilt (s : State) (fs : F32) (mb : Nat) : State :=
  { s.kernelSplit with
    hb := ⟨true, false, historyLength s.cfg fs, mb, 0⟩
    hbuf := s.hbuf.zeroFill (historyLength s.cfg fs + mb)
    lfo := ⟨true, lfoPointOf s.cfg.lfoLaw (fxLfoBounds s.cfg fs).1 (fxLfoBounds s.cfg fs).2,
      lfoScaleOf s.cfg.lfoLaw (fxLfoBounds s.cfg fs).1 (fxLfoBounds s.cfg fs).2,
      lfoAlphaOf (lfoPointOf s.cfg.lfoLaw (fxLfoBounds s.cfg fs).1 (fxLfoBounds s.cfg fs).2), F32.zero, none⟩
    cmp := ⟨true, onePole tauAttack fs, onePole tauRelease fs, F32.one⟩ }

/-- What the constituents of FX.NEW check of a machine's parameters. -/
def FitsChain (cfg : Params) (fs : F32) (mb : Nat) : Prop :=
  ConstituentsFit cfg (fxLfoBounds cfg fs).1 (fxLfoBounds cfg fs).2 (cfg.kLen / cfg.nPhases) mb

theorem fxConstruct_of_fit (hfs : isPositive fs = true) (hmb : isBlockLength mb = true) (h : FitsChain s.cfg fs mb) :
    fxConstruct fs mb s = constructFilters fs (s.unitsBuilt fs mb) := by
  obtain ⟨hk, hn, hdvd, hcount, hfit, hbounds⟩ := h
  have hhb : fxHbNew fs mb s.kernelSplit = .ok () _ :=
    (fxHbNew_of_bounds (s := s.kernelSplit) hbounds).trans
      ((hbNew_eq_ok ..).mpr ⟨(isCount_iff _).mpr hcount, hmb, hfit, rfl⟩)
  exact (Res.bind_of_ok (pkLpf_of_fit hk) _).trans <| (Res.bind_of_ok (pkSplit_of_fit hk hn hdvd) _).trans <|
    (Res.bind_of_ok hhb _).trans <| (Res.bind_of_ok (a := ()) ((lfoNew_eq_ok ..).mpr ⟨hbounds, rfl⟩) _).trans <|
    Res.bind_of_ok (a := ()) ((cmpNew_eq_ok ..).mpr ⟨hfs, rfl⟩) _

/-- The first constituent that the parameters do not fit faults BAD_CONFIG. -/
theorem fxConstruct_of_not_fit (h : ¬FitsChain s.cfg fs mb) :
    ∃ t, fxConstruct fs mb s = .trap .badConfig t ∧ t.fault = s.fault := by
  unfold fxConstruct
  by_cases hk : ¬KernelFits s.cfg
  · exact ⟨s, by rw [pkLpf_of_not_fit hk]; rfl, rfl⟩
  rw [not_not] at hk
  rw [pkLpf_of_fit hk, Res.bind_ok]
  by_cases hsplit : ¬(1 ≤ s.cfg.nPhases ∧ s.cfg.kLen % s.cfg.nPhases = 0)
  · have htrap : pkSplit s.kernelLoaded.cfg.nPhases s.kernelLoaded = .trap .badConfig s.kernelLoaded :=
      (pkSplit_eq_trap ..).mpr ⟨rfl, .inr ⟨rfl, hsplit, rfl⟩⟩
    exact ⟨s.kernelLoaded, by rw [htrap]; rfl, rfl⟩
  rw [not_not] at hsplit
  rw [Res.bind_of_ok (pkSplit_of_fit hk hsplit.1 hsplit.2)]
  by_cases hbounds : isDelayBounds (fxLfoBounds s.cfg fs).1 (fxLfoBounds s.cfg fs).2 = true
  · have hbad : ¬(isCount (historyLength s.cfg fs) = true ∧ isBlockLength mb = true ∧
        historyLength s.cfg fs + mb ≤ s.cfg.hbufWords) := fun ⟨hcount, _, hfit⟩ =>
      h ⟨hk, hsplit.1, hsplit.2, (isCount_iff _).mp hcount, hfit, hbounds⟩
    have htrap : fxHbNew fs mb s.kernelSplit = .trap .badConfig s.kernelSplit :=
      (fxHbNew_of_bounds (s := s.kernelSplit) hbounds).trans ((hbNew_eq_trap ..).mpr ⟨hbad, rfl, rfl⟩)
    exact ⟨s.kernelSplit, by rw [htrap]; rfl, rfl⟩
  · obtain ⟨u, hu, hcfg, hf⟩ | htrap := fxHbNew_ok_or_trap fs mb s.kernelSplit
    · have hlfo : lfoNew (fxLfoBounds u.cfg fs).1 (fxLfoBounds u.cfg fs).2 u = .trap .badConfig u :=
        (lfoNew_eq_trap ..).mpr ⟨by rw [hcfg]; exact Bool.eq_false_of_not_eq_true hbounds, rfl, rfl⟩
      exact ⟨u, by rw [hu, Res.bind_ok, hlfo]; rfl, hf⟩
    · exact ⟨s.kernelSplit, by rw [htrap]; rfl, rfl⟩

/-! ## The command -/

theorem fxNew_of_checks (hfs : isPositive fs = true) (hmb : isBlockLength mb = true) :
    fxNew fs mb s = chain (pkLpf s.cfg.kLen s.cfg.kInc s) (fxConstruct fs mb s) := by
  simp [fxNew, hfs, hmb]

/-- Settles O53: the outcomes of the constituents in sequence; the kernel's words are those of PK.LPF and PK.SPLIT. -/
theorem fxNewConstructsTheChain : Obligations.FxNewConstructsTheChain := by
  intro s fs mb lo hi m g hs
  refine ⟨command_of_fault _ _ s, fun hf hbad => ?_, fun hf hfs hlow hhigh hm hlohi => ?_⟩
  · have hcheck : (isPositive fs && isBlockLength (countOf mb)) = false := by
      rw [Bool.eq_false_iff, ne_eq, Bool.and_eq_true, isBlockLength_iff]
      exact hbad
    exact command_of_precise_trap (c := .badConfig) _ hf (by simp only [fxNew, hcheck]; rfl)
  subst hm
  obtain ⟨rfl, rfl⟩ := Prod.mk.inj hlohi
  have hmb : isBlockLength (countOf mb) = true := (isBlockLength_iff _).mpr ⟨hlow, hhigh⟩
  have hop := fxNew_of_checks (s := s) hfs hmb
  refine ⟨fun hk => ?_, fun hbad => ?_, fun hfit hn => ?_, fun hfit hn hg => ?_⟩
  · have hlpf := pkLpf_of_not_fit hk
    have htrap : fxNew fs (countOf mb) s = .trap .badConfig s := by rw [hop, fxConstruct, hlpf]; rfl
    exact command_of_precise_trap _ hf htrap
  · obtain ⟨t, htrap, hft⟩ := fxConstruct_of_not_fit hbad
    exact command_of_chain_trap noWords hf hop htrap (hft.trans hf)
  · obtain ⟨t, htrap, hft⟩ := constructFilters_of_few (s := s.unitsBuilt fs (countOf mb)) hfs hn
    exact command_of_chain_trap noWords hf hop ((fxConstruct_of_fit hfs hmb hfit).trans htrap) (hft.trans hf)
  · rw [fxConstruct_of_fit hfs hmb hfit, constructFilters_of_three (s := s.unitsBuilt fs (countOf mb)) hfs hn,
      chain_of_ok] at hop
    obtain ⟨-, -, hdvd, -, -, hbounds⟩ := hfit
    rw [← aafThreshold_eq, ← aafCutoff_eq] at hg
    subst hg
    have hmul : s.cfg.nPhases * (s.cfg.kLen / s.cfg.nPhases) = s.cfg.kLen :=
      Nat.mul_div_cancel' (Nat.dvd_of_mod_eq_zero hdvd)
    refine ⟨_, command_of_ok _ _ s _ () hf hop, rfl, Mem.read_zeroFill _ _,
      ⟨_, command_of_ok _ _ s _ () hf ((lfoNew_eq_ok ..).mpr ⟨hbounds, rfl⟩), rfl⟩,
      ⟨_, command_of_ok _ _ s _ () hf ((cmpNew_eq_ok ..).mpr ⟨hfs, rfl⟩), rfl⟩, fun a => ?_, fun p j hp hj => ?_,
      fun a ha => ?_⟩
    · have hread := Mem.read_writeList_zero s.kram (lpfTaps s.cfg.lpf s.cfg.kLen s.cfg.kInc) a hs.kramCanonical
      rwa [length_lpfTaps] at hread
    · have hread := Mem.read_split_phase s.kernelLoaded.kram s.pram hs.pramCanonical hp hj
      rwa [hmul] at hread
    · exact Mem.read_split_beyond _ _ hs.pramCanonical (hmul.trans_le ha)

end Sys2Proof.Machine
end

section
/-!
Noninterference (rules R24, R190; 93 X1): two states that meet the invariant and agree on all that a set flag makes
readable go on agreeing. Every operation makes the same checks in both, answers the same words and writes the same
values where they can be read, since it reads a register or word only under the flag that guards it; and no access is
out of range, so every operation goes on.
-/

namespace Sys2Proof.Machine

/-! ## States that agree -/

/-- Both states meet the invariant, and they agree on every flag and on all that a set flag makes readable. -/
structure State.Agrees (s t : State) : Prop where
  left : s.Inv
  right : t.Inv
  same : SameObservable s t

/-- Two operations go on with states that `R` relates: both complete with the same result, or fault with the same
cause. Neither stops the model. -/
inductive Res.Agrees {α : Type} (R : State → State → Prop) : Res α → Res α → Prop
  | ok (a : α) {s t : State} (h : R s t) : Agrees R (.ok a s) (.ok a t)
  | trap (c : Cause) {s t : State} (h : R s t) : Agrees R (.trap c s) (.trap c t)

/-- From states that `R` relates the operation goes on with states that `R` relates. -/
def Keeps {α : Type} (R : State → State → Prop) (op : State → Res α) : Prop := ∀ s t, R s t → (op s).Agrees R (op t)

theorem SameObservable.refl (s : State) : SameObservable s s := by
  constructor <;> simp

theorem SameObservable.respond {s t : State} (h : SameObservable s t) (ws : List Word) :
    SameObservable (s.respond ws) (t.respond ws) :=
  { h with resp := rfl }

theorem SameObservable.setPort {s t : State} (h : SameObservable s t) (ws : List Word) :
    SameObservable { s with port := ws } { t with port := ws } :=
  { h with port := rfl }

theorem SameObservable.raise {s t : State} (h : SameObservable s t) (c : Cause) :
    SameObservable (s.raise c) (t.raise c) := by
  unfold State.raise
  rw [← h.fault]
  split
  · exact h.respond []
  · exact { h with resp := rfl, fault := rfl, cause := rfl }

/-- STATUS displays flags alone (rule R23). -/
theorem SameObservable.status {s t : State} (h : SameObservable s t) : s.status = t.status := by
  obtain ⟨hc0, hg0⟩ : s.aaf.f0.c = t.aaf.f0.c ∧ s.aafGv 0 = t.aafGv 0 := h.aafFlags 0 (by decide)
  obtain ⟨hc1, hg1⟩ : s.aaf.f1.c = t.aaf.f1.c ∧ s.aafGv 1 = t.aafGv 1 := h.aafFlags 1 (by decide)
  obtain ⟨hc2, hg2⟩ : s.aaf.f2.c = t.aaf.f2.c ∧ s.aafGv 2 = t.aafGv 2 := h.aafFlags 2 (by decide)
  obtain ⟨hc3, hg3⟩ : s.aaf.f3.c = t.aaf.f3.c ∧ s.aafGv 3 = t.aafGv 3 := h.aafFlags 3 (by decide)
  simp only [State.status, State.lfoOv, h.fault, h.cause, h.lfoFlags, h.hbFlags, h.pkFlags, h.cmpFlags, h.fxFlags,
    hc0, hc1, hc2, hc3, hg0, hg1, hg2, hg3]

/-! ## Sequences, checks and chains -/

section
variable {α β : Type} {R Q : State → State → Prop}

theorem Res.Agrees.mono {r r' : Res α} (hr : r.Agrees R r') (h : ∀ s t, R s t → Q s t) : r.Agrees Q r' := by
  cases hr with
  | ok a hst => exact .ok a (h _ _ hst)
  | trap c hst => exact .trap c (h _ _ hst)

theorem Res.Agrees.bind {r r' : Res α} {k k' : α → State → Res β} (hr : r.Agrees R r') (h : ∀ s t, R s t → Q s t)
    (hk : ∀ a s t, R s t → (k a s).Agrees Q (k' a t)) : (r.bind k).Agrees Q (r'.bind k') := by
  cases hr with
  | ok a hst => exact hk a _ _ hst
  | trap c hst => exact .trap c (h _ _ hst)

/-- A check that passes in both states or in neither. -/
theorem Res.Agrees.check {b b' : Prop} [Decidable b] [Decidable b'] {c : Cause} {s t : State} {r r' : Res α}
    (hb : b ↔ b') (h : R s t) (hr : ¬b → r.Agrees R r') :
    (if b then .trap c s else r).Agrees R (if b' then .trap c t else r') := by
  by_cases hcheck : b
  · rw [if_pos hcheck, if_pos (hb.mp hcheck)]
    exact .trap c h
  · rw [if_neg hcheck, if_neg (mt hb.mpr hcheck)]
    exact hr hcheck

/-- Chains draw the same free values where they fault (rule R172 item 3). -/
theorem Res.Agrees.chain {first first' : Res α} {whole whole' : Res β} (hf : first.Agrees R first')
    (hw : whole.Agrees Q whole') (hu : ∀ s t, Q s t → Q s.unspecified t.unspecified) :
    (chain first whole).Agrees Q (Machine.chain first' whole') := by
  cases hf with
  | trap => exact hw
  | ok =>
    cases hw with
    | ok a h => exact .ok a h
    | trap c h => exact .trap c (hu _ _ h)

theorem Keeps.bind {op : State → Res α} {k : α → State → Res β} (hop : Keeps R op) (hk : ∀ a, Keeps R (k a)) :
    Keeps R fun s => (op s).bind k :=
  fun s t h => (hop s t h).bind (fun _ _ => id) hk

theorem Keeps.answer (a : α) : Keeps R (Res.ok a) := fun _ _ h => .ok a h

theorem Reaches.keeps_inv {as : List Action} {s t : State} (h : Reaches as s t) (hs : s.Inv) : t.Inv :=
  h.keeps (fun _ _ _ _ hw => hw.keeps_inv) hs

/-- The writes of an operation keep the invariant, so it is enough that they keep what can be observed. -/
theorem Keeps.of_performs {draws : Bool} {as : List Action} {op : State → Res α}
    (hperf : ∀ s, (op s).Performs draws as s) (hop : ∀ s t, s.Agrees t → (op s).Agrees SameObservable (op t)) :
    Keeps State.Agrees op := by
  intro s t h
  have hok {u v : State} {a : α} (hu : u.Inv) (huv : op u = .ok a v) : v.Inv :=
    ((hperf u).1 a v huv).keeps_inv hu
  have htrap {u v : State} {c : Cause} (hu : u.Inv) (huv : op u = .trap c v) : v.Inv := by
    rcases (hperf u).2 c v huv with hr | ⟨-, w, hr, rfl⟩
    · exact hr.keeps_inv hu
    · exact (hr.keeps_inv hu).unspecified
  have hr := hop s t h
  generalize hs : op s = r, ht : op t = r' at hr
  cases hr with
  | ok a hsame => exact .ok a ⟨hok h.left hs, hok h.right ht, hsame⟩
  | trap c hsame => exact .trap c ⟨htrap h.left hs, htrap h.right ht, hsame⟩

/-- An operation of one unit. -/
theorem Keeps.of_unit (a : Action) {op : State → Res α} (hperf : ∀ s, (op s).Performs false [a] s)
    (hop : ∀ s t, s.Agrees t → (op s).Agrees SameObservable (op t)) : Keeps State.Agrees op :=
  .of_performs hperf hop

end

end Sys2Proof.Machine
end

section
/-!
Noninterference, unit by unit: each operation of a unit makes its checks on what the states agree on, and writes the
same values where they can be read.
-/

namespace Sys2Proof.Machine

theorem lfoNew_keepsAgreement (lo hi : F32) : Keeps State.Agrees (lfoNew lo hi) := by
  refine .of_unit .lfoNew (fun _ => lfoNew_performs lo hi) fun s t h => .check .rfl h.same fun _ => ?_
  exact .ok () { h.same with lfoFlags := ⟨rfl, rfl⟩, lfo := fun _ => by rw [h.same.cfg] }

theorem lfoStep_keepsAgreement (incr depth : F32) : Keeps State.Agrees (lfoStep incr depth) := by
  refine .of_unit .lfoRun (fun _ => lfoStep_performs incr depth) fun s t h =>
    .check (by rw [h.same.lfoFlags.1]) h.same fun hc => .check .rfl h.same fun _ => ?_
  rw [h.same.lfo (by simpa using hc)]
  exact .ok _ { h.same with lfoFlags := ⟨rfl, rfl⟩, lfo := fun _ => rfl }

theorem lfoReset_keepsAgreement : Keeps State.Agrees lfoReset := by
  refine .of_unit .lfoRun (fun _ => lfoReset_performs) fun s t h =>
    .check (by rw [h.same.lfoFlags.1]) h.same fun hc => ?_
  rw [h.same.lfo (by simpa using hc)]
  exact .ok () { h.same with lfoFlags := ⟨rfl, rfl⟩, lfo := fun _ => rfl }

theorem hbNew_keepsAgreement (lb mb : Nat) : Keeps State.Agrees (hbNew lb mb) := by
  refine .of_unit .hbNew (fun _ => hbNew_performs lb mb) fun s t h =>
    .check (by rw [h.same.cfg]) h.same fun _ => .ok () { h.same with
      hbFlags := ⟨rfl, rfl⟩
      hb := fun _ => ⟨rfl, rfl⟩
      hbLen := fun _ => rfl
      hbuf := fun _ a ha => ?_ }
  rw [Mem.read_zeroFill, Mem.read_zeroFill, if_pos ha, if_pos ha]

theorem hbProcess_keepsAgreement (xs : List F32) : Keeps State.Agrees (hbProcess xs) := by
  refine .of_unit .hbRun (fun _ => hbProcess_performs xs) fun s t h => ?_
  refine .check (by rw [h.same.hbFlags.1]) h.same fun hc => ?_
  have hc : s.hb.c = true := by simpa using hc
  obtain ⟨hlb, hmb⟩ := h.same.hb hc
  refine .check (by rw [hmb]) h.same fun hlen => .check (by rw [h.same.hbFlags.2]) h.same fun _ => ?_
  have hfit := h.left.block_fits hc (not_lt.mp hlen)
  rw [(memWrite_hbuf_eq_ok _ xs s _ ()).mpr ⟨hfit, rfl⟩,
    (memWrite_hbuf_eq_ok _ xs t _ ()).mpr ⟨by rwa [← hlb, ← h.same.cfg], rfl⟩]
  refine .ok () { h.same with
    hbFlags := ⟨h.same.hbFlags.1, rfl⟩
    hbLen := fun _ => rfl
    hbuf := fun _ a ha => ?_ }
  rw [Mem.read_writeList _ _ _ _ h.left.hbufCanonical, Mem.read_writeList _ _ _ _ h.right.hbufCanonical, hlb,
    h.same.hbuf hc a ha]

/-- A read of words that exist in both memories and agree. -/
theorem memRead_hbuf_of_agrees {s t : State} (h : s.Agrees t) (hc : s.hb.c = true) {a n : Nat}
    (hin : a + n ≤ s.hb.lookBehind + s.hb.maxBlock) :
    memRead .hbuf a n s = .ok (s.hbuf.readList a n) s ∧ memRead .hbuf a n t = .ok (s.hbuf.readList a n) t := by
  have hfit := hin.trans (h.left.block_fits hc le_rfl)
  have hwords : s.hbuf.readList a n = t.hbuf.readList a n :=
    Mem.readList_congr _ _ a n fun c _ hlt => h.same.hbuf hc c (hlt.trans_le hin)
  exact ⟨(memRead_hbuf_eq_ok ..).mpr ⟨hfit, rfl, rfl⟩,
    (memRead_hbuf_eq_ok ..).mpr ⟨by rwa [← h.same.cfg], hwords, rfl⟩⟩

theorem hbView_keepsAgreement : Keeps State.Agrees hbView := by
  refine fun s t h => .check (by rw [h.same.hbFlags.1]) h fun hc => .check (by rw [h.same.hbFlags.2]) h fun hv => ?_
  have hc : s.hb.c = true := by simpa using hc
  obtain ⟨hs, ht⟩ := memRead_hbuf_of_agrees h hc (a := 0) (n := s.hb.lookBehind + s.hb.len)
    (by have := h.left.blockFits hc; omega)
  rw [hs, ← (h.same.hb hc).1, ← h.same.hbLen (by simpa using hv), ht]
  exact .ok _ h

theorem hbRead_keepsAgreement (a n : Nat) : Keeps State.Agrees (hbRead a n) := by
  refine fun s t h => .check (by rw [h.same.hbFlags.1]) h fun hc => .check (by rw [h.same.hbFlags.2]) h fun hv => ?_
  have hc : s.hb.c = true := by simpa using hc
  refine .check (by rw [(h.same.hb hc).1, h.same.hbLen (by simpa using hv)]) h fun hin => ?_
  obtain ⟨hs, ht⟩ := memRead_hbuf_of_agrees h hc (a := a) (n := n) (by have := h.left.blockFits hc; omega)
  rw [hs, ht]
  exact .ok _ h

theorem hbRelease_keepsAgreement : Keeps State.Agrees hbRelease := by
  refine .of_unit .hbRun (fun _ => hbRelease_performs) fun s t h => ?_
  refine .check (by rw [h.same.hbFlags.1]) h.same fun hc => .check (by rw [h.same.hbFlags.2]) h.same fun hv => ?_
  have hc : s.hb.c = true := by simpa using hc
  have hlen := h.same.hbLen (by simpa using hv)
  obtain ⟨hlb, hmb⟩ := h.same.hb hc
  rw [if_pos (h.left.view_fits hc), if_pos (h.right.view_fits (h.same.hbFlags.1 ▸ hc))]
  refine .ok () { h.same with
    hbFlags := ⟨h.same.hbFlags.1, rfl⟩
    hbLen := fun hopen => by simp at hopen
    hbuf := fun _ a ha => ?_ }
  have hfit := h.left.blockFits hc
  rw [Mem.read_copyDown _ _ _ _ h.left.hbufCanonical, Mem.read_copyDown _ _ _ _ h.right.hbufCanonical, ← hlb, ← hlen]
  split
  · exact h.same.hbuf hc _ (by omega)
  · exact h.same.hbuf hc a ha

theorem hbReset_keepsAgreement : Keeps State.Agrees hbReset := by
  refine .of_unit .hbRun (fun _ => hbReset_performs) fun s t h => ?_
  refine .check (by rw [h.same.hbFlags.1]) h.same fun hc => .check (by rw [h.same.hbFlags.2]) h.same fun _ => ?_
  have hc : s.hb.c = true := by simpa using hc
  obtain ⟨hlb, hmb⟩ := h.same.hb hc
  rw [hbufZero, hbufZero, if_pos (h.left.block_fits hc le_rfl),
    if_pos (h.right.block_fits (h.same.hbFlags.1 ▸ hc) le_rfl)]
  refine .ok () { h.same with hbuf := fun _ a ha => ?_ }
  rw [Mem.read_zeroFill, Mem.read_zeroFill, ← hlb, ← hmb, if_pos ha, if_pos ha]

theorem loadKernel_agrees {s t : State} (h : s.Agrees t) {taps : List F32} (hlen : taps.length ≤ s.cfg.kramWords) :
    (loadKernel taps s).Agrees SameObservable (loadKernel taps t) := by
  rw [(loadKernel_eq_ok taps s _ ()).mpr ⟨hlen, rfl⟩, (loadKernel_eq_ok taps t _ ()).mpr ⟨h.same.cfg ▸ hlen, rfl⟩]
  refine .ok () { h.same with
    pkFlags := ⟨rfl, rfl⟩
    kLen := fun _ => rfl
    split := fun hsv => by simp at hsv
    kram := fun _ a ha => ?_
    pram := fun hsv => by simp at hsv }
  rw [Mem.read_writeList_zero _ _ _ h.left.kramCanonical, Mem.read_writeList_zero _ _ _ h.right.kramCanonical,
    if_pos ha, if_pos ha]

theorem pkLpf_keepsAgreement (n : Nat) (increment : F32) : Keeps State.Agrees (pkLpf n increment) := by
  refine .of_unit .load (fun _ => pkLpf_performs n increment) fun s t h => ?_
  refine .check (by rw [isKernelLength, isKernelLength, h.same.cfg]) h.same fun hok => ?_
  rw [Bool.not_eq_true', Bool.not_eq_false, Bool.and_eq_true, isKernelLength_iff] at hok
  rw [← h.same.cfg]
  exact loadKernel_agrees h (by rw [length_lpfTaps]; exact hok.1.2.2)

theorem pkLoadk_keepsAgreement (taps : List F32) : Keeps State.Agrees (pkLoadk taps) := by
  refine .of_unit .load (fun _ => pkLoadk_performs taps) fun s t h => ?_
  refine .check (by rw [isKernelLength, isKernelLength, h.same.cfg]) h.same fun hok => ?_
  rw [Bool.not_eq_true', Bool.not_eq_false, isKernelLength_iff] at hok
  exact loadKernel_agrees h hok.2.2

theorem pkSplit_keepsAgreement (n : Nat) : Keeps State.Agrees (pkSplit n) := by
  refine .of_unit .split (fun _ => pkSplit_performs n) fun s t h => ?_
  cases hkv : s.pk.kv with
  | false =>
    have hkv' : t.pk.kv = false := h.same.pkFlags.1 ▸ hkv
    rw [(pkSplit_eq_trap n s s _).mpr ⟨rfl, .inl ⟨hkv, rfl⟩⟩, (pkSplit_eq_trap n t t _).mpr ⟨rfl, .inl ⟨hkv', rfl⟩⟩]
    exact .trap _ h.same
  | true =>
    have hkv' : t.pk.kv = true := h.same.pkFlags.1 ▸ hkv
    have hlen := h.same.kLen hkv
    by_cases hn : 1 ≤ n ∧ s.pk.kLen % n = 0
    · have hfit := (h.left.kernelSized hkv).2
      have hmul : n * (s.pk.kLen / n) = s.pk.kLen := Nat.mul_div_cancel' (Nat.dvd_of_mod_eq_zero hn.2)
      have hkernel : s.kram.readList 0 s.pk.kLen = t.kram.readList 0 s.pk.kLen :=
        Mem.readList_congr _ _ _ _ fun a _ ha => h.same.kram hkv a (by simpa using ha)
      rw [(pkSplit_eq_ok n s _ ()).mpr ⟨hkv, hn.1, hn.2, hfit, rfl⟩,
        (pkSplit_eq_ok n t _ ()).mpr ⟨hkv', hn.1, hlen ▸ hn.2, h.same.cfg ▸ hlen ▸ hfit, rfl⟩, ← hlen, ← hkernel]
      refine .ok () { h.same with
        pkFlags := ⟨h.same.pkFlags.1, rfl⟩
        split := fun _ => ⟨rfl, rfl⟩
        pram := fun _ a ha => ?_ }
      have ha : a < (splitTaps (s.kram.readList 0 s.pk.kLen) n (s.pk.kLen / n)).length := by
        rwa [length_splitTaps, hmul]
      rw [Mem.read_writeList_zero _ _ _ h.left.pramCanonical, Mem.read_writeList_zero _ _ _ h.right.pramCanonical,
        if_pos ha, if_pos ha]
    · rw [(pkSplit_eq_trap n s s _).mpr ⟨rfl, .inr ⟨hkv, hn, rfl⟩⟩,
        (pkSplit_eq_trap n t t _).mpr ⟨rfl, .inr ⟨hkv', hlen ▸ hn, rfl⟩⟩]
      exact .trap _ h.same

theorem cmpNew_keepsAgreement (fs : F32) : Keeps State.Agrees (cmpNew fs) := by
  refine .of_unit .cmpNew (fun _ => cmpNew_performs fs) fun s t h => .check .rfl h.same fun _ => ?_
  exact .ok () { h.same with cmpFlags := rfl, cmp := fun _ => rfl }

theorem cmpDetect_keepsAgreement (x : F32) : Keeps State.Agrees (cmpDetect x) := by
  refine .of_unit .cmpRun (fun _ => cmpDetect_performs x) fun s t h =>
    .check (by rw [h.same.cmpFlags]) h.same fun hc => ?_
  rw [h.same.cmp (by simpa using hc)]
  exact .ok _ { h.same with cmpFlags := rfl, cmp := fun _ => rfl }

theorem cmpReset_keepsAgreement : Keeps State.Agrees cmpReset := by
  refine .of_unit .cmpRun (fun _ => cmpReset_performs) fun s t h =>
    .check (by rw [h.same.cmpFlags]) h.same fun hc => ?_
  rw [h.same.cmp (by simpa using hc)]
  exact .ok _ { h.same with cmpFlags := rfl, cmp := fun _ => rfl }

theorem cmpCompress_keepsAgreement (signal level : F32) : Keeps State.Agrees (cmpCompress signal level) := by
  intro s t h
  rw [cmpCompress, cmpCompress, h.same.cfg]
  exact .ok _ h

theorem cmpExpand_keepsAgreement (signal level : F32) : Keeps State.Agrees (cmpExpand signal level) := .answer _

theorem nlShape_keepsAgreement (x : F32) : Keeps State.Agrees (nlShape x) := .answer _

/-- The same filter put in both banks. -/
theorem SameObservable.setFilter {s t : State} (h : SameObservable s t) {k : Nat} (hk : k < 4) (f : Aaf) :
    SameObservable { s with aaf := s.aaf.set k f } { t with aaf := t.aaf.set k f } := by
  refine { h with aafFlags := fun j hj => ?_, aaf := fun j hj => ?_ }
  · simp only [State.aafGv, AafBank.get_set _ _ _ _ hj hk]
    split
    · exact ⟨rfl, rfl⟩
    · exact h.aafFlags j hj
  · simp only [AafBank.get_set _ _ _ _ hj hk]
    split
    · exact fun _ => rfl
    · exact h.aaf j hj

theorem aafNew_keepsAgreement (k : Nat) (fs : F32) : Keeps State.Agrees (aafNew k fs) := by
  refine .of_unit (.aafNew k) (fun _ => aafNew_performs k fs) fun s t h => ?_
  refine .check (by rw [h.same.cfg]) h.same fun hk => .check .rfl h.same fun _ => ?_
  have hlaw : s.cfg.svf = t.cfg.svf := by rw [h.same.cfg]
  rw [hlaw]
  exact .ok () (h.same.setFilter (filter_lt_four (not_le.mp hk)) _)

section
variable {s t : State} (h : s.Agrees t) {k : Nat} (hk : ¬s.cfg.nAaf.val ≤ k)
include h hk

theorem State.Agrees.filter_c : (s.aaf.get k).c = (t.aaf.get k).c :=
  (h.same.aafFlags k (filter_lt_four (not_le.mp hk))).1

theorem State.Agrees.filter (hc : ¬(!(s.aaf.get k).c) = true) : s.aaf.get k = t.aaf.get k :=
  h.same.aaf k (filter_lt_four (not_le.mp hk)) (by simpa using hc)

end

theorem aafStep_keepsAgreement (k : Nat) (x : F32) : Keeps State.Agrees (aafStep k x) := by
  refine .of_unit (.aafRun k) (fun _ => aafStep_performs k x) fun s t h => ?_
  refine .check (by rw [h.same.cfg]) h.same fun hk => .check (by rw [h.filter_c hk]) h.same fun hc => ?_
  have hlaw : s.cfg.svf = t.cfg.svf := by rw [h.same.cfg]
  rw [h.filter hk hc, hlaw]
  exact .ok _ (h.same.setFilter (filter_lt_four (not_le.mp hk)) _)

theorem aafReset_keepsAgreement (k : Nat) : Keeps State.Agrees (aafReset k) := by
  refine .of_unit (.aafRun k) (fun _ => aafReset_performs k) fun s t h => ?_
  refine .check (by rw [h.same.cfg]) h.same fun hk => .check (by rw [h.filter_c hk]) h.same fun hc => ?_
  rw [h.filter hk hc]
  exact .ok _ (h.same.setFilter (filter_lt_four (not_le.mp hk)) _)

theorem dlRead_keepsAgreement (i : Nat) (delay : F32) : Keeps State.Agrees (dlRead i delay) := by
  refine fun s t h => .check (by rw [h.same.hbFlags.1, h.same.pkFlags.2]) h fun hnew =>
    .check (by rw [h.same.hbFlags.2]) h fun hv => ?_
  obtain ⟨hc, hsv⟩ : s.hb.c = true ∧ s.pk.sv = true := by simpa using hnew
  obtain ⟨hlb, hmb⟩ := h.same.hb hc
  obtain ⟨hn, hm⟩ := h.same.split hsv
  have hlaw : s.cfg.phaseSel = t.cfg.phaseSel := by rw [h.same.cfg]
  rw [← h.same.hbLen (by simpa using hv), ← hlb, ← hn, ← hm, ← hlaw]
  refine .check .rfl h fun _ => .check .rfl h fun _ => .check .rfl h fun hin => ?_
  obtain ⟨hkv, hphases, -, hsize⟩ := h.left.splitSized hsv
  have hphase := phaseSel_lt s.cfg.phaseSel delay s.pk.m hphases
  generalize phaseSel s.cfg.phaseSel delay s.pk.nPhases s.pk.m = sel at *
  have htaps : s.pram.readList (sel.2 * s.pk.m) s.pk.m = t.pram.readList (sel.2 * s.pk.m) s.pk.m := by
    refine Mem.readList_congr _ _ _ _ fun a _ ha => h.same.pram hsv a ?_
    calc a < (sel.2 + 1) * s.pk.m := by rwa [Nat.succ_mul]
      _ ≤ s.pk.nPhases * s.pk.m := Nat.mul_le_mul_right _ hphase
      _ = s.pk.kLen := hsize
  have hfit := h.left.phase_fits hsv hphase
  have hblock := h.left.blockFits hc
  obtain ⟨hs, ht⟩ := memRead_hbuf_of_agrees h hc
    (a := ((s.hb.lookBehind : Int) + i - sel.1 - s.pk.m + 1).toNat) (n := s.pk.m) (by omega)
  rw [(memRead_pram_eq_ok _ _ s s _).mpr ⟨hfit, rfl, rfl⟩,
    (memRead_pram_eq_ok _ _ t t _).mpr ⟨h.same.cfg ▸ hfit, htaps, rfl⟩, Res.bind_ok, Res.bind_ok, hs, ht]
  exact .ok _ h

end Sys2Proof.Machine
end

section
/-!
Noninterference of the chain controller (rules R155 to R159): its constituents go on alike one after another, and where
one faults the free values drawn are the same. FX.PROCESS reads `FX.fs`, which a constructed chain makes readable.
-/

namespace Sys2Proof.Machine

/-! ## The chain controller -/

theorem State.unspecified_filter (s : State) {k : Nat} (hk : k < 4) :
    s.unspecified.aaf.get k = unspecAaf s.freed (4 + 4 * k) (s.aaf.get k) := by
  interval_cases k <;> rfl

theorem State.Agrees.unspecified {s t : State} (h : s.Agrees t) : s.unspecified.Agrees t.unspecified where
  left := h.left.unspecified
  right := h.right.unspecified
  same := { h.same with
    freed := congrArg (· + 1) h.same.freed
    lfoFlags := ⟨h.same.lfoFlags.1, by simp [State.unspecified, h.same.lfoFlags.2, h.same.freed]⟩
    lfo := fun hc => by simp [State.unspecified, h.same.lfo hc, h.same.freed]
    hbLen := fun hv => by
      simp [State.unspecified, (h.same.hb (h.left.viewConstructed hv)).2, h.same.freed]
    hbuf := fun hc a ha => by
      obtain ⟨hlb, hmb⟩ := h.same.hb hc
      simp only [State.unspecified, Mem.read_writeList_zero _ _ _ h.left.hbufCanonical,
        Mem.read_writeList_zero _ _ _ h.right.hbufCanonical, h.same.hbuf hc a ha, hlb, hmb, h.same.cfg, h.same.freed]
    cmp := fun hc => by simp [State.unspecified, h.same.cmp hc, h.same.freed]
    aafFlags := fun k hk => by
      simp only [State.aafGv, State.unspecified_filter _ hk]
      exact h.same.aafFlags k hk
    aaf := fun k hk hc => by
      rw [State.unspecified_filter _ hk] at hc
      rw [State.unspecified_filter _ hk, State.unspecified_filter _ hk, h.same.aaf k hk hc, h.same.freed] }

/-- A constituent whose operands are the machine's parameters. -/
theorem Keeps.ofParams {α : Type} {op : Params → State → Res α} (hop : ∀ cfg, Keeps State.Agrees (op cfg)) :
    Keeps State.Agrees fun s => op s.cfg s := by
  intro s t h
  dsimp only
  rw [← h.same.cfg]
  exact hop s.cfg s t h

theorem fxHbNew_keepsAgreement (fs : F32) (mb : Nat) : Keeps State.Agrees (fxHbNew fs mb) := by
  refine fun s t h => .check (by rw [h.same.cfg]) h fun _ => ?_
  rw [← h.same.cfg]
  exact hbNew_keepsAgreement _ mb s t h

/-- PK.LPF with the machine's parameters, the first constituent of FX.NEW (rule R155). -/
theorem fxLpf_keepsAgreement : Keeps State.Agrees fun s => pkLpf s.cfg.kLen s.cfg.kInc s :=
  .ofParams (op := fun cfg => pkLpf cfg.kLen cfg.kInc) fun _ => pkLpf_keepsAgreement _ _

theorem fxSplit_keepsAgreement : Keeps State.Agrees fun s => pkSplit s.cfg.nPhases s :=
  .ofParams (op := fun cfg => pkSplit cfg.nPhases) fun _ => pkSplit_keepsAgreement _

theorem fxLfoNew_keepsAgreement (fs : F32) :
    Keeps State.Agrees fun s => lfoNew (fxLfoBounds s.cfg fs).1 (fxLfoBounds s.cfg fs).2 s :=
  .ofParams (op := fun cfg => lfoNew (fxLfoBounds cfg fs).1 (fxLfoBounds cfg fs).2) fun _ => lfoNew_keepsAgreement _ _

theorem fxConstruct_keepsAgreement (fs : F32) (mb : Nat) : Keeps State.Agrees (fxConstruct fs mb) := by
  have hsame (s t : State) (h : s.Agrees t) : SameObservable s t := h.same
  refine .of_performs (fxConstruct_performs fs mb) fun s t h => ?_
  refine (fxLpf_keepsAgreement s t h).bind hsame fun _ s t h => ?_
  refine (fxSplit_keepsAgreement s t h).bind hsame fun _ s t h => ?_
  refine (fxHbNew_keepsAgreement fs mb s t h).bind hsame fun _ s t h => ?_
  refine (fxLfoNew_keepsAgreement fs s t h).bind hsame fun _ s t h => ?_
  refine (cmpNew_keepsAgreement fs s t h).bind hsame fun _ s t h => ?_
  refine (aafNew_keepsAgreement 0 fs s t h).bind hsame fun _ s t h => ?_
  refine (aafNew_keepsAgreement 1 fs s t h).bind hsame fun _ s t h => ?_
  refine (aafNew_keepsAgreement 2 fs s t h).bind hsame fun _ s t h => ?_
  exact .ok () { h.same with fxFlags := ⟨rfl, rfl⟩, fx := fun _ => rfl }

theorem fxNew_keepsAgreement (fs : F32) (mb : Nat) : Keeps State.Agrees (fxNew fs mb) :=
  fun s t h => .check .rfl h fun _ => (fxLpf_keepsAgreement s t h).chain (fxConstruct_keepsAgreement fs mb s t h)
    fun _ _ => State.Agrees.unspecified

theorem resetStages_keepsAgreement : Keeps State.Agrees resetStages :=
  .bind lfoReset_keepsAgreement fun _ => .bind hbReset_keepsAgreement fun _ => .bind cmpReset_keepsAgreement fun _ =>
    .bind (aafReset_keepsAgreement 0) fun _ => .bind (aafReset_keepsAgreement 1) fun _ => aafReset_keepsAgreement 2

/-- The resets of rules R156 and R159 as one chain operation. -/
theorem resetChain_keepsAgreement : Keeps State.Agrees fun s => chain (lfoReset s) (resetStages s) :=
  fun s t h => (lfoReset_keepsAgreement s t h).chain (resetStages_keepsAgreement s t h)
    fun _ _ => State.Agrees.unspecified

theorem fxSetproc_keepsAgreement (on : Word) : Keeps State.Agrees (fxSetproc on) := by
  have hsame (s t : State) (h : s.Agrees t) : SameObservable s t := h.same
  have hrun (b : Bool) (s t : State) (h : SameObservable s t) :
      SameObservable { s with fx := { s.fx with run := b } } { t with fx := { t.fx with run := b } } :=
    { h with fxFlags := ⟨h.fxFlags.1, rfl⟩, fx := fun hc => by rw [h.fx hc] }
  refine .of_performs (fxSetproc_performs on) fun s t h => ?_
  refine .check (by rw [h.same.fxFlags.1]) h.same fun _ => .check .rfl h.same fun _ => ?_
  by_cases hon : on = 1#32
  · rw [if_pos hon, if_pos hon]
    refine .check (by rw [h.same.hbFlags.2]) h.same fun _ => ?_
    exact (resetChain_keepsAgreement s t h).bind hsame fun _ u v huv => .ok () (hrun true u v huv.same)
  · rw [if_neg hon, if_neg hon]
    exact .ok () (hrun false s t h.same)

theorem fxReset_keepsAgreement : Keeps State.Agrees fxReset :=
  fun s t h => .check (by rw [h.same.fxFlags.1]) h fun _ => .check (by rw [h.same.hbFlags.2]) h fun _ =>
    resetChain_keepsAgreement s t h

theorem fxParams_keepsAgreement (params : List ParamSample) : Keeps State.Agrees (fxParams params) :=
  fun _ _ h => .check (by rw [h.same.fxFlags.1]) h fun _ => .check .rfl h fun _ => .ok () h

/-! ## FX.PROCESS -/

/-- States that agree, in which the chain is constructed: so they agree on `FX.fs` too. -/
structure State.ChainAgrees (s t : State) : Prop extends State.Agrees s t where
  constructed : s.fx.c = true

/-- A constituent of FX.PROCESS leaves the controller's registers alone. -/
theorem Keeps.inChain {α : Type} {op : State → Res α} (hop : Keeps State.Agrees op)
    (hperf : ∀ s, (op s).Performs false fxRuns s) : Keeps State.ChainAgrees op := by
  intro s t h
  have hr := hop s t h.toAgrees
  obtain ⟨hok, htrap⟩ := hperf s
  have hfx {u : State} (hu : Reaches fxRuns s u) : u.fx.c = true := by rw [fxRuns_fx_eq hu]; exact h.constructed
  generalize op s = r, op t = r' at *
  cases hr with
  | ok a huv => exact .ok a ⟨huv, hfx (hok a _ rfl)⟩
  | trap c huv => exact .trap c ⟨huv, hfx ((htrap c _ rfl).resolve_right (by simp))⟩

theorem aafStep_keepsChain (k : Nat) (x : F32) (hk : .aafRun k ∈ fxRuns) : Keeps State.ChainAgrees (aafStep k x) :=
  (aafStep_keepsAgreement k x).inChain fun _ => aafStep_performs k x hk

/-- LFO.STEP with the increment `rate / fs` (rule R160). -/
theorem lfoStep_keepsChain (rate depth : F32) :
    Keeps State.ChainAgrees fun s => lfoStep (F32.div rate s.fx.fs) depth s := by
  intro s t h
  dsimp only
  rw [← h.same.fx h.constructed]
  exact (lfoStep_keepsAgreement _ depth).inChain (fun _ => lfoStep_performs _ depth) s t h

theorem frontSample_keepsChain (p : FxSample) : Keeps State.ChainAgrees (frontSample p) :=
  .bind (aafStep_keepsChain 0 p.x (by simp)) fun a =>
  .bind ((cmpDetect_keepsAgreement a).inChain fun _ => cmpDetect_performs a) fun level =>
  .bind ((cmpCompress_keepsAgreement a level).inChain fun _ => cmpCompress_performs a level) fun _ =>
  .bind (lfoStep_keepsChain p.params.rate p.params.depth) fun _ => .answer _

theorem frontBlock_keepsChain (block : List FxSample) : Keeps State.ChainAgrees (frontBlock block) := by
  induction block with
  | nil => exact .answer _
  | cons p ps ih => exact .bind (frontSample_keepsChain p) fun _ => .bind ih fun _ => .answer _

theorem backTap_keepsChain (t tap : Nat) (delay : F32) (f : FrontSample) (htap : .aafRun (1 + tap) ∈ fxRuns) :
    Keeps State.ChainAgrees (backTap t tap delay f) :=
  .bind ((dlRead_keepsAgreement t delay).inChain fun _ => dlRead_performs t delay) fun _ =>
  .bind (.answer _) fun _ => .bind (.answer _) fun e => .bind (aafStep_keepsChain (1 + tap) e htap) fun _ => .answer _

theorem backBlock_keepsChain (t : Nat) (front : List FrontSample) : Keeps State.ChainAgrees (backBlock t front) := by
  induction front generalizing t with
  | nil => exact .answer _
  | cons f fs ih =>
    exact .bind (backTap_keepsChain t 0 f.forward f (by simp)) fun _ =>
      .bind (backTap_keepsChain t 1 f.reverse f (by simp)) fun _ => .bind (ih (t + 1)) fun _ => .answer _

theorem processBlock_keepsChain (block : List FxSample) : Keeps State.ChainAgrees (processBlock block) :=
  .bind (frontBlock_keepsChain block) fun front =>
  .bind ((hbProcess_keepsAgreement _).inChain fun _ => hbProcess_performs _) fun _ =>
  .bind (backBlock_keepsChain 0 front) fun _ =>
  .bind (hbRelease_keepsAgreement.inChain fun _ => hbRelease_performs) fun _ => .answer _

theorem firstOfProcess_keepsAgreement (block : List FxSample) : Keeps State.Agrees (firstOfProcess block) := by
  cases block with
  | nil => exact hbProcess_keepsAgreement []
  | cons p ps => exact .bind (aafStep_keepsAgreement 0 p.x) fun _ => .answer _

theorem fxProcess_keepsAgreement (block : List FxSample) : Keeps State.Agrees (fxProcess block) := by
  refine fun s t h => .check (by rw [h.same.fxFlags.1]) h fun hc => .check (by rw [h.same.fxFlags.2]) h fun _ => ?_
  have hc : s.fx.c = true := by simpa using hc
  have hhb := (h.left.chainConstructed hc).2.1
  refine .check (by rw [(h.same.hb hhb).2]) h fun _ => .check (by rw [h.same.hbFlags.2]) h fun _ => ?_
  refine .check .rfl h fun _ => ?_
  have hwhole := (processBlock_keepsChain block s t ⟨h, hc⟩).mono fun _ _ huv => huv.toAgrees
  exact (firstOfProcess_keepsAgreement block s t h).chain hwhole fun _ _ => State.Agrees.unspecified

end Sys2Proof.Machine
end

section
/-!
Noninterference of steps, and power-on (rules R190, R203, R205): from states that agree a step goes on, to states that
agree; while no flag is set nothing is readable, and the invariant asks for no more than what a state can hold.
-/

namespace Sys2Proof.Machine

/-! ## Commands and steps -/

/-- Both commands go on, to states of which the same is observed. -/
def GoOnAlike (o o' : Host.Outcome State Fault Refusal) : Prop := ∃ u v, o = .next u ∧ o' = .next v ∧ SameObservable u v

theorem Keeps.command {α : Type} {words : α → List Word} {op : State → Res α} (hop : Keeps State.Agrees op)
    {s t : State} (h : s.Agrees t) : GoOnAlike (command words op s) (command words op t) := by
  cases hf : s.fault with
  | true =>
    have hf' : t.fault = true := h.same.fault ▸ hf
    exact ⟨_, _, command_of_fault words op s hf, command_of_fault words op t hf', h.same.respond []⟩
  | false =>
    have hf' : t.fault = false := h.same.fault ▸ hf
    have hr := hop s t h
    generalize hs : op s = r, ht : op t = r' at hr
    cases hr with
    | ok a huv =>
      exact ⟨_, _, command_of_ok words op s _ a hf hs, command_of_ok words op t _ a hf' ht, huv.same.respond _⟩
    | trap c huv =>
      exact ⟨_, _, command_of_trap words op s _ c hf hs, command_of_trap words op t _ c hf' ht, huv.same.raise c⟩

/-- Every operation goes on alike from states that agree. -/
theorem exec_goesOnAlike {s t : State} (h : s.Agrees t) : ∀ i : Instr, GoOnAlike (exec i s) (exec i t)
  | .lfoNew lo hi => (lfoNew_keepsAgreement lo hi).command h
  | .lfoStep incr depth => (lfoStep_keepsAgreement incr depth).command h
  | .lfoReset => lfoReset_keepsAgreement.command h
  | .hbNew lb mb => (hbNew_keepsAgreement (countOf lb) (countOf mb)).command h
  | .hbProcess samples => (hbProcess_keepsAgreement samples).command h
  | .hbView => hbView_keepsAgreement.command h
  | .hbRead start count => (hbRead_keepsAgreement (countOf start) (countOf count)).command h
  | .hbRelease => hbRelease_keepsAgreement.command h
  | .hbReset => hbReset_keepsAgreement.command h
  | .pkLpf length increment => (pkLpf_keepsAgreement (countOf length) increment).command h
  | .pkLoadk taps => (pkLoadk_keepsAgreement taps).command h
  | .pkSplit n => (pkSplit_keepsAgreement (countOf n)).command h
  | .dlRead i delay => (dlRead_keepsAgreement (countOf i) delay).command h
  | .cmpNew fs => (cmpNew_keepsAgreement fs).command h
  | .cmpDetect x => (cmpDetect_keepsAgreement x).command h
  | .cmpReset => cmpReset_keepsAgreement.command h
  | .cmpCompress signal level => (cmpCompress_keepsAgreement signal level).command h
  | .cmpExpand signal level => (cmpExpand_keepsAgreement signal level).command h
  | .nlShape x => (nlShape_keepsAgreement x).command h
  | .aafNew k fs => (aafNew_keepsAgreement k.toNat fs).command h
  | .aafStep k x => (aafStep_keepsAgreement k.toNat x).command h
  | .aafReset k => (aafReset_keepsAgreement k.toNat).command h
  | .fxNew fs mb => (fxNew_keepsAgreement fs (countOf mb)).command h
  | .fxSetproc on => (fxSetproc_keepsAgreement on).command h
  | .fxParams params => (fxParams_keepsAgreement params).command h
  | .fxProcess block => (fxProcess_keepsAgreement block).command h
  | .fxReset => fxReset_keepsAgreement.command h

theorem State.Agrees.setPort {s t : State} (h : s.Agrees t) (ws : List Word) :
    State.Agrees { s with port := ws } { t with port := ws } :=
  ⟨{ h.left with }, { h.right with }, h.same.setPort ws⟩

/-- A step goes on alike from states that agree: it runs the same operation, takes the same illegal word, or waits. -/
theorem step_goesOnAlike {s t : State} (h : s.Agrees t) : GoOnAlike (step s) (step t) := by
  unfold step
  rw [← h.same.port]
  split
  next i rest _ => exact exec_goesOnAlike (h.setPort rest) i
  next => exact ⟨s, t, rfl, rfl, h.same⟩
  next =>
    have hill : Keeps State.Agrees fun u => (.trap .illegalCmd u : Res Unit) := fun _ _ huv => .trap _ huv
    exact hill.command (h.setPort (s.port.drop 1))

/-- Settles O12: a state agrees with itself, and from states that agree a step goes on. -/
theorem everyStepCompletes : Obligations.EveryStepCompletes := by
  intro s hs
  obtain ⟨u, -, hu, -⟩ := step_goesOnAlike ⟨hs, hs, .refl s⟩
  exact ⟨u, hu⟩

/-! ## Power-on -/

/-- While no flag is set, the invariant asks of a state no more than what registers and memories can hold. -/
theorem State.NothingConstructed.inv {s : State} (h : s.NothingConstructed) (hr : s.Representable) : s.Inv := by
  obtain ⟨-, -, hfault, hcause, -, -, -, hhb, hview, hkv, hsv, -, hfx, hrun, -⟩ := h
  exact { hr with
    noCause := fun _ => hcause
    legalCause := by simp [hfault]
    sized := by simp [hhb]
    blockFits := by simp [hhb]
    viewConstructed := by simp [hview]
    kernelSized := by simp [hkv]
    splitSized := by simp [hsv]
    chainConstructed := by simp [hfx]
    running := by simp [hrun] }

theorem State.nothingConstructed_powerOn (cfg : Params) : (State.powerOn cfg).NothingConstructed := by
  refine ⟨rfl, rfl, rfl, rfl, rfl, rfl, rfl, rfl, rfl, rfl, rfl, rfl, rfl, rfl, fun k hk => ?_⟩
  interval_cases k <;> exact ⟨rfl, rfl⟩

theorem State.representable_powerOn (cfg : Params) : (State.powerOn cfg).Representable where
  hbufCanonical := rfl
  kramCanonical := rfl
  pramCanonical := rfl
  hbufWithin := rfl
  kramWithin := rfl
  pramWithin := rfl
  counts := by simp [State.powerOn]

theorem State.inv_powerOn (cfg : Params) : (State.powerOn cfg).Inv :=
  (State.nothingConstructed_powerOn cfg).inv (State.representable_powerOn cfg)

/-- While no flag is set, no register or word is readable. -/
theorem State.NothingConstructed.sameObservable {s t : State} (hs : s.NothingConstructed) (ht : t.NothingConstructed)
    (hcfg : s.cfg = t.cfg) : SameObservable s t := by
  obtain ⟨hp, hr, hf, hcs, hfr, hlc, hlo, hhc, hhv, hkv, hsv, hcc, hfc, hfrun, haaf⟩ := hs
  obtain ⟨hp', hr', hf', hcs', hfr', hlc', hlo', hhc', hhv', hkv', hsv', hcc', hfc', hfrun', haaf'⟩ := ht
  constructor
  case aafFlags =>
    intro k hk
    rw [(haaf k hk).1, (haaf k hk).2, (haaf' k hk).1, (haaf' k hk).2]
    exact ⟨rfl, rfl⟩
  case aaf => exact fun k hk hc => absurd ((haaf k hk).1.symm.trans hc) Bool.false_ne_true
  all_goals simp [*]

/-- Settles O10: a state at power-on has no flag set, and its registers and memories hold what they can hold. -/
theorem invariantHoldsAtPowerOn : Obligations.InvariantHoldsAtPowerOn :=
  ⟨State.inv_powerOn, State.inv_powerOn paramsOfVectors, fun _ => State.NothingConstructed.inv⟩

/-- Settles O9: a step goes on alike from states that agree; at power-on no flag makes anything readable. -/
theorem powerOnValuesAreNeverObserved : Obligations.PowerOnValuesAreNeverObserved := by
  refine ⟨fun s t hs ht h => ⟨h.status, ?_⟩, fun t ht => ?_, fun _ => State.NothingConstructed.inv⟩
  · obtain ⟨u, v, hu, hv, huv⟩ := step_goesOnAlike ⟨hs, ht, h⟩
    exact ⟨u, v, hu, hv, huv.resp, huv.status, huv⟩
  · exact (State.nothingConstructed_powerOn t.cfg).sameObservable ht rfl

end Sys2Proof.Machine
end

section
/-!
Faults (rules R70, R170 to R174): a faulted block refuses every command; an operation that ends faulted records one of
the nine causes and answers nothing, and outside the chain it writes nothing else; and which flag each operation needs.
-/

namespace Sys2Proof.Machine

variable {s t : State}

/-! ## Refusal -/

theorem exec_of_fault (h : s.fault = true) (i : Instr) : exec i s = .next (s.respond []) := by
  cases i
  case cmpCompress signal level => exact command_of_fault oneWord (cmpCompress signal level) s h
  case cmpExpand signal level => exact command_of_fault oneWord (cmpExpand signal level) s h
  case nlShape x => exact command_of_fault oneWord (nlShape x) s h
  all_goals exact command_of_fault _ _ s h

/-- A step of a faulted block takes a packet and refuses it, or waits. -/
theorem step_of_fault (h : s.fault = true) (hst : step s = .next t) :
    (∃ rest, t = { s with port := rest, resp := [] }) ∨ t = s := by
  rcases step_eq_next hst with ⟨i, rest, -, hi⟩ | hill | rfl
  · rw [exec_of_fault (s := { s with port := rest }) h] at hi
    cases hi
    exact .inl ⟨rest, rfl⟩
  · rw [illegalCommand, command_of_fault (s := { s with port := s.port.drop 1 }) _ _ h] at hill
    cases hill
    exact .inl ⟨_, rfl⟩
  · exact .inr rfl

/-- Settles O14: every operation refuses, so a step changes at most the port and the response. -/
theorem faultedBlockRefusesEveryCommand : Obligations.FaultedBlockRefusesEveryCommand := by
  refine ⟨fun i s h => exec_of_fault h i, fun s t h hst => ?_⟩
  rcases step_of_fault h hst with ⟨rest, rfl⟩ | rfl
  · exact ⟨rfl, .inr rfl⟩
  · exact ⟨rfl, .inl rfl⟩

theorem State.status_powerOn (cfg : Params) : (State.powerOn cfg).status = 0#32 := by
  simp [State.status, State.powerOn, State.lfoOv, State.aafGv, Aaf.atPowerOn, statusBit]

/-- Settles O8: at power-on no flag is set and nothing is presented, so the block waits; a faulted block refuses. -/
theorem powerOnClearsEveryFlag : Obligations.PowerOnClearsEveryFlag := by
  refine ⟨fun cfg => ?_, fun s t h hst => ?_⟩
  · obtain ⟨-, -, hfault, hcause, -, hlfo, hout, hhb, hview, hkv, hsv, hcmp, hfx, hrun, haaf⟩ :=
      State.nothingConstructed_powerOn cfg
    exact ⟨hfault, hcause, hlfo, rfl, hhb, hview, hkv, hsv, hcmp, hfx, hrun, haaf,
      State.status_powerOn cfg, hout, step_of_incomplete rfl⟩
  · rcases step_of_fault h hst with ⟨rest, rfl⟩ | rfl
    · exact ⟨h, rfl⟩
    · exact ⟨h, rfl⟩

/-! ## The answer to a fault -/

/-- The writes of an operation leave `FAULT` and `CAUSE` alone. -/
theorem Reaches.keeps_fault {as : List Action} (h : Reaches as s t) : t.fault = s.fault ∧ t.cause = s.cause :=
  h.keeps (p := fun u => u.fault = s.fault ∧ u.cause = s.cause) (fun _ _ _ _ hw hu => by cases hw <;> exact hu)
    ⟨rfl, rfl⟩

/-- Settles O16: the writes leave FAULT and CAUSE alone, and what follows them is an answer or a fault taken. -/
theorem faultingOperationAnswersNothing : Obligations.FaultingOperationAnswersNothing := by
  intro i s t hf h
  obtain ⟨u, hu, ht⟩ := exec_answered i h
  obtain ⟨hfu, hcu⟩ := hu.keeps_fault
  have hfu : u.fault = false := hfu.trans hf
  refine ⟨fun hft => ?_, fun hft => ?_, exec_port h⟩
  · rcases ht with ⟨ws, rfl⟩ | ⟨-, c, rfl | ⟨-, rfl⟩⟩
    · exact absurd (hfu.symm.trans hft) Bool.false_ne_true
    · exact ⟨State.raise_resp .., c, by simp [State.raise_cause, hfu]⟩
    · exact ⟨State.raise_resp .., c, by simp [State.raise_cause, hfu]⟩
  · rcases ht with ⟨ws, rfl⟩ | ⟨-, c, rfl | ⟨-, rfl⟩⟩
    · exact hcu
    · simp at hft
    · simp at hft

/-! ## Precise faults -/

/-- A command that goes on: a path of writes and an answer, or a fault that writes nothing else (rule R172 item 1). -/
def PreciselyAnswered (as : List Action) (s t : State) : Prop :=
  (∃ u ws, Reaches as s u ∧ t = u.respond ws) ∨ ∃ c, t = s.raise c

theorem Res.Performs.command_precise {α : Type} {as : List Action} {words : α → List Word} {op : State → Res α}
    (hop : (op s).Performs false as s) (hprecise : ∀ c u, op s = .trap c u → u = s)
    (h : Machine.command words op s = .next t) : PreciselyAnswered as s t := by
  rcases (command_eq_next words op s t).mp h with ⟨-, rfl⟩ | ⟨-, ⟨a, u, hu, rfl⟩ | ⟨c, u, hu, rfl⟩⟩
  · exact .inl ⟨s, [], .refl, rfl⟩
  · exact .inl ⟨u, words a, hop.1 a u hu, rfl⟩
  · exact .inr ⟨c, by rw [hprecise c u hu]⟩

/-- Every operation but the chain's faults precisely. -/
theorem exec_preciselyAnswered :
    ∀ i : Instr, isChainOp i = false → exec i s = .next t → PreciselyAnswered (actionsOf i) s t
  | .lfoNew lo hi, _ => (lfoNew_performs lo hi).command_precise (by simp +contextual [lfoNew_eq_trap])
  | .lfoStep incr depth, _ =>
    (lfoStep_performs incr depth).command_precise (by simp +contextual [lfoStep_eq_trap])
  | .lfoReset, _ => (lfoReset_performs).command_precise (by simp +contextual [lfoReset_eq_trap])
  | .hbNew _ _, _ => (hbNew_performs _ _).command_precise (by simp +contextual [hbNew_eq_trap])
  | .hbProcess samples, _ =>
    (hbProcess_performs samples).command_precise (by simp +contextual [hbProcess_eq_trap])
  | .hbView, _ => (hbView_performs).command_precise (by simp +contextual [hbView_eq_trap])
  | .hbRead _ _, _ => (hbRead_performs _ _).command_precise (by simp +contextual [hbRead_eq_trap])
  | .hbRelease, _ => (hbRelease_performs).command_precise (by simp +contextual [hbRelease_eq_trap])
  | .hbReset, _ => (hbReset_performs).command_precise (by simp +contextual [hbReset_eq_trap])
  | .pkLpf _ increment, _ =>
    (pkLpf_performs _ increment).command_precise (by simp +contextual [pkLpf_eq_trap])
  | .pkLoadk taps, _ => (pkLoadk_performs taps).command_precise (by simp +contextual [pkLoadk_eq_trap])
  | .pkSplit _, _ => (pkSplit_performs _).command_precise (by simp +contextual [pkSplit_eq_trap])
  | .dlRead _ delay, _ =>
    (dlRead_performs _ delay).command_precise fun c u hu => (dlRead_eq_trap _ delay s u c hu).1
  | .cmpNew fs, _ => (cmpNew_performs fs).command_precise (by simp +contextual [cmpNew_eq_trap])
  | .cmpDetect x, _ => (cmpDetect_performs x).command_precise (by simp +contextual [cmpDetect_eq_trap])
  | .cmpReset, _ => (cmpReset_performs).command_precise (by simp +contextual [cmpReset_eq_trap])
  | .cmpCompress signal level, _ => (cmpCompress_performs signal level).command_precise (by simp)
  | .cmpExpand signal level, _ => (cmpExpand_performs signal level).command_precise (by simp)
  | .nlShape x, _ => (nlShape_performs x).command_precise (by simp)
  | .aafNew k fs, _ =>
    (aafNew_performs k.toNat fs).command_precise (by simp +contextual [aafNew_eq_trap])
  | .aafStep k x, _ =>
    (aafStep_performs k.toNat x).command_precise (by simp +contextual [aafStep_eq_trap])
  | .aafReset k, _ =>
    (aafReset_performs k.toNat).command_precise (by simp +contextual [aafReset_eq_trap])
  | .fxParams params, _ => (fxParams_performs params s).command_precise fun c u hu => by
      unfold fxParams at hu
      split_ifs at hu <;> cases hu <;> rfl

theorem fxReset_trap {c : Cause} (hs : s.Inv) (h : fxReset s = .trap c t) : t = s := by
  cases hc : s.fx.c with
  | false => simp_all [fxReset]
  | true =>
    cases hv : s.hb.view with
    | true => simp_all [fxReset]
    | false => simp [fxReset_of_constructed hs hc hv] at h

/-- Settles O15: an operation outside the chain faults precisely, and so does FX.RESET, whose constituents complete. -/
theorem faultingOperationWritesNothingElse : Obligations.FaultingOperationWritesNothingElse := by
  intro i s t hs hf h hft hnew hset hprocess
  have hprecise : ∃ as, PreciselyAnswered as s t := by
    cases i
    case fxNew fs mb => exact absurd rfl (hnew fs mb)
    case fxSetproc on => exact absurd rfl (hset on)
    case fxProcess block => exact absurd rfl (hprocess block)
    case fxReset =>
      have htrap (c : Cause) (u : State) : fxReset s = .trap c u → u = s := fxReset_trap hs
      exact ⟨_, (Res.Performs.of_precise (fxReset_performs s).1 htrap).command_precise htrap h⟩
    all_goals exact ⟨_, exec_preciselyAnswered _ rfl h⟩
  obtain ⟨as, ⟨u, ws, hu, rfl⟩ | ⟨c, rfl⟩⟩ := hprecise
  · exact absurd ((hu.keeps_fault.1.trans hf).symm.trans hft) Bool.false_ne_true
  · exact ⟨c, State.raise_of_clear s c hf⟩

/-! ## Units not constructed -/

/-- Code 2 is that of NOT_CONSTRUCTED alone (rule R171). -/
theorem causeCode_eq_two_iff (c : Cause) : causeCode c = 2#4 ↔ c = .notConstructed := by cases c <;> decide

/-- An operation that never faults NOT_CONSTRUCTED records another cause (rule R171). -/
theorem Res.Performs.cause_ne {α : Type} {draws : Bool} {as : List Action} {words : α → List Word} {op : State → Res α}
    (hop : (op s).Performs draws as s) (hcause : ∀ c u, op s = .trap c u → c ≠ .notConstructed) (hf : s.fault = false)
    (h : Machine.command words op s = .next t) (ht : t.fault = true) : t.cause ≠ 2#4 := by
  have hclear {u : State} (hu : Reaches as s u) : u.fault = false := hu.keeps_fault.1.trans hf
  rcases (command_eq_next words op s t).mp h with ⟨hfault, -⟩ | ⟨-, ⟨a, u, hu, rfl⟩ | ⟨c, u, hu, rfl⟩⟩
  · exact absurd (hf.symm.trans hfault) Bool.false_ne_true
  · exact absurd ((hclear (hop.1 a u hu)).symm.trans ht) Bool.false_ne_true
  · have hfu : u.fault = false := by
      rcases hop.2 c u hu with hr | ⟨-, v, hr, rfl⟩
      · exact hclear hr
      · exact (State.unspecified_fault v).trans (hclear hr)
    rw [State.raise_cause, hfu]
    exact mt (causeCode_eq_two_iff c).mp (hcause c u hu)

/-- The constituents of FX.NEW construct what they need (rule R155). -/
theorem fxNew_cause_ne {fs : F32} {mb : Nat} {c : Cause} (h : fxNew fs mb s = .trap c t) : c ≠ .notConstructed := by
  unfold fxNew at h
  split_ifs at h with hcheck
  · cases h
    simp
  · obtain ⟨hfs, hmb⟩ : isPositive fs = true ∧ isBlockLength mb = true := by simpa using hcheck
    obtain ⟨u, hu⟩ : ∃ u, fxConstruct fs mb s = .trap c u := by
      rcases chain_eq_trap _ _ c t h with ⟨-, hu⟩ | ⟨u, hu, -⟩
      · exact ⟨t, hu⟩
      · exact ⟨u, hu⟩
    by_cases hfit : FitsChain s.cfg fs mb
    · rw [fxConstruct_of_fit hfs hmb hfit] at hu
      rcases Nat.lt_or_ge s.cfg.nAaf.val 3 with hn | hn
      · obtain ⟨v, hv, -⟩ := constructFilters_of_few (s := s.unitsBuilt fs mb) hfs hn
        cases hv.symm.trans hu
        simp
      · simp [constructFilters_of_three (s := s.unitsBuilt fs mb) hfs hn] at hu
    · obtain ⟨v, hv, -⟩ := fxConstruct_of_not_fit hfit
      cases hv.symm.trans hu
      simp

/-- Settles O17: each operation checks its flag before anything but a filter's number; no constructor checks one. -/
theorem unconstructedUnitsFault : Obligations.UnconstructedUnitsFault := by
  intro s hf
  have htrap {α : Type} {words : α → List Word} {op : State → Res α} (hop : op s = .trap .notConstructed s) :
      command words op s = .next (s.faulted 2#4) := command_of_precise_trap words hf hop
  refine ⟨fun hc a b => ⟨?_, ?_⟩, fun hc xs a b => ⟨?_, ?_, ?_, ?_, ?_⟩, fun hc n => ?_, fun hc i d => ?_,
    fun hc x => ⟨?_, ?_⟩, fun k hk hc x => ⟨?_, ?_⟩, fun hc on ps block => ⟨?_, ?_, ?_, ?_⟩,
    fun a b k xs i t hi h ht => ?_⟩
  · exact htrap ((lfoStep_eq_trap ..).mpr ⟨rfl, .inl ⟨hc, rfl⟩⟩)
  · exact htrap ((lfoReset_eq_trap ..).mpr ⟨hc, rfl, rfl⟩)
  · exact htrap ((hbProcess_eq_trap ..).mpr ⟨rfl, .inl ⟨hc, rfl⟩⟩)
  · exact htrap ((hbView_eq_trap ..).mpr ⟨rfl, .inl ⟨hc, rfl⟩⟩)
  · exact htrap ((hbRead_eq_trap ..).mpr ⟨rfl, .inl ⟨hc, rfl⟩⟩)
  · exact htrap ((hbRelease_eq_trap ..).mpr ⟨rfl, .inl ⟨hc, rfl⟩⟩)
  · exact htrap ((hbReset_eq_trap ..).mpr ⟨rfl, .inl ⟨hc, rfl⟩⟩)
  · exact htrap ((pkSplit_eq_trap ..).mpr ⟨rfl, .inl ⟨hc, rfl⟩⟩)
  · exact htrap (dlRead_of_not_constructed hc)
  · exact htrap ((cmpDetect_eq_trap ..).mpr ⟨hc, rfl, rfl⟩)
  · exact htrap ((cmpReset_eq_trap ..).mpr ⟨hc, rfl, rfl⟩)
  · exact htrap ((aafStep_eq_trap ..).mpr ⟨rfl, .inr ⟨hk, hc, rfl⟩⟩)
  · exact htrap ((aafReset_eq_trap ..).mpr ⟨rfl, .inr ⟨hk, hc, rfl⟩⟩)
  · exact htrap (by simp [fxSetproc, hc])
  · exact htrap (by simp [fxParams, hc])
  · exact htrap (by simp [fxProcess, hc])
  · exact htrap (by simp [fxReset, hc])
  · simp only [List.mem_cons, List.not_mem_nil, or_false] at hi
    have hcause {i : Instr} {op : State → Res Unit} := @Res.Performs.cause_ne s t Unit false (actionsOf i) noWords op
    rcases hi with rfl | rfl | rfl | rfl | rfl | rfl | rfl | rfl | rfl | rfl
    · exact hcause (i := .lfoNew a b) (lfoNew_performs a b) (by simp +contextual [lfoNew_eq_trap]) hf h ht
    · exact hcause (i := .hbNew a b) (hbNew_performs _ _) (by simp +contextual [hbNew_eq_trap]) hf h ht
    · exact hcause (i := .pkLpf a b) (pkLpf_performs _ b) (by simp +contextual [pkLpf_eq_trap]) hf h ht
    · exact hcause (i := .pkLoadk xs) (pkLoadk_performs xs) (by simp +contextual [pkLoadk_eq_trap]) hf h ht
    · exact hcause (i := .cmpNew a) (cmpNew_performs a) (by simp +contextual [cmpNew_eq_trap]) hf h ht
    · refine hcause (i := .aafNew k a) (aafNew_performs k.toNat a) (fun c u hu => ?_) hf h ht
      rcases (aafNew_eq_trap ..).mp hu with ⟨-, ⟨-, rfl⟩ | ⟨-, -, rfl⟩⟩ <;> simp
    · exact (fxNew_performs a (countOf b) s).cause_ne (fun _ _ => fxNew_cause_ne) hf h ht
    · exact (cmpCompress_performs (draws := false) (as := []) a b).cause_ne (by simp) hf h ht
    · exact (cmpExpand_performs (draws := false) (as := []) a b).cause_ne (by simp) hf h ht
    · exact (nlShape_performs (draws := false) (as := []) a).cause_ne (by simp) hf h ht

end Sys2Proof.Machine
end

section
/-!
Reset and construction (rules R191, R195): beside the configuration registers, which both leave alike, a unit's reset
writes what its constructor wrote.
-/

namespace Sys2Proof.Machine

/-- Settles O26: what the constructor writes beside the configuration registers, the reset writes again. -/
theorem resetRestoresWhatNewProduced : Obligations.ResetRestoresWhatNewProduced := by
  intro s t u _ hfu hu
  refine ⟨fun lo hi h ht hcfg => ?_, fun lb mb h ht hcfg => ?_, fun fs h ht hcfg => ?_, fun k fs h ht hk hcfg => ?_⟩ <;>
    obtain ⟨_, w, hw, rfl⟩ := completed_of_command h ht
  · obtain ⟨-, rfl⟩ := (lfoNew_eq_ok ..).mp hw
    simp only [State.respond_lfo, Prod.mk.injEq] at hcfg
    obtain ⟨hc, hpoint, hscale, halpha⟩ := hcfg
    exact ⟨_, command_of_ok _ _ u _ () hfu ((lfoReset_eq_ok ..).mpr ⟨hc, rfl⟩), by simp [hc, hpoint, hscale, halpha]⟩
  · obtain ⟨-, -, -, rfl⟩ := (hbNew_eq_ok ..).mp hw
    simp only [State.respond_hb, Prod.mk.injEq] at hcfg
    obtain ⟨hc, hv, hlb, hmb⟩ := hcfg
    refine ⟨_, command_of_ok _ _ u _ () hfu ((hbReset_eq_ok ..).mpr ⟨hc, hv, hu.block_fits hc le_rfl, rfl⟩), ?_,
      fun a ha => ?_⟩
    · simp [← hc, ← hv, ← hlb, ← hmb]
    · simp only [State.respond_hbuf, State.respond_hb] at ha ⊢
      rw [Mem.read_zeroFill, Mem.read_zeroFill, hlb, hmb, if_pos ha, if_pos ha]
  · obtain ⟨-, rfl⟩ := (cmpNew_eq_ok ..).mp hw
    simp only [State.respond_cmp, Prod.mk.injEq] at hcfg
    obtain ⟨hc, hattack, hrelease⟩ := hcfg
    exact ⟨_, command_of_ok _ _ u _ () hfu ((cmpReset_eq_ok ..).mpr ⟨hc, rfl⟩), by simp [hc, hattack, hrelease]⟩
  · obtain ⟨-, -, rfl⟩ := (aafNew_eq_ok ..).mp hw
    simp only [State.respond_aaf, AafBank.get_set_same, Prod.mk.injEq] at hcfg
    obtain ⟨hc, hg⟩ := hcfg
    exact ⟨_, command_of_ok _ _ u _ () hfu ((aafReset_eq_ok ..).mpr ⟨hk, hc, rfl⟩),
      by simp [AafBank.get_set_same, hc, hg]⟩

end Sys2Proof.Machine
end
